-- ==== Sys2Proof/Word.lean ====
section
/-! DEFINITION. The word types of the block: every quantity is unsigned (00_scope.md R8, 10_state.md R17). -/

namespace Sys2Proof

/-- A byte: ids, commands, lengths, frame and payload bytes (00_scope.md R8). -/
abbrev Byte := BitVec 8

/-- A 16-bit value: checksums and `req_len` (10_state.md R14, 30_encoding.md R72). -/
abbrev Half := BitVec 16

/-- `TICK_W`, the width of a Tick (00_scope.md R4, 60_exceptions.md R190). -/
abbrev tickWidth : Nat := 32

/-- A clock value or a count of ticks held in a register (60_exceptions.md R190, R191). -/
abbrev Tick := BitVec tickWidth

end Sys2Proof
end

