-- ==== Sys2Proof/Config.lean ====
section
/-! DEFINITION. The parameters of an instance (00_scope.md R4) and the constraints a model checks (R7). They are
constants of an instance, not state of the block; a claim is about every valid `Config`. -/

namespace Sys2Proof

/-- The parameters of 00_scope.md R4, under the spec's short names. `MAXP` is `Config.maxp`, `CRC_INIT` is `crcInit`,
`TICK_W` is `tickWidth`. Counts of ticks are `Nat`; R7 bounds those that reach a register. -/
structure Config where
  /-- `FIXED_FRAME_LENGTH`: bytes in every frame. -/
  F : Nat
  maxAttempts : Nat
  maxAckWait : Nat
  retryInterval : Nat
  crcPoly : Half
  ackCode : Byte
  nackCode : Byte
  minLen : Byte
  pollTimeout : Nat
  rxTimeout : Nat
  /-- Ticks per second: informative, no rule reads it (00_scope.md R4). -/
  tickHz : Nat
  devidReset : Byte
  deriving DecidableEq, Repr

/-- `CRC_INIT`, fixed (00_scope.md R4, 40_crc16.md R90). -/
abbrev crcInit : Half := 0xFFFF#16

/-- `MAXP = F − 5` (00_scope.md R5). -/
def Config.maxp (c : Config) : Nat := c.F - 5

/-- The constraints of 00_scope.md R7; `0 <= CRC_POLY < 2^16` holds by the type of `crcPoly`. -/
abbrev Config.Valid (c : Config) : Prop :=
  5 ≤ c.F ∧ c.F ≤ 260 ∧ c.nackCode ≠ c.ackCode ∧ c.maxAttempts ≤ 254 ∧
  c.maxAckWait + c.retryInterval < 2 ^ tickWidth ∧
  (c.maxAttempts + 1) * c.retryInterval < 2 ^ tickWidth ∧
  c.minLen.toNat ≤ c.maxp + 1

/-- The default values of 00_scope.md R4. -/
def Config.default : Config where
  F := 45
  maxAttempts := 3
  maxAckWait := 10000
  retryInterval := 1000
  crcPoly := 0xBFA5#16
  ackCode := 0x06#8
  nackCode := 0x15#8
  minLen := 0x00#8
  pollTimeout := 100
  rxTimeout := 10000
  tickHz := 10000
  devidReset := 0x00#8

end Sys2Proof
end

