-- ==== Sys2Proof/Syntax.lean ====
section
/-! DEFINITION. The request bundle (30_encoding.md R72) and the five operations (R70) with their operands (R74). -/

namespace Sys2Proof

/-- The request bundle the host presents with `start` (30_encoding.md R72). -/
structure Request where
  /-- `req_op`, the command word. -/
  op : Byte
  /-- `req_id`. -/
  id : Byte
  /-- `req_command`. -/
  command : Byte
  /-- `req_len`. -/
  len : Half
  /-- `req_present`: false is the source document's absent input. -/
  present : Bool
  /-- `req_crc`. -/
  crc : Half
  /-- `req_data`; ignored when `present` is false. -/
  data : List Byte
  deriving DecidableEq, Repr

/-- A data operand: `none` is `req_present = 0` (30_encoding.md R72). -/
abbrev Operand := Option (List Byte)

/-- The five operations, one constructor per row of the opcode table, each with the request fields R74 says it reads. -/
inductive Instr where
  /-- `CRC16` (40_crc16.md R94): `req_len`, data. -/
  | crc16 (len : Half) (data : Operand)
  /-- `ENCODE` (41_framer.md R103): `req_id`, `req_command`, `req_len`, `req_crc`, data. -/
  | encode (id command : Byte) (len crc : Half) (data : Operand)
  /-- `DECODE` (41_framer.md R108): the frame operand. -/
  | decode (frame : Operand)
  /-- `WRITE` (42_sender.md R120): `req_command`, `req_len`, data. -/
  | write (command : Byte) (len : Half) (data : Operand)
  /-- `READ` (43_receiver.md R150): no request field but the command word. -/
  | read
  deriving DecidableEq, Repr

end Sys2Proof
end

