-- ==== Sys2Proof/WellFormed.lean ====
section
/-! DEFINITION. What the request bundle promises of an instruction's data operand (30_encoding.md R72): a present operand has
exactly `req_len` bytes, exactly `F` for DECODE. -/

namespace Sys2Proof

/-- A present operand has exactly `n` bytes; an absent one has none to count (30_encoding.md R72, 92_eei_decisions.md D4). -/
def Operand.sized (n : Nat) : Operand → Bool
  | none => true
  | some bytes => bytes.length == n

/-- The operand lengths of 30_encoding.md R72, for each operation. -/
def Instr.wf (c : Config) : Instr → Bool
  | .crc16 len data => Operand.sized len.toNat data
  | .encode _ _ len _ data => Operand.sized len.toNat data
  | .decode frame => Operand.sized c.F frame
  | .write _ len data => Operand.sized len.toNat data
  | .read => true

end Sys2Proof
end

