-- ==== Sys2Proof/Decode.lean ====
section
/-! DEFINITION. Decoding a request bundle and encoding an instruction into one (30_encoding.md R71, R72, R74, R75, R78). -/

namespace Sys2Proof

/-- The operation codes of the command word (30_encoding.md R71). -/
inductive Opcode where
  | crc16 | encode | decode | write | read
  deriving DecidableEq, Repr

/-- The command word of an operation: bits 7:3 zero, bits 2:0 the code (30_encoding.md R71). -/
def Opcode.word : Opcode → Byte
  | .crc16 => 0x01#8
  | .encode => 0x02#8
  | .decode => 0x03#8
  | .write => 0x04#8
  | .read => 0x05#8

/-- The operation a command word selects; every other word is reserved (30_encoding.md R71, R75). -/
def Opcode.ofWord (w : Byte) : Option Opcode :=
  if w = 0x01#8 then some .crc16
  else if w = 0x02#8 then some .encode
  else if w = 0x03#8 then some .decode
  else if w = 0x04#8 then some .write
  else if w = 0x05#8 then some .read
  else none

/-- The data operand of a bundle: its content is ignored when `req_present = 0` (30_encoding.md R72). -/
def Request.operand (r : Request) : Operand :=
  if r.present then some r.data else none

/-- The instruction of a bundle: the fields R74 lists for the operation, the others ignored; `none` for a reserved word (R75). -/
def decode (r : Request) : Option Instr :=
  match Opcode.ofWord r.op with
  | some .crc16 => some (.crc16 r.len r.operand)
  | some .encode => some (.encode r.id r.command r.len r.crc r.operand)
  | some .decode => some (.decode r.operand)
  | some .write => some (.write r.command r.len r.operand)
  | some .read => some .read
  | none => none

/-- A bundle with the command word `op` and every other field 0 (30_encoding.md R78). -/
def Request.bare (op : Byte) : Request :=
  { op := op, id := 0#8, command := 0#8, len := 0#16, present := false, crc := 0#16, data := [] }

/-- Presents a data operand in a bundle. -/
def Request.withOperand (d : Operand) (r : Request) : Request :=
  { r with present := d.isSome, data := d.getD [] }

/-- The bundle of an instruction: "Every form also fixes the fields it does not name to 0" (30_encoding.md R78). -/
def encode : Instr → Request
  | .crc16 len data => Request.withOperand data { Request.bare Opcode.crc16.word with len := len }
  | .encode id command len crc data =>
    Request.withOperand data
      { Request.bare Opcode.encode.word with id := id, command := command, len := len, crc := crc }
  | .decode frame => Request.withOperand frame (Request.bare Opcode.decode.word)
  | .write command len data =>
    Request.withOperand data { Request.bare Opcode.write.word with command := command, len := len }
  | .read => Request.bare Opcode.read.word

/-- The pseudo-instruction `SEND cmd` stands for `WRITE cmd, 0, absent` (30_encoding.md R79). -/
def Instr.send (command : Byte) : Instr := .write command 0 none

/-- One hexadecimal digit. -/
def hexDigit (d : BitVec 4) : String :=
  ["0", "1", "2", "3", "4", "5", "6", "7", "8", "9", "A", "B", "C", "D", "E", "F"].getD d.toNat ""

/-- A byte in hexadecimal, two digits, no leading mark (30_encoding.md R78). -/
def hexByte (b : Byte) : String := hexDigit (b.extractLsb' 4 4) ++ hexDigit (b.extractLsb' 0 4)

/-- A 16-bit value in hexadecimal, four digits (30_encoding.md R78). -/
def hexHalf (h : Half) : String := hexByte (h.extractLsb' 8 8) ++ hexByte (h.extractLsb' 0 8)

/-- The data operand of a command as text: bytes in hexadecimal, or "absent" (30_encoding.md R78). -/
def Operand.text : Operand → String
  | none => "absent"
  | some bytes => " ".intercalate (bytes.map hexByte)

/-- The command as 30_encoding.md R78 writes it: `id`, `cmd` and `crc` in hexadecimal, `len` in decimal. -/
def Instr.text : Instr → String
  | .crc16 len data => "CRC16 " ++ ", ".intercalate [len.toNat.repr, data.text]
  | .encode id command len crc data =>
    "ENCODE " ++ ", ".intercalate [hexByte id, hexByte command, len.toNat.repr, hexHalf crc, data.text]
  | .decode frame => "DECODE " ++ frame.text
  | .write command len data => "WRITE " ++ ", ".intercalate [hexByte command, len.toNat.repr, data.text]
  | .read => "READ"

/-- The bundle whose command word is the table word `w`, all operand fields 0 (the opcode table gives a row 8 bits);
a value of more than 8 bits is no command word. -/
def tableRequest (w : Nat) : Request := Request.bare (BitVec.ofNat 8 w)

/-- The decoder on a word of spec/opcode_table.json, operand fields 0. -/
def decodeTableWord (nbits w : Nat) : Option Instr :=
  if nbits = 8 ∧ w < 256 then decode (tableRequest w) else none

end Sys2Proof
end

