-- ==== Sys2Proof/Machine/State.lean ====
section
/-! DEFINITION. The state of one instance (10_state.md R10), the model's own fields for its inputs and outputs, and reset
(R33). Plain data throughout. -/

namespace Sys2Proof.Machine

/-- A byte array (a frame buffer or a payload) as the list of its non-zero bytes: offset and byte, offsets strictly rising.
The capacity (`F` or `MAXP`) is not part of the data: `Safety.lean` states it as an invariant. -/
abbrev Memory := List Host.Cell

/-- What an unlisted offset reads as: every buffer is zero after reset and after `clear` (10_state.md R33, 00_scope.md R8). -/
abbrev Memory.unlisted : Byte := 0#8

/-- The canonical form: offsets strictly rising, no entry equal to what an unlisted offset reads as. -/
abbrev Memory.wf (m : Memory) : Prop :=
  m.Pairwise (fun a b => a.1 < b.1) ∧ ∀ cell ∈ m, cell.2 ≠ Memory.unlisted

/-- Every listed offset lies below `n`. -/
abbrev Memory.within (n : Nat) (m : Memory) : Prop := ∀ cell ∈ m, cell.1 < n

/-- A packet register group (10_state.md R11). -/
structure Packet where
  id : Byte
  command : Byte
  length : Byte
  /-- `payload[0 .. MAXP−1]`. -/
  payload : Memory
  crc : Half
  deriving DecidableEq, Repr

/-- A cleared packet register group (00_scope.md R8, `clear`). -/
def Packet.zero : Packet := { id := 0#8, command := 0#8, length := 0#8, payload := [], crc := 0#16 }

/-- The result register group `RES` (10_state.md R18). -/
structure ResultRegs where
  crc16 : Half
  packet : Packet
  /-- `RES.frame[0 .. F−1]`. -/
  frame : Memory
  deriving DecidableEq, Repr

/-- `RES` cleared. -/
def ResultRegs.zero : ResultRegs := { crc16 := 0#16, packet := Packet.zero, frame := [] }

/-- The result kinds (30_encoding.md R76, 60_exceptions.md R170); code 7 is never written, so it has no constructor. -/
inductive Kind where
  | ok | lengthError | invalidArgument | crcError | ackTimeout | noData | ioError
  deriving DecidableEq, Repr

/-- The sequencing register `FSM` (10_state.md R20). -/
inductive Fsm where
  | idle | txSent | txAwait | rxAwait
  deriving DecidableEq, Repr

/-- The continuation label of the running operation (10_state.md R27): where in the pseudocode of 42_sender.md R120 or
43_receiver.md R150 the block stands between two steps. `W1`, `W2` and `W7` are passed inside a step, and so are `RD1` and
`RD4`; `RD3` and `RD5` have their reply's `TpWrite` as a point of their own. -/
inductive Label where
  /-- No operation is running. -/
  | none
  /-- In the first `TpWrite`. -/
  | w3
  /-- In the `ClkNow` whose answer is `START`. -/
  | w4
  /-- In the `ClkNow` of the loop guard. -/
  | w5
  /-- In the `TpRead` of the loop. -/
  | w6
  /-- In the `TpWrite` of `Resend`. -/
  | w8
  /-- `TpFlush` done; the NACK frame not yet built. -/
  | rd2
  /-- In the `TpRead`. -/
  | rd3
  /-- In the `TpWrite` of the NACK frame that ends with `NoData`. -/
  | rd3Nack
  /-- In the `TpWrite` of the NACK frame that ends with `CrcError`. -/
  | rd5Nack
  /-- In the `TpWrite` of the ACK frame. -/
  | rd6
  deriving DecidableEq, Repr

/-- The working state: everything rule R29 (10_state.md) requires to be zero while `BUSY = 0`. -/
structure Work where
  txp : Packet
  rxp : Packet
  txf : Memory
  rxf : Memory
  /-- `CONT` (10_state.md R22). -/
  cont : Byte
  /-- `START` (10_state.md R23). -/
  start : Tick
  /-- `BUDGET` (10_state.md R24). -/
  budget : Tick
  /-- `ACKED` (10_state.md R25). -/
  acked : Bool
  /-- `EXT` (10_state.md R25). -/
  ext : Bool
  deriving DecidableEq, Repr

/-- The working state cleared (10_state.md R29). -/
def Work.zero : Work where
  txp := Packet.zero
  rxp := Packet.zero
  txf := []
  rxf := []
  cont := 0#8
  start := 0#32
  budget := 0#32
  acked := false
  ext := false

/-- An answer of `TpWrite` (00_scope.md R9). -/
inductive WriteAnswer where
  | ok | ioError
  deriving DecidableEq, Repr

/-- An answer of `TpRead`: a byte sequence (empty on a silent timeout) or `failure` (00_scope.md R9). -/
inductive ReadAnswer where
  | bytes (b : List Byte)
  | failure
  deriving DecidableEq, Repr

/-- A call of the block on its environment, with its arguments (00_scope.md R9). -/
inductive Call where
  | tpWrite (frame : List Byte)
  | tpRead (maxLen timeout : Nat)
  | tpFlush
  | clkNow
  deriving DecidableEq, Repr

/-- What the host does in one step's time (30_encoding.md R71, 10_state.md R19, 70_reset_and_hazards.md R200). -/
inductive HostAct where
  /-- Nothing: the running operation, if any, goes on. -/
  | wait
  /-- Presents a request bundle with the `start` strobe. -/
  | start (r : Request)
  /-- Writes register `DEVID`. -/
  | setDevId (v : Byte)
  /-- Asserts `rst`. -/
  | rst
  deriving DecidableEq, Repr

/-- The state: the items of 10_state.md R10 (`work`, `res`, `devid`, `fsm`, `status`, `busy`, `done`), the continuation label
(R27), and the model's own fields: the parameters, the inputs still to come and the outputs made. -/
structure State where
  /-- The parameters of the instance: constants (log entry 1). -/
  cfg : Config
  /-- `TXP`, `RXP`, `TXF`, `RXF`, `CONT`, `START`, `BUDGET`, `ACKED`, `EXT`. -/
  work : Work
  /-- `RES`. -/
  res : ResultRegs
  /-- `DEVID`. -/
  devid : Byte
  /-- `FSM`. -/
  fsm : Fsm
  /-- `STATUS`. -/
  status : Kind
  /-- `BUSY`. -/
  busy : Bool
  /-- `DONE`. -/
  done : Bool
  /-- The continuation label. -/
  label : Label
  /-- The host's acts still to come, one a step (log entry 3). -/
  host : List HostAct
  /-- Answers of `TpWrite` still to come (log entry 5). -/
  tpWrites : List WriteAnswer
  /-- Answers of `TpRead` still to come. -/
  tpReads : List ReadAnswer
  /-- Answers of `ClkNow` still to come. -/
  ticks : List Tick
  /-- The calls made, oldest first (log entry 6). -/
  calls : List Call
  /-- The one-shot output `cmd_reject` of the step just taken (60_exceptions.md R182). -/
  cmdReject : Bool
  deriving DecidableEq, Repr

/-- The state of an instance with parameters `c` after reset (10_state.md R33, 70_reset_and_hazards.md R200): all zero but
`DEVID`; no input waiting, no call made. -/
def State.resetOf (c : Config) : State where
  cfg := c
  work := Work.zero
  res := ResultRegs.zero
  devid := c.devidReset
  fsm := .idle
  status := .ok
  busy := false
  done := false
  label := .none
  host := []
  tpWrites := []
  tpReads := []
  ticks := []
  calls := []
  cmdReject := false

/-- The reset state of the instance with the spec's default parameters (00_scope.md R4). -/
def State.reset : State := State.resetOf Config.default

/-- There is no fault: "No point in this hardware is treated as a fault: there is no trap mechanism to raise one"
(93_implementation_defined.md), and no access falls outside a buffer (20_memory.md R41). -/
inductive Fault
  deriving DecidableEq, Repr

/-- The inputs the model does not take. -/
inductive Refusal where
  /-- Raised by `exec` for an instruction that has no meaning yet; safe. -/
  | notModelled (mnemonic : String)
  /-- Raised by the start port when the block is idle and a present data operand has not the length 30_encoding.md R72
  gives it, so that the bundle is none the host can present; safe. -/
  | malformedRequest
  /-- Raised by `step` when the parameters break 00_scope.md R7 ("a model refuses it"); safe. -/
  | invalidParameters
  deriving DecidableEq, Repr

end Sys2Proof.Machine
end

