-- ==== Sys2Proof/Machine/Flags.lean ====
section
/-! DEFINITION. The codes of the status and sequencing registers, the control registers as words, and what the host can
read (10_state.md section 5, 30_encoding.md R73, R76, 60_exceptions.md R179). -/

namespace Sys2Proof.Machine

/-- The code of a result kind in `STATUS[2:0]` (30_encoding.md R76). -/
def Kind.code : Kind → BitVec 3
  | .ok => 0#3
  | .lengthError => 1#3
  | .invalidArgument => 2#3
  | .crcError => 3#3
  | .ackTimeout => 4#3
  | .noData => 5#3
  | .ioError => 6#3

/-- The code of an `FSM` value (10_state.md R20). -/
def Fsm.code : Fsm → BitVec 2
  | .idle => 0#2
  | .txSent => 1#2
  | .txAwait => 2#2
  | .rxAwait => 3#2

/-- `STATUS`: [2:0] kind, [7:3] read as 0 (10_state.md R21). -/
def State.statusReg (s : State) : Byte := 0#5 ++ s.status.code

/-- `FLAGS`: [0] `BUSY`, [1] `DONE`, [3:2] `FSM`, [7:4] read as 0 (10_state.md R20, R26). -/
def State.flagsReg (s : State) : Byte :=
  0#4 ++ s.fsm.code ++ BitVec.ofBool s.done ++ BitVec.ofBool s.busy

/-- `SFLAGS`: [0] `ACKED`, [1] `EXT`, [7:2] read as 0 (10_state.md R25). -/
def State.sflagsReg (s : State) : Byte :=
  0#6 ++ BitVec.ofBool s.work.ext ++ BitVec.ofBool s.work.acked

/-- The interrupt output `irq_done` is the value of `DONE` (60_exceptions.md R179). -/
def State.irqDone (s : State) : Bool := s.done

/-- The control registers, numbered 0 to 6 (10_state.md section 5). -/
inductive CtrlReg where
  | devid | status | flags | cont | start | budget | sflags
  deriving DecidableEq, Repr

/-- The number that names a control register (10_state.md section 5). -/
def CtrlReg.number : CtrlReg → Nat
  | .devid => 0
  | .status => 1
  | .flags => 2
  | .cont => 3
  | .start => 4
  | .budget => 5
  | .sflags => 6

/-- The contents of a control register, zero-extended to 32 bits. -/
def CtrlReg.value (r : CtrlReg) (s : State) : BitVec 32 :=
  match r with
  | .devid => s.devid.setWidth 32
  | .status => s.statusReg.setWidth 32
  | .flags => s.flagsReg.setWidth 32
  | .cont => s.work.cont.setWidth 32
  | .start => s.work.start
  | .budget => s.work.budget
  | .sflags => s.sflagsReg.setWidth 32

/-- The registers the host may read: `DEVID`, `STATUS`, `FLAGS` (10_state.md section 5, column "access"). -/
def CtrlReg.hostReadable : CtrlReg → Bool
  | .devid | .status | .flags => true
  | .cont | .start | .budget | .sflags => false

/-- A host register read: no side effect; none where the host has no access (10_state.md section 5, R16). -/
def CtrlReg.hostRead (r : CtrlReg) (s : State) : Option (BitVec 32) :=
  if r.hostReadable then some (r.value s) else none

/-- The response bundle (30_encoding.md R73), "readable at any time". -/
structure Response where
  status : BitVec 3
  crc16 : Half
  packet : Packet
  frame : Memory
  deriving DecidableEq, Repr

/-- What the host reads as the response bundle (30_encoding.md R73). -/
def State.response (s : State) : Response :=
  { status := s.status.code, crc16 := s.res.crc16, packet := s.res.packet, frame := s.res.frame }

end Sys2Proof.Machine
end

