-- ==== Sys2Proof/Machine/Operands.lean ====
section
/-! DEFINITION. The operand forms: absent and present data, the length bound, the narrowing of `req_len`, and the answer
of a transport read as a frame. -/

namespace Sys2Proof.Machine

/-- An absent operand where data is needed: `req_len > 0 and req_present = 0` (60_exceptions.md R172). -/
def operandMissing (len : Half) (data : Operand) : Bool :=
  len != 0#16 && data.isNone

/-- `req_data[0 .. req_len − 1]` (40_crc16.md R94); empty when `req_len = 0`. -/
def operandBytes (len : Half) (data : Operand) : List Byte :=
  (data.getD []).take len.toNat

/-- `req_len > MAXP`, unsigned on the 16-bit `req_len` (42_sender.md R121, 41_framer.md R104). -/
def tooLong (c : Config) (len : Half) : Bool :=
  decide (c.maxp < len.toNat)

/-- `req_len[7:0]` (30_encoding.md R77). -/
def lengthByte (len : Half) : Byte := len.setWidth 8

/-- The `F` bytes of a read that is a frame; any other answer is none (20_memory.md R46). -/
def frameOf (c : Config) : ReadAnswer → Option (List Byte)
  | .bytes b => if b.length = c.F then some b else none
  | .failure => none

/-- `crc[7:0]` (30_encoding.md R77). -/
def lowByte (crc : Half) : Byte := crc.setWidth 8

/-- `crc[15:8]` (30_encoding.md R77). -/
def highByte (crc : Half) : Byte := (crc >>> 8).setWidth 8

/-- `(zext_16(hi) << 8) OR zext_16(lo)` (41_framer.md R105). -/
def halfOf (hi lo : Byte) : Half := (hi.setWidth 16 <<< 8) ||| lo.setWidth 16

end Sys2Proof.Machine
end

