-- ==== Sys2Proof/Machine/Ops.lean ====
section
/-! DEFINITION. The named operations the meanings are built from: buffer accesses, `accept`, `finish`, refusal, calls on the
environment and their answers. -/

namespace Sys2Proof.Machine

/-- `MemRead(S:a, 1)` (00_scope.md R8, 20_memory.md R41). -/
def Memory.read : Memory → Nat → Byte
  | [], _ => Memory.unlisted
  | (k, v) :: m, a => if a = k then v else Memory.read m a

/-- Lists `b` at `a`, unless `b` is what an unlisted offset reads as. -/
def Memory.put (a : Nat) (b : Byte) (m : Memory) : Memory :=
  if b = Memory.unlisted then m else (a, b) :: m

/-- `MemWrite(S:a, 1, b)` (00_scope.md R8, 20_memory.md R41), keeping the canonical form. -/
def Memory.write : Memory → Nat → Byte → Memory
  | [], a, b => Memory.put a b []
  | (k, v) :: m, a, b =>
    if a < k then Memory.put a b ((k, v) :: m)
    else if a = k then Memory.put a b m
    else (k, v) :: Memory.write m a b

/-- `S[a .. a + n − 1]`, in increasing offset (20_memory.md R43). -/
def Memory.readBytes (m : Memory) (a : Nat) : Nat → List Byte
  | 0 => []
  | n + 1 => Memory.read m a :: Memory.readBytes m (a + 1) n

/-- Writes a byte sequence from offset `a` on, in increasing offset (20_memory.md R43). -/
def Memory.writeBytes (m : Memory) (a : Nat) : List Byte → Memory
  | [] => m
  | b :: bs => Memory.writeBytes (Memory.write m a b) (a + 1) bs

/-- A cleared buffer filled from offset 0. -/
def Memory.ofBytes (bs : List Byte) : Memory := Memory.writeBytes [] 0 bs

/-- `accept` (60_exceptions.md R181): `BUSY` set, `DONE` and `RES` and all working state cleared; `STATUS` keeps its value. -/
def accept (s : State) : State :=
  { s with busy := true, done := false, res := ResultRegs.zero, work := Work.zero }

/-- `finish(k)`, also `raise k` (60_exceptions.md R176): the one exit of every operation. -/
def finish (k : Kind) (s : State) : State :=
  { s with
    res := if k = .ok then s.res else ResultRegs.zero
    work := Work.zero
    fsm := .idle
    status := k
    busy := false
    done := true
    label := .none }

/-- Refusal by the block: nothing changes, `cmd_reject` pulses (60_exceptions.md R182). -/
def reject (s : State) : State := { s with cmdReject := true }

/-- A legal command: accepted while `BUSY = 0`, else refused (60_exceptions.md R181, R182). -/
def onAccept (body : State → State) (s : State) : Host.Outcome State Fault Refusal :=
  if s.busy then .next (reject s) else .next (body (accept s))

/-- Makes a call on the environment and stands at `l` until it is answered (20_memory.md R52). -/
def issue (c : Call) (l : Label) (s : State) : State :=
  { s with calls := s.calls ++ [c], label := l }

/-- `FSM <- f`. -/
def setFsm (f : Fsm) (s : State) : State := { s with fsm := f }

/-- Replaces the working state. -/
def setWork (w : Work) (s : State) : State := { s with work := w }

/-- Writes `RES`. -/
def setRes (r : ResultRegs) (s : State) : State := { s with res := r }

/-- Replaces the answers of `TpWrite` still to come. -/
def setTpWrites (l : List WriteAnswer) (s : State) : State := { s with tpWrites := l }

/-- Replaces the answers of `TpRead` still to come. -/
def setTpReads (l : List ReadAnswer) (s : State) : State := { s with tpReads := l }

/-- Replaces the answers of `ClkNow` still to come. -/
def setTicks (l : List Tick) (s : State) : State := { s with ticks := l }

/-- Goes on with the answer of the pending `TpWrite`; waits while there is none. -/
def onWriteAnswer (k : WriteAnswer → State → State) (s : State) : State :=
  match s.tpWrites with
  | [] => s
  | a :: rest => k a (setTpWrites rest s)

/-- Goes on with the answer of the pending `TpRead`; waits while there is none. -/
def onReadAnswer (k : ReadAnswer → State → State) (s : State) : State :=
  match s.tpReads with
  | [] => s
  | a :: rest => k a (setTpReads rest s)

/-- Goes on with the answer of the pending `ClkNow`; waits while there is none. -/
def onTick (k : Tick → State → State) (s : State) : State :=
  match s.ticks with
  | [] => s
  | a :: rest => k a (setTicks rest s)

/-- Goes on after a `TpWrite` that the transport took; `IoError` ends the operation (60_exceptions.md R177). -/
def onWritten (k : State → State) (s : State) : State :=
  onWriteAnswer (fun a t => match a with
    | .ok => k t
    | .ioError => finish .ioError t) s

end Sys2Proof.Machine
end

