-- ==== Sys2Proof/Machine/Crc.lean ====
section
/-! DEFINITION. The CRC-16 engine and the operation CRC16 (40_crc16.md). -/

namespace Sys2Proof.Machine

/-- One bit step: the test on `c[0]` before the logical shift, the XOR after it (40_crc16.md R90, R92). -/
def crcBit (poly c : Half) : Half :=
  if c.getLsbD 0 then (c >>> 1) ^^^ poly else c >>> 1

/-- `n` bit steps. -/
def crcBits (poly : Half) : Nat → Half → Half
  | 0, c => c
  | n + 1, c => crcBits poly n (crcBit poly c)

/-- `Step(c, b)`: the XOR of one byte into `c[7:0]`, then exactly 8 bit steps (40_crc16.md R90, R91, R98). -/
def crcStep (poly c : Half) (b : Byte) : Half :=
  crcBits poly 8 (c ^^^ b.setWidth 16)

/-- `Crc16(s)` (40_crc16.md R90). -/
def crc16 (poly : Half) (bytes : List Byte) : Half :=
  bytes.foldl (crcStep poly) crcInit

/-- CRC16 after acceptance (40_crc16.md R94, R95, R96). -/
def crc16Body (len : Half) (data : Operand) (s : State) : State :=
  if operandMissing len data then finish .invalidArgument s
  else finish .ok (setRes { s.res with crc16 := crc16 s.cfg.crcPoly (operandBytes len data) } s)

/-- `CRC16` (40_crc16.md R94). -/
def execCrc16 (len : Half) (data : Operand) (s : State) : Host.Outcome State Fault Refusal :=
  onAccept (crc16Body len data) s

end Sys2Proof.Machine
end

