-- ==== Sys2Proof/Machine/Framer.lean ====
section
/-! DEFINITION. The framer: `Enc`, `Dec`, `CrcSpan`, `BuildFrame`, `FrameCrcOk`, and the operations ENCODE and DECODE
(41_framer.md). -/

namespace Sys2Proof.Machine

/-- The header and payload part of `Enc` (41_framer.md R100): padding is not touched (R102). -/
def encHeader (b : Memory) (p : Packet) : Memory :=
  let b := Memory.write b 0 p.id
  let b := Memory.write b 1 p.command
  let b := Memory.write b 2 p.length
  Memory.writeBytes b 3 (Memory.readBytes p.payload 0 p.length.toNat)

/-- Writes the CRC field, low byte at the lower offset (20_memory.md R42). -/
def putCrc (c : Config) (b : Memory) (crc : Half) : Memory :=
  Memory.write (Memory.write b (c.F - 2) (lowByte crc)) (c.F - 1) (highByte crc)

/-- `Enc(B, P)` (41_framer.md R100): the CRC bytes are written only when `P.crc != 0` (R101). -/
def enc (c : Config) (b : Memory) (p : Packet) : Memory :=
  if p.crc = 0#16 then encHeader b p else putCrc c (encHeader b p) p.crc

/-- `Dec(B)` (41_framer.md R105): the Packet, or `none` for `LengthError` (R106). -/
def dec (c : Config) (b : Memory) : Option Packet :=
  let len := Memory.read b 2
  if c.maxp < len.toNat then none
  else some
    { id := Memory.read b 0
      command := Memory.read b 1
      length := len
      payload := Memory.ofBytes (Memory.readBytes b 3 len.toNat)
      crc := halfOf (Memory.read b (c.F - 1)) (Memory.read b (c.F - 2)) }

/-- `CrcSpan(B) = B[0 .. F−3]`, padding included (41_framer.md R109, 90_conflicts.md C3). -/
def crcSpan (c : Config) (b : Memory) : List Byte := Memory.readBytes b 0 (c.F - 2)

/-- `Crc16(CrcSpan(B))`. -/
def frameCrc (c : Config) (b : Memory) : Half := crc16 c.crcPoly (crcSpan c b)

/-- `FrameCrcOk(B)` (41_framer.md R111). -/
def frameCrcOk (c : Config) (b : Memory) : Bool :=
  match dec c b with
  | none => false
  | some p => p.crc == frameCrc c b

/-- The `F` bytes of a buffer, as `TpWrite` hands them over (20_memory.md R43). -/
def frameBytes (c : Config) (b : Memory) : List Byte := Memory.readBytes b 0 c.F

/-- `BuildFrame()` on `TXP` and `TXF` (41_framer.md R110): encode without CRC, clear the CRC bytes, compute the checksum of
the buffer, encode again. -/
def buildFrame (c : Config) (w : Work) : Work :=
  let b := enc c w.txf { w.txp with crc := 0#16 }
  let b := Memory.write (Memory.write b (c.F - 2) 0#8) (c.F - 1) 0#8
  let p := { w.txp with crc := frameCrc c b }
  { w with txp := p, txf := enc c b p }

/-- ENCODE's `TXP` (41_framer.md R103). -/
def requestPacket (id command : Byte) (len crc : Half) (data : Operand) : Packet :=
  { id := id
    command := command
    length := lengthByte len
    payload := Memory.ofBytes (operandBytes len data)
    crc := crc }

/-- ENCODE after acceptance (41_framer.md R103, R104). -/
def encodeBody (id command : Byte) (len crc : Half) (data : Operand) (s : State) : State :=
  if tooLong s.cfg len then finish .lengthError s
  else if operandMissing len data then finish .invalidArgument s
  else
    let p := requestPacket id command len crc data
    let txf := enc s.cfg s.work.txf p
    finish .ok (setRes { s.res with frame := txf } (setWork { s.work with txp := p, txf := txf } s))

/-- `ENCODE` (41_framer.md R103). -/
def execEncode (id command : Byte) (len crc : Half) (data : Operand) (s : State) :
    Host.Outcome State Fault Refusal :=
  onAccept (encodeBody id command len crc data) s

/-- `RXF <- bytes`, then `Dec(RXF)`: `RXP` is the Packet, or all zero when `Dec` fails (41_framer.md R105, R106). -/
def receiveFrame (bytes : List Byte) (s : State) : State :=
  let rxf := Memory.ofBytes bytes
  setWork { s.work with rxf := rxf, rxp := (dec s.cfg rxf).getD Packet.zero } s

/-- DECODE after acceptance (41_framer.md R108). -/
def decodeBody (frame : Operand) (s : State) : State :=
  match frame with
  | none => finish .invalidArgument s
  | some bytes =>
    let s := receiveFrame (bytes.take s.cfg.F) s
    match dec s.cfg s.work.rxf with
    | none => finish .lengthError s
    | some _ => finish .ok (setRes { s.res with packet := s.work.rxp } s)

/-- `DECODE` (41_framer.md R108). -/
def execDecode (frame : Operand) (s : State) : Host.Outcome State Fault Refusal :=
  onAccept (decodeBody frame) s

end Sys2Proof.Machine
end

