-- ==== Sys2Proof/Machine/Sender.lean ====
section
/-! DEFINITION. The sender state machine, operation WRITE (42_sender.md R120): its start and its steps at the labels `W3` to
`W8`. -/

namespace Sys2Proof.Machine

/-- `TpWrite(TXF[0 .. F−1])`, waiting at `l` for its answer. -/
def sendFrame (l : Label) (s : State) : State :=
  issue (.tpWrite (frameBytes s.cfg s.work.txf)) l s

/-- `goto W5`: the `ClkNow` of the loop guard (42_sender.md R125). -/
def awaitReply (s : State) : State := issue .clkNow .w5 s

/-- `W2` (42_sender.md R122): the Packet of the request, `id` from `DEVID`, built into a frame; the receive side cleared. -/
def writeBuild (command : Byte) (len : Half) (data : Operand) (s : State) : State :=
  let w := buildFrame s.cfg { s.work with txp := requestPacket s.devid command len 0#16 data }
  setWork { w with rxp := Packet.zero, rxf := [] } s

/-- WRITE after acceptance: the argument checks of `W1` (42_sender.md R121), `W2`, and the `TpWrite` of `W3` (R123). -/
def writeBody (command : Byte) (len : Half) (data : Operand) (s : State) : State :=
  if tooLong s.cfg len then finish .lengthError s
  else if operandMissing len data then finish .invalidArgument s
  else sendFrame .w3 (setFsm .txSent (writeBuild command len data s))

/-- `WRITE` (42_sender.md R120), up to its first `TpWrite`. -/
def execWrite (command : Byte) (len : Half) (data : Operand) (s : State) : Host.Outcome State Fault Refusal :=
  onAccept (writeBody command len data) s

/-- The answer at `W3`: `ok` leads to `W4` and its `ClkNow` (42_sender.md R123, R124). -/
def senderW3 (s : State) : State :=
  onWritten (fun t => issue .clkNow .w4 (setFsm .txAwait t)) s

/-- The answer at `W4`: the loop is set up (42_sender.md R124). -/
def senderW4 (s : State) : State :=
  onTick (fun now t => awaitReply (setWork
    { t.work with
      start := now
      cont := 0#8
      budget := BitVec.ofNat tickWidth t.cfg.maxAckWait
      ext := false
      acked := false } t)) s

/-- `el = (now − START) mod 2^TICK_W` (60_exceptions.md R191). -/
def elapsed (now : Tick) (s : State) : Tick := now - s.work.start

/-- The loop guard fails: `CONT > MAX_ATTEMPTS or el > BUDGET` (42_sender.md R125). -/
def guardFails (now : Tick) (s : State) : Bool :=
  decide (s.cfg.maxAttempts < s.work.cont.toNat) || decide (s.work.budget < elapsed now s)

/-- The read gate: `el >= CONT * RETRY_INTERVAL`, the product untruncated (42_sender.md R126). -/
def gateOpen (now : Tick) (s : State) : Bool :=
  decide (s.work.cont.toNat * s.cfg.retryInterval ≤ (elapsed now s).toNat)

/-- The answer at `W5`: guard, then gate (42_sender.md R125, R126, R133). -/
def senderW5 (s : State) : State :=
  onTick (fun now t =>
    if guardFails now t then finish .ackTimeout t
    else if gateOpen now t then issue (.tpRead t.cfg.F t.cfg.pollTimeout) .w6 t
    else awaitReply t) s

/-- `CONT <- CONT + 1`, then `goto W5`. -/
def countReply (s : State) : State :=
  awaitReply (setWork { s.work with cont := s.work.cont + 1#8 } s)

/-- `Resend()` (42_sender.md R132): the transmission is skipped when `CONT` already equals `MAX_ATTEMPTS`, the increment never. -/
def resend (s : State) : State :=
  if s.work.cont.toNat < s.cfg.maxAttempts then sendFrame .w8 (setFsm .txSent s)
  else countReply s

/-- A valid NACK: `BUDGET` grows by `RETRY_INTERVAL` once, `ACKED` is reset (42_sender.md R130). -/
def extendBudget (s : State) : State :=
  if s.work.ext then setWork { s.work with acked := false } s
  else setWork
    { s.work with
      budget := s.work.budget + BitVec.ofNat tickWidth s.cfg.retryInterval
      ext := true
      acked := false } s

/-- `W7` on a frame (42_sender.md R127 to R131). -/
def senderW7 (bytes : List Byte) (s : State) : State :=
  let s := receiveFrame bytes s
  if frameCrcOk s.cfg s.work.rxf = false then resend s
  else if s.work.rxp.command = s.cfg.ackCode then
    finish .ok (setWork { s.work with acked := true } s)
  else if s.work.rxp.command = s.cfg.nackCode then resend (extendBudget s)
  else awaitReply s

/-- The answer at `W6`: a frame goes to `W7`, anything else is discarded (42_sender.md R126, 20_memory.md R46). -/
def senderW6 (s : State) : State :=
  onReadAnswer (fun a t => match frameOf t.cfg a with
    | some bytes => senderW7 bytes t
    | none => awaitReply t) s

/-- The answer at `W8`: a resent frame is counted (42_sender.md R132); a failed one ends the WRITE (R123). -/
def senderW8 (s : State) : State :=
  onWritten (fun t => countReply (setFsm .txAwait t)) s

end Sys2Proof.Machine
end

