-- ==== Sys2Proof/Machine/Receiver.lean ====
section
/-! DEFINITION. The receiver state machine, operation READ (43_receiver.md R150): its start and its steps at the labels `RD2`
to `RD6`. -/

namespace Sys2Proof.Machine

/-- READ after acceptance: `RD1`, one `TpFlush` (43_receiver.md R151). -/
def readBody (s : State) : State := issue .tpFlush .rd2 s

/-- `READ` (43_receiver.md R150), up to its `TpFlush`. -/
def execRead (s : State) : Host.Outcome State Fault Refusal :=
  onAccept readBody s

/-- The reply Packet: `id = DEVID`, the reply's command, `length = 0`, no payload (43_receiver.md R152). -/
def replyPacket (devid command : Byte) : Packet :=
  { Packet.zero with id := devid, command := command }

/-- `RD2` and the call of `RD3`: the NACK frame is built, then the block waits for one frame (43_receiver.md R152, R153). -/
def receiverRD2 (s : State) : State :=
  let w := buildFrame s.cfg { s.work with txp := replyPacket s.devid s.cfg.nackCode }
  issue (.tpRead s.cfg.F s.cfg.rxTimeout) .rd3 (setFsm .rxAwait (setWork w s))

/-- `RD6` up to its `TpWrite`: only the command of `TXP` changes, and the frame is built again (43_receiver.md R158). -/
def replyAck (s : State) : State :=
  let w := buildFrame s.cfg { s.work with txp := { s.work.txp with command := s.cfg.ackCode } }
  sendFrame .rd6 (setWork w s)

/-- `RD4`, `RD5` on a frame (43_receiver.md R154 to R158): the two length checks, then the CRC check. -/
def receiverRD4 (bytes : List Byte) (s : State) : State :=
  let s := receiveFrame bytes s
  match dec s.cfg s.work.rxf with
  | none => finish .lengthError s
  | some p =>
    if Memory.read s.work.rxf 2 < s.cfg.minLen then finish .lengthError s
    else if p.crc ≠ frameCrc s.cfg s.work.rxf then sendFrame .rd5Nack s
    else replyAck s

/-- The answer at `RD3`: no frame is answered with the NACK frame (43_receiver.md R153). -/
def receiverRD3 (s : State) : State :=
  onReadAnswer (fun a t => match frameOf t.cfg a with
    | some bytes => receiverRD4 bytes t
    | none => sendFrame .rd3Nack t) s

/-- The NACK of `RD3` is written: `NoData` (43_receiver.md R153, R163). -/
def receiverRD3Nack (s : State) : State := onWritten (finish .noData) s

/-- The NACK of `RD5` is written: `CrcError` (43_receiver.md R157, R163). -/
def receiverRD5Nack (s : State) : State := onWritten (finish .crcError) s

/-- The ACK is written: the Packet is delivered (43_receiver.md R158, R163). -/
def receiverRD6 (s : State) : State :=
  onWritten (fun t => finish .ok (setRes { t.res with packet := t.work.rxp } t)) s

/-- One step of the running operation, by its continuation label (10_state.md R27); an idle block waits for a command
(70_reset_and_hazards.md R200). -/
def advance (s : State) : State :=
  match s.label with
  | .none => s
  | .w3 => senderW3 s
  | .w4 => senderW4 s
  | .w5 => senderW5 s
  | .w6 => senderW6 s
  | .w8 => senderW8 s
  | .rd2 => receiverRD2 s
  | .rd3 => receiverRD3 s
  | .rd3Nack => receiverRD3Nack s
  | .rd5Nack => receiverRD5Nack s
  | .rd6 => receiverRD6 s

end Sys2Proof.Machine
end

