-- ==== Sys2Proof/Machine/Dispatch.lean ====
section
/-! DEFINITION. The one dispatch from an instruction to its meaning. -/

namespace Sys2Proof.Machine

def exec (i : Instr) (s : State) : Host.Outcome State Fault Refusal :=
  match i with
  | .crc16 len data => Sys2Proof.Machine.execCrc16 len data s
  | .encode id command len crc data => Sys2Proof.Machine.execEncode id command len crc data s
  | .decode frame => Sys2Proof.Machine.execDecode frame s
  | .write command len data => Sys2Proof.Machine.execWrite command len data s
  | .read => Sys2Proof.Machine.execRead s

end Sys2Proof.Machine
end

