-- ==== Sys2Proof/Machine/HostPort.lean ====
section
/-! DEFINITION. What the host's acts do: `start`, the write of `DEVID`, `rst` (30_encoding.md R71, 10_state.md R19,
60_exceptions.md R181, R182, 70_reset_and_hazards.md R200, R201). -/

namespace Sys2Proof.Machine

/-- `start` with a request bundle. A reserved word is refused by the block (30_encoding.md R75); a legal one runs its
instruction, whose meaning refuses it while `BUSY = 1`. Only an idle block reads the operands (70_reset_and_hazards.md R219),
so only then does the model refuse a bundle that R72 does not admit. -/
def hostStart (r : Request) (s : State) : Host.Outcome State Fault Refusal :=
  match decode r with
  | none => .next (reject s)
  | some i => if s.busy || i.wf s.cfg then exec i s else .refused .malformedRequest

/-- The host's write of `DEVID`: refused while `BUSY = 1` (10_state.md R19, 60_exceptions.md R182). -/
def hostSetDevId (v : Byte) (s : State) : State :=
  if s.busy then reject s else { s with devid := v }

/-- `rst`: every item of R10 takes its reset value, the operation in flight is abandoned without `finish`; the environment and
what was already handed to it are not touched (70_reset_and_hazards.md R200 to R202). -/
def hostReset (s : State) : State :=
  { State.resetOf s.cfg with
    host := s.host
    tpWrites := s.tpWrites
    tpReads := s.tpReads
    ticks := s.ticks
    calls := s.calls }

/-- The state in which the next host act is taken off the list and the one-shot `cmd_reject` is down again. -/
def nextAct (s : State) : State := { s with host := s.host.tail, cmdReject := false }

/-- One step's time: the host's act if it makes one, else the running operation goes on (log entry 3). -/
def hostStep (s : State) : Host.Outcome State Fault Refusal :=
  match s.host with
  | [] => .next (advance (nextAct s))
  | .wait :: _ => .next (advance (nextAct s))
  | .start r :: _ => hostStart r (nextAct s)
  | .setDevId v :: _ => .next (hostSetDevId v (nextAct s))
  | .rst :: _ => .next (hostReset (nextAct s))

/-- The host's write of `DEVID` as 30_encoding.md R78 writes it. -/
def setIdText (v : Byte) : String := "SETID " ++ hexByte v

/-- Puts `start` with the command word `w`, operand fields 0, as the host's next act. -/
def presentWord (w : Nat) (s : State) : State :=
  { s with host := .start (tableRequest w) :: s.host }

end Sys2Proof.Machine
end

