-- ==== Sys2Proof/Machine/Step.lean ====
section
/-! DEFINITION. One step of the machine, and where its next instruction comes from: the host's next act. -/

namespace Sys2Proof.Machine

/-- One step. Parameters that break 00_scope.md R7 are refused: "a model refuses it". -/
def step (s : State) : Host.Outcome State Fault Refusal :=
  if s.cfg.Valid then hostStep s else .refused .invalidParameters

/-- The command word `w` of `nbits` bits presented with `start` as the host's next act, every operand field 0. -/
def State.withFetchWord (s : State) (nbits w : Nat) : State :=
  presentWord (w % 2 ^ nbits) s

end Sys2Proof.Machine
end

