-- ==== Sys2Proof/Safety.lean ====
section
/-! DEFINITION. The terms claims are written in: the bytes of a frame on the wire, what a good frame is, the state an
operation ends in, and the invariant of the machine. -/

namespace Sys2Proof.Machine

/-- The host makes no act in this step, so the running operation goes on. -/
abbrev Quiet (s : State) : Prop := s.host.headD .wait = .wait

/-- The host makes no act at all in the steps these entries stand for. -/
abbrev AllWait (acts : List HostAct) : Prop := ∀ a ∈ acts, a = .wait

/-- `data` holds exactly the `req_len` bytes `bytes`, or is absent with `req_len = 0` (30_encoding.md R72). -/
abbrev Supplies (data : Operand) (len : Half) (bytes : List Byte) : Prop :=
  bytes.length = len.toNat ∧ (data = some bytes ∨ (data = none ∧ bytes = []))

/-- Frame bytes 0 to `F − 3`: header, payload, zero padding (30_encoding.md R60, R67). -/
def wireSpan (c : Config) (id command : Byte) (payload : List Byte) : List Byte :=
  [id, command, BitVec.ofNat 8 payload.length] ++ payload ++ List.replicate (c.maxp - payload.length) 0#8

/-- The `F` bytes of a frame the block transmits: the span and its checksum, low byte first (30_encoding.md R60, R66, R67). -/
def wireFrame (c : Config) (id command : Byte) (payload : List Byte) : List Byte :=
  let crc := (crc16 c.crcPoly (wireSpan c id command payload)).toNat
  wireSpan c id command payload ++ [BitVec.ofNat 8 (crc % 256), BitVec.ofNat 8 (crc / 256)]

/-- The checksum field of a received frame, `(B[F−1] << 8) OR B[F−2]`, as a number (30_encoding.md R77). -/
def crcField (c : Config) (b : List Byte) : Nat :=
  (b.getD (c.F - 1) 0#8).toNat * 256 + (b.getD (c.F - 2) 0#8).toNat

/-- The CRC field is the checksum of bytes 0 to `F − 3` (41_framer.md R109, R111). -/
abbrev CrcMatches (c : Config) (b : List Byte) : Prop :=
  crcField c b = (crc16 c.crcPoly (b.take (c.F - 2))).toNat

/-- A received sequence that is a frame, has a legal `length` byte and a matching checksum (30_encoding.md R68). -/
abbrev GoodFrame (c : Config) (b : List Byte) : Prop :=
  b.length = c.F ∧ (b.getD 2 0#8).toNat ≤ c.maxp ∧ CrcMatches c b

/-- The state in which an operation has ended with kind `k` and result `r` (60_exceptions.md R176): idle, working state zero,
everything else as before. -/
def ended (k : Kind) (r : ResultRegs) (s : State) : State :=
  { s with
    res := r
    work := Work.zero
    fsm := .idle
    status := k
    busy := false
    done := true
    label := .none }

/-- The state after a noise reply or a valid NACK left the working state `w` (42_sender.md R132): the frame is transmitted again
while `CONT < MAX_ATTEMPTS`; else `CONT` is incremented and the loop goes on. -/
def resent (w : Work) (s : State) : State :=
  if w.cont.toNat < s.cfg.maxAttempts then
    { s with work := w, fsm := .txSent, label := .w8, calls := s.calls ++ [.tpWrite (frameBytes s.cfg w.txf)] }
  else
    { s with work := { w with cont := w.cont + 1#8 }, label := .w5, calls := s.calls ++ [.clkNow] }

/-- `n` steps lead from `s` to `t`: each answers a next state. -/
def After : Nat → State → State → Prop
  | 0, s, t => s = t
  | n + 1, s, t => ∃ u, step s = .next u ∧ After n u t

/-- An environment that answers every call: the endless sequences of its answers to `TpWrite`, `TpRead` and `ClkNow`
(00_scope.md R9, 93_implementation_defined.md E1 to E3). Not part of the state. -/
structure Environment where
  writes : Nat → WriteAnswer
  reads : Nat → ReadAnswer
  clock : Nat → Tick

/-- `s` with the first `m` answers of each kind that `e` gives still to come. -/
def answeredBy (e : Environment) (m : Nat) (s : State) : State :=
  setTpWrites ((List.range m).map e.writes)
    (setTpReads ((List.range m).map e.reads) (setTicks ((List.range m).map e.clock) s))

/-- An answer of `TpRead` that is a good frame with the command `code`. -/
abbrev IsReply (c : Config) (code : Byte) (a : ReadAnswer) : Prop :=
  ∃ b, a = .bytes b ∧ GoodFrame c b ∧ b.getD 1 0#8 = code

/-- The clock assumption of 42_sender.md R137 (92_eei_decisions.md D35): some `ClkNow` answer after `START`, the `k`-th, has
`el > BUDGET`. `clock 0` is `START`; at most `k − 1` reads come before the guard that takes `clock k`, and `BUDGET` is
`MAX_ACK_WAIT`, or that and `RETRY_INTERVAL` once one of them was a valid NACK (R130). -/
def ClockPassesBudget (c : Config) (e : Environment) (k : Nat) : Prop :=
  1 ≤ k ∧ c.maxAckWait < (e.clock k - e.clock 0).toNat ∧
  ((∃ j, j + 1 < k ∧ IsReply c c.nackCode (e.reads j)) →
    c.maxAckWait + c.retryInterval < (e.clock k - e.clock 0).toNat)

/-- Two instances hold the same registers and stand at the same point, `STATUS` of an earlier operation apart. -/
abbrev SameOperation (s s' : State) : Prop :=
  s.cfg = s'.cfg ∧ s.devid = s'.devid ∧ s.work = s'.work ∧ s.res = s'.res ∧ s.fsm = s'.fsm ∧
  s.busy = s'.busy ∧ s.done = s'.done ∧ s.label = s'.label

/-- The environment has the same answers still to give. -/
abbrev SameAnswers (s s' : State) : Prop :=
  s.tpWrites = s'.tpWrites ∧ s.tpReads = s'.tpReads ∧ s.ticks = s'.ticks

/-- How many frames a list of calls hands to the transport. -/
def writesIn (calls : List Call) : Nat :=
  calls.countP (fun c => match c with
    | .tpWrite _ => true
    | _ => false)

/-- The value of `FSM` at each point between two steps (10_state.md R20, 42_sender.md R140, 43_receiver.md R162). -/
def Label.fsm : Label → Fsm
  | .none | .rd2 => .idle
  | .w3 | .w8 => .txSent
  | .w4 | .w5 | .w6 => .txAwait
  | .rd3 | .rd3Nack | .rd5Nack | .rd6 => .rxAwait

/-- The wait loop of WRITE, once `W4` has set it up. -/
def Label.inLoop : Label → Bool
  | .w5 | .w6 | .w8 => true
  | _ => false

/-- WRITE is running. -/
def Label.inWrite : Label → Bool
  | .w3 | .w4 | .w5 | .w6 | .w8 => true
  | _ => false

/-- A buffer of capacity `n` in canonical form (20_memory.md R41: no offset at or above the capacity). -/
abbrev Memory.Fits (n : Nat) (m : Memory) : Prop := m.wf ∧ m.within n

/-- A packet register group: `length <= MAXP`, and the payload bytes from `length` on are 0 (10_state.md R12, R13). -/
abbrev Packet.Fits (c : Config) (p : Packet) : Prop :=
  p.length.toNat ≤ c.maxp ∧ Memory.Fits p.length.toNat p.payload

/-- Buffers and packet groups stay within their capacities. -/
abbrev BuffersOk (s : State) : Prop :=
  Memory.Fits s.cfg.F s.work.txf ∧ Memory.Fits s.cfg.F s.work.rxf ∧ Memory.Fits s.cfg.F s.res.frame ∧
  Packet.Fits s.cfg s.work.txp ∧ Packet.Fits s.cfg s.work.rxp ∧ Packet.Fits s.cfg s.res.packet

/-- `FSM`, `BUSY` and `DONE` agree with the continuation label (10_state.md R20, R26). -/
abbrev ControlOk (s : State) : Prop :=
  s.fsm = s.label.fsm ∧ (s.busy = true ↔ s.label ≠ .none) ∧ (s.busy = true → s.done = false)

/-- The zero-state invariant (10_state.md R29); `RES` is zero while an operation runs and after one that failed (R18). -/
abbrev ClearedOk (s : State) : Prop :=
  (s.busy = false → s.work = Work.zero) ∧ (s.busy = true → s.res = ResultRegs.zero) ∧
  (s.status ≠ .ok → s.res = ResultRegs.zero)

/-- The sender's counters: `CONT` at most `MAX_ATTEMPTS + 1` (10_state.md R22), `BUDGET` as loaded or once extended (R24), all zero
outside the wait loop; `ACKED` is set only in the step that ends the WRITE (R25). -/
abbrev LoopOk (s : State) : Prop :=
  s.work.acked = false ∧
  s.work.cont.toNat ≤ s.cfg.maxAttempts + 1 ∧
  (s.label = .w6 → s.work.cont.toNat ≤ s.cfg.maxAttempts) ∧
  (s.label = .w8 → s.work.cont.toNat < s.cfg.maxAttempts) ∧
  (s.label.inLoop = true → s.work.budget.toNat =
    s.cfg.maxAckWait + (if s.work.ext then s.cfg.retryInterval else 0)) ∧
  (s.label.inLoop = false →
    s.work.cont = 0#8 ∧ s.work.start = 0#32 ∧ s.work.budget = 0#32 ∧ s.work.ext = false)

/-- The frame in `TXF`: the data frame of the WRITE, or the reply frame of the READ, stamped with `DEVID` (30_encoding.md R67). -/
abbrev TransmitOk (s : State) : Prop :=
  (s.label.inWrite = true → s.work.txp.id = s.devid ∧
    frameBytes s.cfg s.work.txf = wireFrame s.cfg s.devid s.work.txp.command
      (Memory.readBytes s.work.txp.payload 0 s.work.txp.length.toNat)) ∧
  (s.label = .rd2 → s.work = Work.zero) ∧
  ((s.label = .rd3 ∨ s.label = .rd3Nack ∨ s.label = .rd5Nack) →
    s.work.txp.id = s.devid ∧ s.work.txp.length = 0#8 ∧ s.work.txp.payload = [] ∧
    frameBytes s.cfg s.work.txf = wireFrame s.cfg s.devid s.cfg.nackCode []) ∧
  (s.label = .rd6 → frameBytes s.cfg s.work.txf = wireFrame s.cfg s.devid s.cfg.ackCode [])

/-- `RXP` is what `Dec(RXF)` gives (41_framer.md R105); a Packet about to be delivered has passed READ's checks (43_receiver.md
R154, R156). -/
abbrev ReceiveOk (s : State) : Prop :=
  s.work.rxp = (dec s.cfg s.work.rxf).getD Packet.zero ∧
  (s.label = .rd6 → frameCrcOk s.cfg s.work.rxf = true ∧ s.cfg.minLen ≤ s.work.rxp.length)

/-- The invariant of the machine. -/
def Invariant (s : State) : Prop :=
  s.cfg.Valid ∧ BuffersOk s ∧ ControlOk s ∧ ClearedOk s ∧ LoopOk s ∧ TransmitOk s ∧ ReceiveOk s

end Sys2Proof.Machine
end

