-- ==== Sys2Proof/Certificates/Slice0/Obligations.lean ====
section
/-! DEFINITION. The statements for the provers. Each docstring says which rule of spec/ the statement formalises. -/

open Sys2Proof Sys2Proof.Machine

/-! ### Reset, parameters, host port -/

/-- 10_state.md R33: every item of R10 is zero after reset, `DEVID` holds `DEVID_RESET`; a cleared buffer reads 0 everywhere. -/
def Obligations.ResetLeavesEveryItemZero : Prop :=
  (∀ c : Config, ∃ s, s = State.resetOf c ∧
    s.work.txp = ⟨0#8, 0#8, 0#8, [], 0#16⟩ ∧ s.work.rxp = ⟨0#8, 0#8, 0#8, [], 0#16⟩ ∧
    s.work.txf = [] ∧ s.work.rxf = [] ∧ s.work.cont = 0#8 ∧ s.work.start = 0#32 ∧ s.work.budget = 0#32 ∧
    s.work.acked = false ∧ s.work.ext = false ∧
    s.res.crc16 = 0#16 ∧ s.res.packet = ⟨0#8, 0#8, 0#8, [], 0#16⟩ ∧ s.res.frame = [] ∧
    s.fsm = .idle ∧ s.status = .ok ∧ s.busy = false ∧ s.done = false ∧ s.devid = c.devidReset) ∧
  (∀ a, Memory.read [] a = 0#8) ∧
  State.reset = State.resetOf Config.default

/-- 70_reset_and_hazards.md R200 to R202: `rst` at any time gives every item of R10 its reset value (so no operation is in flight,
`DONE` is 0 and no status is reported), and leaves alone the calls already made and what the environment will answer. -/
def Obligations.RstAbandonsAnyOperation : Prop :=
  ∀ (s : State) (rest : List HostAct), s.cfg.Valid → s.host = .rst :: rest →
    step s = .next { State.resetOf s.cfg with
      host := rest, tpWrites := s.tpWrites, tpReads := s.tpReads, ticks := s.ticks, calls := s.calls }

/-- 00_scope.md R7: a parameter set that breaks a constraint is refused, whatever the host does. -/
def Obligations.BrokenParametersAreRefused : Prop :=
  ∀ s : State,
    ¬(5 ≤ s.cfg.F ∧ s.cfg.F ≤ 260 ∧ s.cfg.nackCode ≠ s.cfg.ackCode ∧ s.cfg.maxAttempts ≤ 254 ∧
      s.cfg.maxAckWait + s.cfg.retryInterval < 2 ^ 32 ∧
      (s.cfg.maxAttempts + 1) * s.cfg.retryInterval < 2 ^ 32 ∧ s.cfg.minLen.toNat ≤ s.cfg.F - 5 + 1) →
    step s = .refused .invalidParameters

/-- A step with a `start` runs the decoded instruction on the state whose next host act is taken off (and whose one-shot
`cmd_reject` is down); `withFetchWord` presents exactly the table word's instruction. -/
def Obligations.StepRunsDecodedInstruction : Prop :=
  (∀ (s : State) (r : Request) (rest : List HostAct) (i : Instr), s.cfg.Valid → s.host = .start r :: rest →
    decode r = some i → (s.busy = true ∨ i.wf s.cfg = true) →
    step s = exec i { s with host := rest, cmdReject := false }) ∧
  (∀ (s : State) (w : Nat) (i : Instr), s.cfg.Valid → decodeTableWord 8 w = some i → i.wf s.cfg = true →
    step (s.withFetchWord 8 w) = exec i { s with cmdReject := false })

/-- 60_exceptions.md R182: a `start` while `BUSY = 1` (with any bundle), a reserved command word, and a write of `DEVID` while
`BUSY = 1` change nothing but the one-shot `cmd_reject`; and no instruction's meaning runs while `BUSY = 1`. -/
def Obligations.RefusalsChangeNothing : Prop :=
  (∀ (s : State) (r : Request) (rest : List HostAct), s.cfg.Valid → s.host = .start r :: rest → s.busy = true →
    step s = .next { s with host := rest, cmdReject := true }) ∧
  (∀ (s : State) (r : Request) (rest : List HostAct), s.cfg.Valid → s.host = .start r :: rest →
    (r.op.toNat = 0 ∨ 6 ≤ r.op.toNat) → step s = .next { s with host := rest, cmdReject := true }) ∧
  (∀ (s : State) (v : Byte) (rest : List HostAct), s.cfg.Valid → s.host = .setDevId v :: rest → s.busy = true →
    step s = .next { s with host := rest, cmdReject := true }) ∧
  (∀ (i : Instr) (s : State), s.busy = true → exec i s = .next { s with cmdReject := true })

/-- 10_state.md R19: the host's write of `DEVID` while `BUSY = 0` writes it, and nothing else changes. -/
def Obligations.HostWritesDevIdWhileIdle : Prop :=
  ∀ (s : State) (v : Byte) (rest : List HostAct), s.cfg.Valid → s.host = .setDevId v :: rest → s.busy = false →
    step s = .next { s with devid := v, host := rest, cmdReject := false }

/-- An idle block does nothing until the host acts (70_reset_and_hazards.md R200), and a block whose pending call has no answer yet
goes on waiting in the same state (60_exceptions.md R196; the model's choice of log entry 5). -/
def Obligations.WaitingChangesNothing : Prop :=
  ∀ s : State, s.cfg.Valid → Quiet s →
    (s.label = .none ∨
      (s.label ∈ [Label.w3, .w8, .rd3Nack, .rd5Nack, .rd6] ∧ s.tpWrites = []) ∨
      (s.label ∈ [Label.w6, .rd3] ∧ s.tpReads = []) ∨ (s.label ∈ [Label.w4, .w5] ∧ s.ticks = [])) →
    step s = .next { s with host := s.host.tail, cmdReject := false }

/-- 10_state.md section 5, R20, R21, R25, R26, 30_encoding.md R76, 60_exceptions.md R179: the fields of `FLAGS`, `STATUS` and
`SFLAGS`, the codes, the interrupt output, and which registers the host can read. -/
def Obligations.RegisterFieldsAndCodes : Prop :=
  (∀ s : State,
    s.flagsReg.getLsbD 0 = s.busy ∧ s.flagsReg.getLsbD 1 = s.done ∧
    s.flagsReg.extractLsb' 2 2 = s.fsm.code ∧ s.flagsReg.extractLsb' 4 4 = 0#4 ∧
    s.statusReg.extractLsb' 0 3 = s.status.code ∧ s.statusReg.extractLsb' 3 5 = 0#5 ∧
    s.sflagsReg.getLsbD 0 = s.work.acked ∧ s.sflagsReg.getLsbD 1 = s.work.ext ∧
    s.sflagsReg.extractLsb' 2 6 = 0#6 ∧ s.irqDone = s.done ∧
    CtrlReg.devid.hostRead s = some (s.devid.setWidth 32) ∧
    CtrlReg.status.hostRead s = some (s.statusReg.setWidth 32) ∧
    CtrlReg.flags.hostRead s = some (s.flagsReg.setWidth 32) ∧
    CtrlReg.cont.hostRead s = none ∧ CtrlReg.start.hostRead s = none ∧
    CtrlReg.budget.hostRead s = none ∧ CtrlReg.sflags.hostRead s = none) ∧
  [Kind.ok, .lengthError, .invalidArgument, .crcError, .ackTimeout, .noData, .ioError].map Kind.code =
    [0#3, 1#3, 2#3, 3#3, 4#3, 5#3, 6#3] ∧
  [Fsm.idle, .txSent, .txAwait, .rxAwait].map Fsm.code = [0#2, 1#2, 2#2, 3#2]

/-! ### Encodings -/

/-- 30_encoding.md R71: the five command words select the five operations; a row of the opcode table is decoded with its operand
fields 0. -/
def Obligations.CommandWordsOfTheTable : Prop :=
  decodeTableWord 8 0x01 = some (.crc16 0#16 none) ∧
  decodeTableWord 8 0x02 = some (.encode 0#8 0#8 0#16 0#16 none) ∧
  decodeTableWord 8 0x03 = some (.decode none) ∧
  decodeTableWord 8 0x04 = some (.write 0#8 0#16 none) ∧
  decodeTableWord 8 0x05 = some .read ∧
  decodeTableWord 8 0x00 = none ∧ decodeTableWord 8 0x06 = none ∧ decodeTableWord 8 0x81 = none

/-- 30_encoding.md R71, R75: a command word is reserved exactly when its bits 7:3 are not 0 or its `op` is 0, 6 or 7, whatever the
other fields of the bundle hold. -/
def Obligations.ReservedWordsExactly : Prop :=
  ∀ r : Request, decode r = none ↔
    (r.op.extractLsb' 3 5 ≠ 0#5 ∨ r.op.extractLsb' 0 3 = 0#3 ∨ r.op.extractLsb' 0 3 = 6#3 ∨
      r.op.extractLsb' 0 3 = 7#3)

/-- Decode and encode agree on every instruction, and every bundle means the same as the bundle of its instruction, whose unused
fields are 0 (30_encoding.md R71, R72, R74, R78). -/
def Obligations.DecodeEncodeRoundTrip : Prop :=
  (∀ i : Instr, decode (encode i) = some i) ∧
  (∀ (r : Request) (i : Instr), decode r = some i →
    (encode i).op = r.op ∧ ((encode i).id = r.id ∨ (encode i).id = 0#8) ∧
    ((encode i).command = r.command ∨ (encode i).command = 0#8) ∧
    ((encode i).len = r.len ∨ (encode i).len = 0#16) ∧ ((encode i).crc = r.crc ∨ (encode i).crc = 0#16) ∧
    (i = .read ∨ ((encode i).present = r.present ∧ (r.present = true → (encode i).data = r.data))))

/-! ### The CRC-16 engine -/

/-- 40_crc16.md R93, R98: the empty sequence gives 0xFFFF, and the value for `s` followed by `t` continues the fold of `Step` over
`t` from `Crc16(s)`. -/
def Obligations.CrcEmptyAndIncremental : Prop :=
  ∀ poly : Half, crc16 poly [] = 0xFFFF#16 ∧
    ∀ s t : List Byte, crc16 poly (s ++ t) = t.foldl (crcStep poly) (crc16 poly s)

/-- 40_crc16.md R91, R92: the XOR of a byte changes only `c[7:0]`; the bit step tests `c[0]`, shifts logically and then XORs the
constant; a byte takes exactly 8 bit steps. -/
def Obligations.CrcByteAndBitSteps : Prop :=
  ∀ (poly c : Half) (b : Byte),
    (c ^^^ b.setWidth 16).extractLsb' 8 8 = c.extractLsb' 8 8 ∧
    (c ^^^ b.setWidth 16).extractLsb' 0 8 = c.extractLsb' 0 8 ^^^ b ∧
    (c.toNat % 2 = 1 → crcBit poly c = BitVec.ofNat 16 (c.toNat / 2) ^^^ poly) ∧
    (c.toNat % 2 = 0 → crcBit poly c = BitVec.ofNat 16 (c.toNat / 2)) ∧
    crcStep poly c b = (crcBit poly)^[8] (c ^^^ b.setWidth 16)

/-- A consequence of 40_crc16.md R90 for every constant whose bit 15 is 1 (the default 0xBFA5 is one): changing one byte of a
sequence changes its checksum, so a single corrupted byte in the checked span never passes as good. -/
def Obligations.CrcDetectsOneChangedByte : Prop :=
  ∀ poly : Half, poly.getLsbD 15 = true → ∀ (p q : List Byte) (b b' : Byte), b ≠ b' →
    crc16 poly (p ++ b :: q) ≠ crc16 poly (p ++ b' :: q)

/-- 40_crc16.md R94: CRC16 over a present operand of `req_len` bytes ends with `Ok` and the checksum in `RES.crc16`, all else of
`RES` zero, working state zero, nothing else changed. -/
def Obligations.Crc16GivesChecksum : Prop :=
  ∀ (s : State) (len : Half) (bytes : List Byte), s.busy = false → bytes.length = len.toNat →
    exec (.crc16 len (some bytes)) s =
      .next (ended .ok { ResultRegs.zero with crc16 := crc16 s.cfg.crcPoly bytes } s)

/-- 40_crc16.md R95: an absent buffer with a nonzero length ends with `InvalidArgument` and `RES` zero. -/
def Obligations.Crc16AbsentBufferIsInvalid : Prop :=
  ∀ (s : State) (len : Half), s.busy = false → len ≠ 0#16 →
    exec (.crc16 len none) s = .next (ended .invalidArgument ResultRegs.zero s)

/-- 40_crc16.md R96: with `req_len = 0` the operation succeeds with 0xFFFF for either value of `req_present`. -/
def Obligations.Crc16OfNoBytes : Prop :=
  ∀ (s : State) (data : Operand), s.busy = false → (data = none ∨ data = some []) →
    exec (.crc16 0#16 data) s = .next (ended .ok { ResultRegs.zero with crc16 := 0xFFFF#16 } s)

/-! ### The framer -/

/-- 41_framer.md R103, R101, R102, 30_encoding.md R60: ENCODE gives the frame byte for byte: header, payload, zero padding, the
given CRC low byte first (0 writes zeros); working state zero, nothing else changed. -/
def Obligations.EncodeGivesFrame : Prop :=
  ∀ (s : State) (id command : Byte) (len crc : Half) (data : Operand) (bytes : List Byte), s.cfg.Valid →
    s.busy = false → Supplies data len bytes → len.toNat ≤ s.cfg.maxp →
    ∃ f, exec (.encode id command len crc data) s = .next (ended .ok { ResultRegs.zero with frame := f } s) ∧
      Memory.Fits s.cfg.F f ∧
      Memory.readBytes f 0 s.cfg.F =
        wireSpan s.cfg id command bytes ++ [BitVec.ofNat 8 (crc.toNat % 256), BitVec.ofNat 8 (crc.toNat / 256)]

/-- 41_framer.md R104: `req_len > MAXP` is `LengthError`, checked first; then absent data with `req_len > 0` is
`InvalidArgument`; `RES` is zero; `req_len = MAXP` with data succeeds. -/
def Obligations.EncodeErrorsInOrder : Prop :=
  ∀ (s : State) (id command : Byte) (len crc : Half), s.busy = false →
    (s.cfg.maxp < len.toNat → ∀ data : Operand,
      exec (.encode id command len crc data) s = .next (ended .lengthError ResultRegs.zero s)) ∧
    (0 < len.toNat → len.toNat ≤ s.cfg.maxp →
      exec (.encode id command len crc none) s = .next (ended .invalidArgument ResultRegs.zero s)) ∧
    (len.toNat = s.cfg.maxp → ∀ bytes : List Byte, bytes.length = s.cfg.maxp →
      ∃ r, exec (.encode id command len crc (some bytes)) s = .next (ended .ok r s))

/-- 41_framer.md R105, R107, R108: DECODE of a frame with a legal `length` byte delivers the Packet, whatever its checksum; payload
bytes from `length` on are 0, so padding is not copied. -/
def Obligations.DecodeGivesPacket : Prop :=
  ∀ (s : State) (b : List Byte), s.cfg.Valid → s.busy = false → b.length = s.cfg.F →
    (b.getD 2 0#8).toNat ≤ s.cfg.maxp →
    ∃ p : Packet, exec (.decode (some b)) s = .next (ended .ok { ResultRegs.zero with packet := p } s) ∧
      p.id = b.getD 0 0#8 ∧ p.command = b.getD 1 0#8 ∧ p.length = b.getD 2 0#8 ∧
      p.crc.toNat = crcField s.cfg b ∧ Memory.Fits s.cfg.maxp p.payload ∧
      Memory.readBytes p.payload 0 s.cfg.maxp =
        (b.drop 3).take p.length.toNat ++ List.replicate (s.cfg.maxp - p.length.toNat) 0#8

/-- 41_framer.md R106, R108: an absent frame is `InvalidArgument`, a `length` byte above `MAXP` is `LengthError`; `RES` is zero. -/
def Obligations.DecodeErrors : Prop :=
  ∀ s : State, s.busy = false →
    exec (.decode none) s = .next (ended .invalidArgument ResultRegs.zero s) ∧
    (s.cfg.Valid → ∀ b : List Byte, b.length = s.cfg.F → s.cfg.maxp < (b.getD 2 0#8).toNat →
      exec (.decode (some b)) s = .next (ended .lengthError ResultRegs.zero s))

/-- 41_framer.md R112: a Packet with a legal length encoded into an all-zero buffer decodes to itself, `crc = 0` included. -/
def Obligations.PacketRoundTrip : Prop :=
  ∀ (c : Config) (p : Packet), c.Valid → p.length.toNat ≤ c.maxp →
    ∃ q, dec c (enc c [] p) = some q ∧ q.id = p.id ∧ q.command = p.command ∧ q.length = p.length ∧ q.crc = p.crc ∧
      (∀ i < p.length.toNat, Memory.read q.payload i = Memory.read p.payload i) ∧
      (∀ i ≥ p.length.toNat, Memory.read q.payload i = 0#8)

/-- The same law at the operations (95_test_vectors.md T2): DECODE of the frame ENCODE left in `RES` delivers the encoded id,
command, length, payload and crc. -/
def Obligations.EncodeThenDecode : Prop :=
  ∀ (s : State) (id command : Byte) (len crc : Half) (data : Operand) (bytes : List Byte), s.cfg.Valid →
    s.busy = false → Supplies data len bytes → len.toNat ≤ s.cfg.maxp →
    ∃ t u, exec (.encode id command len crc data) s = .next t ∧
      exec (.decode (some (Memory.readBytes t.res.frame 0 s.cfg.F))) t = .next u ∧
      u.status = .ok ∧ u.res.packet.id = id ∧ u.res.packet.command = command ∧
      u.res.packet.length.toNat = len.toNat ∧ u.res.packet.crc = crc ∧
      Memory.readBytes u.res.packet.payload 0 len.toNat = bytes

/-- 41_framer.md R100, R101, R102: `Enc` leaves padding as it was, and the CRC bytes too when `P.crc = 0`; when it is not 0 they are
its low and high byte. -/
def Obligations.EncLeavesPaddingAndZeroCrc : Prop :=
  ∀ (c : Config) (b : Memory) (p : Packet), c.Valid → b.wf → p.length.toNat ≤ c.maxp →
    (∀ a, 3 + p.length.toNat ≤ a → a ≤ c.F - 3 → Memory.read (enc c b p) a = Memory.read b a) ∧
    (p.crc = 0#16 → Memory.read (enc c b p) (c.F - 2) = Memory.read b (c.F - 2) ∧
      Memory.read (enc c b p) (c.F - 1) = Memory.read b (c.F - 1)) ∧
    (p.crc ≠ 0#16 → (Memory.read (enc c b p) (c.F - 2)).toNat = p.crc.toNat % 256 ∧
      (Memory.read (enc c b p) (c.F - 1)).toNat = p.crc.toNat / 256)

/-- 41_framer.md R113: every frame `BuildFrame` leaves in `TXF` satisfies `FrameCrcOk`, also when the checksum is 0x0000. -/
def Obligations.BuiltFramePassesCheck : Prop :=
  ∀ (c : Config) (w : Work), c.Valid → w.txf.wf → w.txp.length.toNat ≤ c.maxp →
    frameCrcOk c (buildFrame c w).txf = true

/-- 41_framer.md R110 (its third line) and 43_receiver.md R158: the ACK frame built over the NACK frame is the ACK frame built in a
cleared buffer, also when its checksum is 0x0000. -/
def Obligations.AckOverNackIsFresh : Prop :=
  ∀ (c : Config) (devid : Byte), c.Valid → ∃ w v,
    w = buildFrame c { Work.zero with txp := replyPacket devid c.nackCode } ∧
    v = buildFrame c { w with txp := { w.txp with command := c.ackCode } } ∧
    v.txf = (buildFrame c { Work.zero with txp := replyPacket devid c.ackCode }).txf ∧
    frameBytes c v.txf = wireFrame c devid c.ackCode []

/-! ### Acceptance and completion -/

/-- 60_exceptions.md R181 (what acceptance does): `BUSY` 1, `DONE` 0, `RES` and all working state zero, `STATUS` and all else as
before. -/
def Obligations.AcceptClearsWorkingState : Prop :=
  ∀ s : State, accept s = { s with
    busy := true
    done := false
    res := ⟨0#16, ⟨0#8, 0#8, 0#8, [], 0#16⟩, []⟩
    work := ⟨⟨0#8, 0#8, 0#8, [], 0#16⟩, ⟨0#8, 0#8, 0#8, [], 0#16⟩, [], [], 0#8, 0#32, 0#32, false, false⟩ }

/-- 60_exceptions.md R176: `finish(k)` clears `RES` unless `k = Ok`, clears all working state, makes the block idle, writes `STATUS`,
drops `BUSY`, sets `DONE`, and touches nothing else. -/
def Obligations.FinishEndsOperation : Prop :=
  ∀ (k : Kind) (s : State), finish k s = { s with
    res := if k = .ok then s.res else ⟨0#16, ⟨0#8, 0#8, 0#8, [], 0#16⟩, []⟩
    work := ⟨⟨0#8, 0#8, 0#8, [], 0#16⟩, ⟨0#8, 0#8, 0#8, [], 0#16⟩, [], [], 0#8, 0#32, 0#32, false, false⟩
    fsm := .idle
    status := k
    busy := false
    done := true
    label := .none }

/-- 10_state.md R29, 42_sender.md R139: what an operation does does not depend on any earlier one. Two idle instances with the same
parameters and `DEVID` accept a command with the same working state, results and calls (and the same `FSM`, which is idle on
both in every state that meets the invariant; and the same `STATUS` where the operation ends at once); and each later step of
the running operation, under the same answers of the environment, keeps all that equal, to the same `STATUS` at its end. -/
def Obligations.OperationsForgetThePast : Prop :=
  (∀ (i : Instr) (s s' : State), s.cfg = s'.cfg → s.devid = s'.devid → s.busy = false → s'.busy = false →
    ∃ t t' new, exec i s = .next t ∧ exec i s' = .next t' ∧ t.cfg = t'.cfg ∧ t.devid = t'.devid ∧
      t.work = t'.work ∧ t.res = t'.res ∧ t.busy = t'.busy ∧ t.done = t'.done ∧ t.label = t'.label ∧
      (s.fsm = s'.fsm → t.fsm = t'.fsm) ∧ (t.busy = false → t.status = t'.status) ∧
      (SameAnswers s s' → SameAnswers t t') ∧ t.calls = s.calls ++ new ∧ t'.calls = s'.calls ++ new) ∧
  (∀ s : State, Invariant s → s.busy = false → s.fsm = .idle) ∧
  (∀ s s' : State, s.cfg.Valid → Quiet s → Quiet s' → SameOperation s s' → SameAnswers s s' → s.busy = true →
    ∃ t t' new, step s = .next t ∧ step s' = .next t' ∧ SameOperation t t' ∧ SameAnswers t t' ∧
      (t.busy = false → t.status = t'.status) ∧ t.calls = s.calls ++ new ∧ t'.calls = s'.calls ++ new)

/-! ### The sender -/

/-- 42_sender.md R120 (`W1` to `W3`), R122, R123: WRITE with legal arguments hands exactly the data frame of 30_encoding.md R67 to the
transport and waits in `TX_SENT`; `TXP` holds its Packet, the receive side is clear, `STATUS` still the old kind. -/
def Obligations.WriteTransmitsDataFrame : Prop :=
  ∀ (s : State) (command : Byte) (len : Half) (data : Operand) (bytes : List Byte), s.cfg.Valid → s.busy = false →
    Supplies data len bytes → len.toNat ≤ s.cfg.maxp →
    ∃ w : Work, exec (.write command len data) s = .next { s with
        busy := true, done := false, res := ResultRegs.zero, work := w, fsm := .txSent, label := .w3
        calls := s.calls ++ [.tpWrite (wireFrame s.cfg s.devid command bytes)] } ∧
      frameBytes s.cfg w.txf = wireFrame s.cfg s.devid command bytes ∧
      w.txp.id = s.devid ∧ w.txp.command = command ∧ w.txp.length.toNat = len.toNat ∧
      Memory.readBytes w.txp.payload 0 len.toNat = bytes ∧
      w.rxp = Packet.zero ∧ w.rxf = [] ∧ w.cont = 0#8 ∧ w.start = 0#32 ∧ w.budget = 0#32 ∧
      w.acked = false ∧ w.ext = false

/-- 42_sender.md R121: the argument checks, in order; nothing is transmitted and the environment is not called. -/
def Obligations.WriteArgumentErrors : Prop :=
  ∀ (s : State) (command : Byte) (len : Half), s.busy = false →
    (s.cfg.maxp < len.toNat → ∀ data : Operand,
      exec (.write command len data) s = .next (ended .lengthError ResultRegs.zero s)) ∧
    (0 < len.toNat → len.toNat ≤ s.cfg.maxp →
      exec (.write command len none) s = .next (ended .invalidArgument ResultRegs.zero s))

/-- 42_sender.md R123, R124 (`W3`): when the first `TpWrite` returns `ok` the block enters `TX_AWAIT` and reads the clock; on `IoError`
the operation ends at once. -/
def Obligations.FirstTransmissionAnswered : Prop :=
  ∀ (s : State) (rest : List WriteAnswer), s.cfg.Valid → Quiet s → s.label = .w3 →
    (s.tpWrites = .ok :: rest → step s = .next { s with
      host := s.host.tail, cmdReject := false, tpWrites := rest
      fsm := .txAwait, label := .w4, calls := s.calls ++ [.clkNow] }) ∧
    (s.tpWrites = .ioError :: rest → step s = .next (ended .ioError ResultRegs.zero
      { s with host := s.host.tail, cmdReject := false, tpWrites := rest }))

/-- 42_sender.md R124 (`W4`): the wait loop is set up with the sampled clock. -/
def Obligations.WaitLoopSetUp : Prop :=
  ∀ (s : State) (now : Tick) (rest : List Tick), s.cfg.Valid → Quiet s → s.label = .w4 → s.ticks = now :: rest →
    step s = .next { s with
      host := s.host.tail, cmdReject := false, ticks := rest
      work := { s.work with
        start := now, cont := 0#8, budget := BitVec.ofNat 32 s.cfg.maxAckWait, ext := false, acked := false }
      label := .w5, calls := s.calls ++ [.clkNow] }

/-- 42_sender.md R125, R126, R133, 60_exceptions.md R191 (`W5`, `W6`): elapsed time is modulo `2^TICK_W`; the guard is strict in both
caps and comes first; the read gate compares with the untruncated product. -/
def Obligations.LoopGuardAndReadGate : Prop :=
  ∀ (s : State) (now : Tick) (rest : List Tick), s.cfg.Valid → Quiet s → s.label = .w5 → s.ticks = now :: rest →
    ∃ (el : Nat) (u : State), el = (now.toNat + 2 ^ 32 - s.work.start.toNat) % 2 ^ 32 ∧
      u = { s with host := s.host.tail, cmdReject := false, ticks := rest } ∧
      ((s.cfg.maxAttempts < s.work.cont.toNat ∨ s.work.budget.toNat < el) →
        step s = .next (ended .ackTimeout ResultRegs.zero u)) ∧
      (¬(s.cfg.maxAttempts < s.work.cont.toNat ∨ s.work.budget.toNat < el) →
        (s.work.cont.toNat * s.cfg.retryInterval ≤ el →
          step s = .next { u with label := .w6, calls := u.calls ++ [.tpRead s.cfg.F s.cfg.pollTimeout] }) ∧
        (el < s.work.cont.toNat * s.cfg.retryInterval →
          step s = .next { u with label := .w5, calls := u.calls ++ [.clkNow] }))

/-- 42_sender.md R129: a good frame with the ACK command ends the WRITE with `Ok`; no further frame is sent. -/
def Obligations.AckReplySucceeds : Prop :=
  ∀ (s : State) (b : List Byte) (rest : List ReadAnswer), s.cfg.Valid → Quiet s → s.label = .w6 →
    s.tpReads = .bytes b :: rest → GoodFrame s.cfg b → b.getD 1 0#8 = s.cfg.ackCode →
    step s = .next (ended .ok s.res { s with host := s.host.tail, cmdReject := false, tpReads := rest })

/-- 42_sender.md R130, R132: a good frame with the NACK command extends `BUDGET` by `RETRY_INTERVAL` on the first one only, never
resets `CONT`, and resends the unchanged frame within the attempt cap. -/
def Obligations.NackReplyExtendsOnceAndResends : Prop :=
  ∀ (s : State) (b : List Byte) (rest : List ReadAnswer), s.cfg.Valid → Quiet s → s.label = .w6 →
    s.tpReads = .bytes b :: rest → GoodFrame s.cfg b → b.getD 1 0#8 = s.cfg.nackCode →
    ∃ w : Work, step s = .next (resent w { s with host := s.host.tail, cmdReject := false, tpReads := rest }) ∧
      w.txp = s.work.txp ∧ w.txf = s.work.txf ∧ frameBytes s.cfg w.rxf = b ∧ w.cont = s.work.cont ∧
      w.start = s.work.start ∧ w.acked = false ∧ w.ext = true ∧
      w.budget = if s.work.ext then s.work.budget
        else s.work.budget + BitVec.ofNat 32 s.cfg.retryInterval

/-- 42_sender.md R128, R132: `F` bytes that are no good frame (a `length` byte above `MAXP`, or a checksum that differs) are noise: the
unchanged frame is resent within the attempt cap, budget and flags untouched. -/
def Obligations.NoiseReplyResends : Prop :=
  ∀ (s : State) (b : List Byte) (rest : List ReadAnswer), s.cfg.Valid → Quiet s → s.label = .w6 →
    s.tpReads = .bytes b :: rest → b.length = s.cfg.F → ¬GoodFrame s.cfg b →
    ∃ w : Work, step s = .next (resent w { s with host := s.host.tail, cmdReject := false, tpReads := rest }) ∧
      w.txp = s.work.txp ∧ w.txf = s.work.txf ∧ frameBytes s.cfg w.rxf = b ∧ w.cont = s.work.cont ∧
      w.start = s.work.start ∧ w.acked = s.work.acked ∧ w.ext = s.work.ext ∧ w.budget = s.work.budget

/-- 42_sender.md R131: a good frame whose command is neither ACK nor NACK changes nothing but the receive side: no resend, no
increment, no extension; the loop goes on. -/
def Obligations.OtherReplyIsIgnored : Prop :=
  ∀ (s : State) (b : List Byte) (rest : List ReadAnswer), s.cfg.Valid → Quiet s → s.label = .w6 →
    s.tpReads = .bytes b :: rest → GoodFrame s.cfg b → b.getD 1 0#8 ≠ s.cfg.ackCode →
    b.getD 1 0#8 ≠ s.cfg.nackCode →
    ∃ rxp rxf, step s = .next { s with
      host := s.host.tail, cmdReject := false, tpReads := rest
      work := { s.work with rxp := rxp, rxf := rxf }, label := .w5, calls := s.calls ++ [.clkNow] }

/-- 42_sender.md R126, 20_memory.md R46: an answer other than exactly `F` bytes is no frame: it is consumed, no state changes, and the
loop reads the clock again. -/
def Obligations.NoFrameChangesNothing : Prop :=
  ∀ (s : State) (a : ReadAnswer) (rest : List ReadAnswer), s.cfg.Valid → Quiet s → s.label = .w6 →
    s.tpReads = a :: rest → (∀ b, a = .bytes b → b.length ≠ s.cfg.F) →
    step s = .next { s with
      host := s.host.tail, cmdReject := false, tpReads := rest, label := .w5, calls := s.calls ++ [.clkNow] }

/-- 42_sender.md R132, R123 (`W8`): a resend the transport took is counted and the loop goes on; a failed one ends the WRITE. -/
def Obligations.ResendAnswered : Prop :=
  ∀ (s : State) (rest : List WriteAnswer), s.cfg.Valid → Quiet s → s.label = .w8 →
    (s.tpWrites = .ok :: rest → step s = .next { s with
      host := s.host.tail, cmdReject := false, tpWrites := rest, fsm := .txAwait
      work := { s.work with cont := s.work.cont + 1#8 }, label := .w5, calls := s.calls ++ [.clkNow] }) ∧
    (s.tpWrites = .ioError :: rest → step s = .next (ended .ioError ResultRegs.zero
      { s with host := s.host.tail, cmdReject := false, tpWrites := rest }))

/-- 42_sender.md R136 (a): a transport that gives a good ACK frame on the first read makes WRITE return `Ok` after exactly one
transmitted frame. -/
def Obligations.WriteSucceedsOnFirstAck : Prop :=
  ∀ (s : State) (r : Request) (acts : List HostAct) (command : Byte) (len : Half) (data : Operand)
    (bytes reply : List Byte) (t0 t1 : Tick) (ws : List WriteAnswer) (rs : List ReadAnswer) (ts : List Tick),
    s.cfg.Valid → s.busy = false → s.host = .start r :: acts → AllWait acts →
    decode r = some (.write command len data) → Supplies data len bytes → len.toNat ≤ s.cfg.maxp →
    s.tpWrites = .ok :: ws → s.tpReads = .bytes reply :: rs → s.ticks = t0 :: t1 :: ts →
    (t1 - t0).toNat ≤ s.cfg.maxAckWait → GoodFrame s.cfg reply → reply.getD 1 0#8 = s.cfg.ackCode →
    ∃ t, After 5 s t ∧ t.status = .ok ∧ t.busy = false ∧ t.done = true ∧
      t.fsm = .idle ∧ t.work = Work.zero ∧ t.res = ResultRegs.zero ∧
      t.calls = s.calls ++ [.tpWrite (wireFrame s.cfg s.devid command bytes), .clkNow, .clkNow,
        .tpRead s.cfg.F s.cfg.pollTimeout]

/-- 42_sender.md R136 (b): one good NACK frame, then a good ACK frame that the clock lets be read, make WRITE resend exactly once and
return `Ok` (with `MAX_ATTEMPTS >= 1`). -/
def Obligations.WriteResendsOnceOnNackThenAck : Prop :=
  ∀ (s : State) (r : Request) (acts : List HostAct) (command : Byte) (len : Half) (data : Operand)
    (bytes nack ack : List Byte) (t0 t1 t2 : Tick) (ws : List WriteAnswer) (rs : List ReadAnswer) (ts : List Tick),
    s.cfg.Valid → 1 ≤ s.cfg.maxAttempts → s.busy = false → s.host = .start r :: acts → AllWait acts →
    decode r = some (.write command len data) → Supplies data len bytes → len.toNat ≤ s.cfg.maxp →
    s.tpWrites = .ok :: .ok :: ws → s.tpReads = .bytes nack :: .bytes ack :: rs → s.ticks = t0 :: t1 :: t2 :: ts →
    (t1 - t0).toNat ≤ s.cfg.maxAckWait →
    s.cfg.retryInterval ≤ (t2 - t0).toNat → (t2 - t0).toNat ≤ s.cfg.maxAckWait + s.cfg.retryInterval →
    GoodFrame s.cfg nack → nack.getD 1 0#8 = s.cfg.nackCode →
    GoodFrame s.cfg ack → ack.getD 1 0#8 = s.cfg.ackCode →
    ∃ t frame, After 8 s t ∧ t.status = .ok ∧ t.busy = false ∧ t.done = true ∧
      frame = wireFrame s.cfg s.devid command bytes ∧
      t.calls = s.calls ++ [.tpWrite frame, .clkNow, .clkNow, .tpRead s.cfg.F s.cfg.pollTimeout,
        .tpWrite frame, .clkNow, .tpRead s.cfg.F s.cfg.pollTimeout]

/-- 42_sender.md R135: however the environment answers, one WRITE makes at most `1 + MAX_ATTEMPTS` `TpWrite` calls. R137: under the
clock assumption (some later `ClkNow` answer has `el > BUDGET`) it completes, by the loop guard that takes that answer at the
latest; R136 (c): with `AckTimeout`, if the transport takes every frame and never gives a valid ACK. Otherwise the infinite run
is admitted: with a clock that stays within `MAX_ACK_WAIT` and reads that give no reply to act on, a legal WRITE is busy after
any number of steps, each of which made a call. -/
def Obligations.WriteTransmissionsAreBounded : Prop :=
  (∀ (s t : State) (r : Request) (acts : List HostAct) (command : Byte) (len : Half) (data : Operand) (n : Nat),
    s.cfg.Valid → s.busy = false → s.host = .start r :: acts → AllWait acts →
    decode r = some (.write command len data) → After n s t →
    writesIn t.calls ≤ writesIn s.calls + (1 + s.cfg.maxAttempts)) ∧
  (∀ (s : State) (r : Request) (acts : List HostAct) (command : Byte) (len : Half) (data : Operand) (e : Environment)
    (k m : Nat), s.cfg.Valid → s.busy = false → s.host = .start r :: acts → AllWait acts →
    decode r = some (.write command len data) → (Instr.write command len data).wf s.cfg = true →
    ClockPassesBudget s.cfg e k → k < m →
    ∃ n t, 1 ≤ n ∧ n ≤ 3 * k + 1 ∧ After n (answeredBy e m s) t ∧ t.busy = false ∧ t.done = true ∧
      ((∃ bytes, Supplies data len bytes) → len.toNat ≤ s.cfg.maxp → (∀ j, e.writes j = .ok) →
        (∀ j, ¬IsReply s.cfg s.cfg.ackCode (e.reads j)) → t.status = .ackTimeout)) ∧
  (∀ (s : State) (r : Request) (acts : List HostAct) (command : Byte) (len : Half) (data : Operand) (bytes : List Byte)
    (e : Environment), s.cfg.Valid → s.busy = false → s.host = .start r :: acts → AllWait acts →
    decode r = some (.write command len data) → Supplies data len bytes → len.toNat ≤ s.cfg.maxp →
    (∀ j, e.writes j = .ok) → (∀ j, (e.clock j - e.clock 0).toNat ≤ s.cfg.maxAckWait) →
    (∀ j b, e.reads j = .bytes b → b.length = s.cfg.F →
      GoodFrame s.cfg b ∧ b.getD 1 0#8 ≠ s.cfg.ackCode ∧ b.getD 1 0#8 ≠ s.cfg.nackCode) →
    ∀ n, ∃ t, After (n + 1) (answeredBy e (n + 1) s) t ∧ t.busy = true ∧ t.done = false ∧
      t.calls.length = s.calls.length + (n + 1))

/-! ### The receiver -/

/-- 43_receiver.md R151 (`RD1`): READ is accepted and calls `TpFlush` once, before anything else touches the transport. -/
def Obligations.ReadFlushesFirst : Prop :=
  ∀ s : State, s.busy = false →
    exec .read s = .next { s with
      busy := true, done := false, res := ResultRegs.zero, work := Work.zero, label := .rd2
      calls := s.calls ++ [.tpFlush] }

/-- 43_receiver.md R152 (`RD2`, `RD3`): the NACK frame, stamped with `DEVID` and with a correct checksum, is built before the one
`TpRead` is made; `FSM` is `RX_AWAIT`. The rest of the working state is zero and nothing else changes. -/
def Obligations.NackIsBuiltBeforeReading : Prop :=
  ∀ s : State, Invariant s → Quiet s → s.label = .rd2 →
    ∃ w : Work, step s = .next { s with
        host := s.host.tail, cmdReject := false, work := w, fsm := .rxAwait, label := .rd3
        calls := s.calls ++ [.tpRead s.cfg.F s.cfg.rxTimeout] } ∧
      frameBytes s.cfg w.txf = wireFrame s.cfg s.devid s.cfg.nackCode [] ∧ Memory.Fits s.cfg.F w.txf ∧
      w.txp.id = s.devid ∧ w.txp.command = s.cfg.nackCode ∧ w.txp.length = 0#8 ∧ w.txp.payload = [] ∧
      w.txp.crc = crc16 s.cfg.crcPoly (wireSpan s.cfg s.devid s.cfg.nackCode []) ∧
      w.rxp = Packet.zero ∧ w.rxf = [] ∧ w.cont = 0#8 ∧ w.start = 0#32 ∧ w.budget = 0#32 ∧
      w.acked = false ∧ w.ext = false

/-- 43_receiver.md R153, R163: any answer but exactly `F` bytes is answered with the NACK frame; the operation then ends with `NoData`,
or with `IoError` when that frame cannot be written. -/
def Obligations.NoFrameIsAnsweredWithNack : Prop :=
  (∀ (s : State) (a : ReadAnswer) (rest : List ReadAnswer), Invariant s → Quiet s → s.label = .rd3 →
    s.tpReads = a :: rest → (∀ b, a = .bytes b → b.length ≠ s.cfg.F) →
    step s = .next { s with
      host := s.host.tail, cmdReject := false, tpReads := rest, label := .rd3Nack
      calls := s.calls ++ [.tpWrite (wireFrame s.cfg s.devid s.cfg.nackCode [])] }) ∧
  (∀ (s : State) (a : WriteAnswer) (rest : List WriteAnswer), s.cfg.Valid → Quiet s → s.label = .rd3Nack →
    s.tpWrites = a :: rest →
    step s = .next (ended (if a = .ok then .noData else .ioError) ResultRegs.zero
      { s with host := s.host.tail, cmdReject := false, tpWrites := rest }))

/-- 43_receiver.md R154, R155: a `length` byte above `MAXP` or below `MIN_LEN` ends READ with `LengthError` whatever the checksum;
nothing is transmitted and nothing delivered. -/
def Obligations.BadLengthIsRejectedInSilence : Prop :=
  ∀ (s : State) (b : List Byte) (rest : List ReadAnswer), s.cfg.Valid → Quiet s → s.label = .rd3 →
    s.tpReads = .bytes b :: rest → b.length = s.cfg.F →
    (s.cfg.maxp < (b.getD 2 0#8).toNat ∨ (b.getD 2 0#8).toNat < s.cfg.minLen.toNat) →
    step s = .next (ended .lengthError ResultRegs.zero
      { s with host := s.host.tail, cmdReject := false, tpReads := rest })

/-- 43_receiver.md R156, R157, R163: a legal length with a checksum that differs is answered with the pre-built NACK frame; of the
working state only the receive side changes, which holds the frame; the operation ends with `CrcError` (or `IoError`), and
nothing is delivered. -/
def Obligations.BadChecksumIsAnsweredWithNack : Prop :=
  (∀ (s : State) (b : List Byte) (rest : List ReadAnswer), Invariant s → Quiet s → s.label = .rd3 →
    s.tpReads = .bytes b :: rest → b.length = s.cfg.F → (b.getD 2 0#8).toNat ≤ s.cfg.maxp →
    s.cfg.minLen.toNat ≤ (b.getD 2 0#8).toNat → ¬CrcMatches s.cfg b →
    ∃ w : Work, step s = .next { s with
        host := s.host.tail, cmdReject := false, tpReads := rest, work := w, label := .rd5Nack
        calls := s.calls ++ [.tpWrite (wireFrame s.cfg s.devid s.cfg.nackCode [])] } ∧
      w.txp = s.work.txp ∧ w.txf = s.work.txf ∧ frameBytes s.cfg w.rxf = b ∧
      dec s.cfg (Memory.ofBytes b) = some w.rxp ∧ w.cont = s.work.cont ∧ w.start = s.work.start ∧
      w.budget = s.work.budget ∧ w.acked = s.work.acked ∧ w.ext = s.work.ext) ∧
  (∀ (s : State) (a : WriteAnswer) (rest : List WriteAnswer), s.cfg.Valid → Quiet s → s.label = .rd5Nack →
    s.tpWrites = a :: rest →
    step s = .next (ended (if a = .ok then .crcError else .ioError) ResultRegs.zero
      { s with host := s.host.tail, cmdReject := false, tpWrites := rest }))

/-- 43_receiver.md R158: a good frame of sufficient length is answered with the ACK frame, which has its own checksum; the Packet is
held in `RXP` and not yet delivered. Of `TXP` only the command and the checksum change, and the counters stay as they were. -/
def Obligations.GoodFrameIsAnsweredWithAck : Prop :=
  ∀ (s : State) (b : List Byte) (rest : List ReadAnswer), Invariant s → Quiet s → s.label = .rd3 →
    s.tpReads = .bytes b :: rest → GoodFrame s.cfg b → s.cfg.minLen.toNat ≤ (b.getD 2 0#8).toNat →
    ∃ w : Work, step s = .next { s with
        host := s.host.tail, cmdReject := false, tpReads := rest, work := w, label := .rd6
        calls := s.calls ++ [.tpWrite (wireFrame s.cfg s.devid s.cfg.ackCode [])] } ∧
      dec s.cfg (Memory.ofBytes b) = some w.rxp ∧ frameBytes s.cfg w.rxf = b ∧
      frameBytes s.cfg w.txf = wireFrame s.cfg s.devid s.cfg.ackCode [] ∧
      w.txp = { s.work.txp with
        command := s.cfg.ackCode, crc := crc16 s.cfg.crcPoly (wireSpan s.cfg s.devid s.cfg.ackCode []) } ∧
      w.cont = s.work.cont ∧ w.start = s.work.start ∧ w.budget = s.work.budget ∧
      w.acked = s.work.acked ∧ w.ext = s.work.ext

/-- 43_receiver.md R158, R163: once the ACK is written the Packet is delivered in `RES` with `Ok`; when it cannot be written the
operation ends with `IoError` and delivers nothing. -/
def Obligations.DeliveryFollowsTheAck : Prop :=
  ∀ (s : State) (rest : List WriteAnswer), s.cfg.Valid → Quiet s → s.label = .rd6 →
    (s.tpWrites = .ok :: rest → step s = .next (ended .ok { s.res with packet := s.work.rxp }
      { s with host := s.host.tail, cmdReject := false, tpWrites := rest })) ∧
    (s.tpWrites = .ioError :: rest → step s = .next (ended .ioError ResultRegs.zero
      { s with host := s.host.tail, cmdReject := false, tpWrites := rest }))

/-- 43_receiver.md R158, 95_test_vectors.md T8: a READ that receives a good frame replies with the ACK frame and returns the decoded
Packet with payload intact. -/
def Obligations.ReadDeliversGoodFrame : Prop :=
  ∀ (s : State) (r : Request) (acts : List HostAct) (b : List Byte) (ws : List WriteAnswer) (rs : List ReadAnswer),
    s.cfg.Valid → s.busy = false → s.host = .start r :: acts → AllWait acts → decode r = some .read →
    s.tpReads = .bytes b :: rs → s.tpWrites = .ok :: ws → GoodFrame s.cfg b →
    s.cfg.minLen.toNat ≤ (b.getD 2 0#8).toNat →
    ∃ t, After 4 s t ∧ t.status = .ok ∧ t.busy = false ∧ t.done = true ∧
      t.res.packet.id = b.getD 0 0#8 ∧ t.res.packet.command = b.getD 1 0#8 ∧ t.res.packet.length = b.getD 2 0#8 ∧
      Memory.readBytes t.res.packet.payload 0 (b.getD 2 0#8).toNat = (b.drop 3).take (b.getD 2 0#8).toNat ∧
      t.res.packet.crc.toNat = crcField s.cfg b ∧ t.res.crc16 = 0#16 ∧ t.res.frame = [] ∧ t.work = Work.zero ∧
      t.calls = s.calls ++ [.tpFlush, .tpRead s.cfg.F s.cfg.rxTimeout,
        .tpWrite (wireFrame s.cfg s.devid s.cfg.ackCode [])]

/-- 43_receiver.md R157, 95_test_vectors.md T7: a READ that receives a frame whose checksum differs replies with the NACK frame, ends
with `CrcError`, and leaves all of `RES` zero. -/
def Obligations.ReadRejectsBadChecksum : Prop :=
  ∀ (s : State) (r : Request) (acts : List HostAct) (b : List Byte) (ws : List WriteAnswer) (rs : List ReadAnswer),
    s.cfg.Valid → s.busy = false → s.host = .start r :: acts → AllWait acts → decode r = some .read →
    s.tpReads = .bytes b :: rs → s.tpWrites = .ok :: ws → b.length = s.cfg.F →
    (b.getD 2 0#8).toNat ≤ s.cfg.maxp → s.cfg.minLen.toNat ≤ (b.getD 2 0#8).toNat → ¬CrcMatches s.cfg b →
    ∃ t, After 4 s t ∧ t.status = .crcError ∧ t.busy = false ∧ t.done = true ∧
      t.res = ResultRegs.zero ∧ t.work = Work.zero ∧
      t.calls = s.calls ++ [.tpFlush, .tpRead s.cfg.F s.cfg.rxTimeout,
        .tpWrite (wireFrame s.cfg s.devid s.cfg.nackCode [])]

/-- 43_receiver.md R164: one READ calls `TpFlush` once, then `TpRead` once, then `TpWrite` at most once and never on the
`LengthError` path, and never the clock, however the environment answers. -/
def Obligations.ReadCallsInOrder : Prop :=
  ∀ (s t : State) (r : Request) (acts : List HostAct) (n : Nat), s.cfg.Valid → s.busy = false →
    s.host = .start r :: acts → AllWait acts → decode r = some .read → After n s t →
    ∃ new frame, t.calls = s.calls ++ new ∧
      new <+: [.tpFlush, .tpRead s.cfg.F s.cfg.rxTimeout, .tpWrite frame] ∧
      (1 ≤ n → t.busy = false → 2 ≤ new.length) ∧
      (1 ≤ n → t.busy = false → t.status = .lengthError → new.length = 2)

/-! ### The whole machine -/

/-- The reset state meets the invariant, for every valid parameter set (10_state.md R33). -/
def Obligations.ResetMeetsInvariant : Prop :=
  (∀ c : Config, c.Valid → Invariant (State.resetOf c)) ∧ Invariant State.reset

/-- The invariant of the machine is kept by every step from every state that meets it: buffers and payloads stay canonical and inside
their capacities (20_memory.md R41, 10_state.md R12, R13), `FSM`, `BUSY` and `DONE` agree (R20, R26), the working state is zero while
`BUSY = 0` (R29), `RES` is zero while busy and after an error (R18), the sender's counters keep their bounds (R22, R24), `TXF` holds the
frame of the running operation stamped with `DEVID` (30_encoding.md R67), and a Packet about to be delivered has passed the checks. -/
def Obligations.StepKeepsInvariant : Prop :=
  ∀ s t : State, Invariant s → step s = .next t → Invariant t

/-- 10_state.md R21, 42_sender.md R140, 43_receiver.md R162: `STATUS` changes only where an operation completes (`BUSY` 0, `DONE` 1,
`FSM` idle), or at `rst`, which sets it to `Ok`. -/
def Obligations.StatusChangesOnlyAtCompletion : Prop :=
  ∀ s t : State, step s = .next t → t.status ≠ s.status →
    (t.busy = false ∧ t.done = true ∧ t.fsm = .idle ∧ t.work = Work.zero) ∨
      ((∃ rest, s.host = .rst :: rest) ∧ t.status = .ok)

/-- 10_state.md R19: no operation of the block writes `DEVID`; only the host's write while idle and `rst` change it. -/
def Obligations.DevIdChangesOnlyByHost : Prop :=
  ∀ s t : State, step s = .next t → t.devid ≠ s.devid →
    (∃ v rest, s.host = .setDevId v :: rest ∧ s.busy = false ∧ t.devid = v) ∨
      ((∃ rest, s.host = .rst :: rest) ∧ t.devid = s.cfg.devidReset)

/-- 00_scope.md R4: the parameters are constants of an instance; no step changes them. -/
def Obligations.ParametersNeverChange : Prop :=
  ∀ s t : State, step s = .next t → t.cfg = s.cfg

/-- 20_memory.md R52: calls on the environment are made one at a time, and a call made is never taken back; every refusal of a command
leaves them alone. -/
def Obligations.AtMostOneCallPerStep : Prop :=
  ∀ s t : State, step s = .next t →
    ∃ new, t.calls = s.calls ++ new ∧ new.length ≤ 1 ∧ (t.cmdReject = true → new = [])

/-- 42_sender.md R140, 43_receiver.md R162: the transitions of `FSM`; but for `rst` no other exists. -/
def Obligations.FsmTransitions : Prop :=
  ∀ s t : State, Invariant s → step s = .next t → (∀ rest, s.host ≠ .rst :: rest) → t.fsm ≠ s.fsm →
    (s.fsm, t.fsm) ∈ [(Fsm.idle, Fsm.txSent), (.txSent, .txAwait), (.txSent, .idle), (.txAwait, .txSent),
      (.txAwait, .idle), (.idle, .rxAwait), (.rxAwait, .idle)]
end

