-- ==== Sys2Proof/Laws/Memory.lean ====
section
/-! SUPPORT. The laws of buffers: read after write, other offsets, the canonical form, capacities, byte sequences. -/

namespace Sys2Proof.Machine

@[simp] theorem Memory.read_nil (a : Nat) : Memory.read [] a = 0#8 := rfl

theorem Memory.read_cons (k : Nat) (v : Byte) (m : Memory) (a : Nat) :
    Memory.read ((k, v) :: m) a = if a = k then v else Memory.read m a := rfl

theorem Memory.mem_put {a : Nat} {b : Byte} {m : Memory} {cell : Host.Cell} (h : cell ∈ Memory.put a b m) :
    (cell = (a, b) ∧ b ≠ 0#8) ∨ cell ∈ m := by
  unfold Memory.put at h
  split at h
  · exact .inr h
  · rcases List.mem_cons.1 h with h' | h'
    · exact .inl ⟨h', ‹_›⟩
    · exact .inr h'

theorem Memory.mem_write {m : Memory} {a : Nat} {b : Byte} {cell : Host.Cell} (h : cell ∈ Memory.write m a b) :
    (cell = (a, b) ∧ b ≠ 0#8) ∨ cell ∈ m := by
  induction m with
  | nil => simpa using Memory.mem_put h
  | cons head m ih =>
    obtain ⟨k, v⟩ := head
    unfold Memory.write at h
    split at h
    · exact Memory.mem_put h
    · split at h
      · exact (Memory.mem_put h).imp id (List.mem_cons_of_mem _)
      · rcases List.mem_cons.1 h with h' | h'
        · exact .inr (h' ▸ List.mem_cons_self)
        · exact (ih h').imp id (List.mem_cons_of_mem _)

theorem Memory.within_write {n a : Nat} {m : Memory} (h : m.within n) (ha : a < n) (b : Byte) :
    (Memory.write m a b).within n := by
  intro cell hc
  rcases Memory.mem_write hc with ⟨rfl, _⟩ | hc
  · exact ha
  · exact h cell hc

theorem Memory.wf_nil : Memory.wf [] := by simp [Memory.wf]

theorem Memory.wf_cons {k : Nat} {v : Byte} {m : Memory} :
    Memory.wf ((k, v) :: m) ↔ (∀ cell ∈ m, k < cell.1) ∧ v ≠ 0#8 ∧ Memory.wf m := by
  simp only [Memory.wf, List.pairwise_cons, List.mem_cons, forall_eq_or_imp]
  tauto

theorem Memory.wf_put {a : Nat} {b : Byte} {m : Memory} (h : Memory.wf m) (ha : ∀ cell ∈ m, a < cell.1) :
    Memory.wf (Memory.put a b m) := by
  unfold Memory.put
  split
  · exact h
  · exact Memory.wf_cons.2 ⟨ha, ‹_›, h⟩

/-- Every write keeps the canonical form. -/
theorem Memory.wf_write {m : Memory} (h : Memory.wf m) (a : Nat) (b : Byte) : Memory.wf (Memory.write m a b) := by
  induction m with
  | nil => exact Memory.wf_put h (by simp)
  | cons head m ih =>
    obtain ⟨k, v⟩ := head
    obtain ⟨hk, hv, hm⟩ := Memory.wf_cons.1 h
    unfold Memory.write
    split
    · rename_i hak
      refine Memory.wf_put h fun cell hc => ?_
      rcases List.mem_cons.1 hc with rfl | hc
      · exact hak
      · exact hak.trans (hk cell hc)
    · split
      · rename_i _ hak
        exact Memory.wf_put hm fun cell hc => hak ▸ hk cell hc
      · refine Memory.wf_cons.2 ⟨fun cell hc => ?_, hv, ih hm⟩
        rcases Memory.mem_write hc with ⟨rfl, _⟩ | hc
        · simp only; omega
        · exact hk cell hc

theorem Memory.read_of_above {m : Memory} {a : Nat} (h : ∀ cell ∈ m, a < cell.1) : Memory.read m a = 0#8 := by
  induction m with
  | nil => rfl
  | cons head m ih =>
    obtain ⟨k, v⟩ := head
    have := h (k, v) (by simp)
    rw [Memory.read_cons, if_neg (by simp only at this; omega), ih fun cell hc => h cell (by simp [hc])]

/-- An offset at or above the capacity reads as 0. -/
theorem Memory.read_of_within {m : Memory} {n a : Nat} (h : m.within n) (ha : n ≤ a) : Memory.read m a = 0#8 := by
  induction m with
  | nil => rfl
  | cons head m ih =>
    obtain ⟨k, v⟩ := head
    have := h (k, v) (by simp)
    rw [Memory.read_cons, if_neg (by simp only at this; omega), ih fun cell hc => h cell (by simp [hc])]

theorem Memory.read_put_self (a : Nat) (b : Byte) {m : Memory} (h : ∀ cell ∈ m, a < cell.1) :
    Memory.read (Memory.put a b m) a = b := by
  unfold Memory.put
  split
  · rename_i hb; rw [Memory.read_of_above h]; exact hb.symm
  · simp [Memory.read_cons]

theorem Memory.read_put_of_ne {a i : Nat} (b : Byte) (m : Memory) (h : i ≠ a) :
    Memory.read (Memory.put a b m) i = Memory.read m i := by
  unfold Memory.put
  split
  · rfl
  · simp [Memory.read_cons, h]

/-- A read after a write to the same offset gives the value written. -/
theorem Memory.read_write_self {m : Memory} (h : Memory.wf m) (a : Nat) (b : Byte) :
    Memory.read (Memory.write m a b) a = b := by
  induction m with
  | nil => exact Memory.read_put_self a b (by simp)
  | cons head m ih =>
    obtain ⟨k, v⟩ := head
    obtain ⟨hk, hv, hm⟩ := Memory.wf_cons.1 h
    unfold Memory.write
    split
    · rename_i hak
      refine Memory.read_put_self a b fun cell hc => ?_
      rcases List.mem_cons.1 hc with rfl | hc
      · exact hak
      · exact hak.trans (hk cell hc)
    · split
      · rename_i _ hak
        exact Memory.read_put_self a b fun cell hc => hak ▸ hk cell hc
      · rename_i _ hak
        rw [Memory.read_cons, if_neg hak, ih hm]

/-- A write leaves every other offset alone. -/
theorem Memory.read_write_of_ne (m : Memory) {a i : Nat} (b : Byte) (h : i ≠ a) :
    Memory.read (Memory.write m a b) i = Memory.read m i := by
  induction m with
  | nil => exact Memory.read_put_of_ne b [] h
  | cons head m ih =>
    obtain ⟨k, v⟩ := head
    unfold Memory.write
    split
    · exact Memory.read_put_of_ne b _ h
    · split
      · rename_i _ hak
        rw [Memory.read_put_of_ne b m h, Memory.read_cons, if_neg (by omega)]
      · rw [Memory.read_cons, Memory.read_cons, ih]

theorem Memory.read_write {m : Memory} (h : Memory.wf m) (a i : Nat) (b : Byte) :
    Memory.read (Memory.write m a b) i = if i = a then b else Memory.read m i := by
  split
  · rename_i hi; rw [hi]; exact Memory.read_write_self h a b
  · exact Memory.read_write_of_ne m b ‹_›

/-- Equal contents in canonical form are equal data. -/
theorem Memory.ext_read {m m' : Memory} (h : Memory.wf m) (h' : Memory.wf m')
    (hr : ∀ a, Memory.read m a = Memory.read m' a) : m = m' := by
  induction m generalizing m' with
  | nil =>
    cases m' with
    | nil => rfl
    | cons head m' =>
      obtain ⟨k, v⟩ := head
      obtain ⟨-, hv, -⟩ := Memory.wf_cons.1 h'
      have := hr k
      rw [Memory.read_cons, if_pos rfl] at this
      exact absurd this.symm hv
  | cons head m ih =>
    obtain ⟨k, v⟩ := head
    obtain ⟨hk, hv, hm⟩ := Memory.wf_cons.1 h
    cases m' with
    | nil =>
      have := hr k
      rw [Memory.read_cons, if_pos rfl] at this
      exact absurd this hv
    | cons head' m' =>
      obtain ⟨k', v'⟩ := head'
      obtain ⟨hk', hv', hm'⟩ := Memory.wf_cons.1 h'
      have hkk : k = k' := by
        rcases Nat.lt_trichotomy k k' with hlt | heq | hgt
        · have := hr k
          rw [Memory.read_cons, if_pos rfl, Memory.read_cons, if_neg (by omega),
            Memory.read_of_above fun cell hc => hlt.trans (hk' cell hc)] at this
          exact absurd this hv
        · exact heq
        · have := hr k'
          rw [Memory.read_cons, if_neg (by omega), Memory.read_cons, if_pos rfl,
            Memory.read_of_above fun cell hc => hgt.trans (hk cell hc)] at this
          exact absurd this.symm hv'
      subst hkk
      have hvv : v = v' := by simpa [Memory.read_cons] using hr k
      subst hvv
      have : m = m' := by
        refine ih hm hm' fun a => ?_
        by_cases ha : a = k
        · subst ha; rw [Memory.read_of_above hk, Memory.read_of_above hk']
        · simpa [Memory.read_cons, ha] using hr a
      rw [this]

@[simp] theorem Memory.length_readBytes (m : Memory) (a n : Nat) : (Memory.readBytes m a n).length = n := by
  induction n generalizing a with
  | zero => rfl
  | succ n ih => simp [Memory.readBytes, ih]

theorem Memory.readBytes_add (m : Memory) (a n k : Nat) :
    Memory.readBytes m a (n + k) = Memory.readBytes m a n ++ Memory.readBytes m (a + n) k := by
  induction n generalizing a with
  | zero => simp [Memory.readBytes]
  | succ n ih => rw [Nat.succ_add, Memory.readBytes, ih, Memory.readBytes, Nat.add_right_comm]; rfl

theorem Memory.readBytes_getD (m : Memory) (a n i : Nat) (d : Byte) :
    (Memory.readBytes m a n).getD i d = if i < n then Memory.read m (a + i) else d := by
  induction n generalizing a i with
  | zero => simp [Memory.readBytes]
  | succ n ih =>
    cases i with
    | zero => simp [Memory.readBytes]
    | succ i =>
      rw [Memory.readBytes, List.getD_cons_succ, ih]
      simp only [Nat.add_lt_add_iff_right]
      congr 2
      omega

theorem Memory.readBytes_congr {m m' : Memory} {a n : Nat}
    (h : ∀ i, a ≤ i → i < a + n → Memory.read m i = Memory.read m' i) :
    Memory.readBytes m a n = Memory.readBytes m' a n := by
  induction n generalizing a with
  | zero => rfl
  | succ n ih =>
    rw [Memory.readBytes, Memory.readBytes, h a (by omega) (by omega), ih fun i h1 h2 => h i (by omega) (by omega)]

theorem Memory.readBytes_eq_zero {m : Memory} {a n : Nat}
    (h : ∀ i, a ≤ i → i < a + n → Memory.read m i = 0#8) :
    Memory.readBytes m a n = List.replicate n 0#8 := by
  induction n generalizing a with
  | zero => rfl
  | succ n ih =>
    rw [Memory.readBytes, h a (by omega) (by omega), ih fun i h1 h2 => h i (by omega) (by omega), List.replicate_succ]

/-- A byte sequence is determined by its offsets. -/
theorem Memory.readBytes_eq_of_getD {m : Memory} {a : Nat} {l : List Byte}
    (h : ∀ i < l.length, Memory.read m (a + i) = l.getD i 0#8) : Memory.readBytes m a l.length = l := by
  induction l generalizing a with
  | nil => rfl
  | cons b l ih =>
    rw [List.length_cons, Memory.readBytes]
    have h0 := h 0 (by simp)
    rw [Nat.add_zero, List.getD_cons_zero] at h0
    rw [h0, ih fun i hi => ?_]
    have := h (i + 1) (by simpa using hi)
    rw [List.getD_cons_succ] at this
    rw [← this]; congr 1; omega

theorem Memory.wf_writeBytes {m : Memory} (h : Memory.wf m) (a : Nat) (bs : List Byte) :
    Memory.wf (Memory.writeBytes m a bs) := by
  induction bs generalizing m a with
  | nil => exact h
  | cons b bs ih => exact ih (Memory.wf_write h a b) (a + 1)

theorem Memory.within_writeBytes {n : Nat} {m : Memory} {a : Nat} {bs : List Byte} (h : m.within n)
    (ha : a + bs.length ≤ n) : (Memory.writeBytes m a bs).within n := by
  induction bs generalizing m a with
  | nil => exact h
  | cons b bs ih =>
    rw [List.length_cons] at ha
    exact ih (Memory.within_write h (by omega) b) (by omega)

/-- What a sequence of writes leaves at each offset. -/
theorem Memory.read_writeBytes {m : Memory} (h : Memory.wf m) (a i : Nat) (bs : List Byte) :
    Memory.read (Memory.writeBytes m a bs) i =
      if a ≤ i ∧ i < a + bs.length then bs.getD (i - a) 0#8 else Memory.read m i := by
  induction bs generalizing m a with
  | nil => rw [if_neg (by simp only [List.length_nil]; omega)]; rfl
  | cons b bs ih =>
    rw [Memory.writeBytes, ih (Memory.wf_write h a b), Memory.read_write h, List.length_cons]
    by_cases hi : i = a
    · subst hi
      rw [if_neg (by omega), if_pos rfl, if_pos ⟨Nat.le_refl i, by omega⟩]; simp
    · rw [if_neg hi]
      by_cases hr : a + 1 ≤ i ∧ i < a + 1 + bs.length
      · rw [if_pos hr, if_pos ⟨by omega, by omega⟩, ← List.getD_cons_succ (x := b)]
        congr 1; omega
      · rw [if_neg hr, if_neg (by omega)]

theorem Memory.wf_ofBytes (bs : List Byte) : Memory.wf (Memory.ofBytes bs) :=
  Memory.wf_writeBytes Memory.wf_nil 0 bs

theorem Memory.within_ofBytes (bs : List Byte) : (Memory.ofBytes bs).within bs.length :=
  Memory.within_writeBytes (by simp) (by omega)

theorem Memory.fits_ofBytes (bs : List Byte) : Memory.Fits bs.length (Memory.ofBytes bs) :=
  ⟨Memory.wf_ofBytes bs, Memory.within_ofBytes bs⟩

@[simp] theorem Memory.read_ofBytes (bs : List Byte) (i : Nat) :
    Memory.read (Memory.ofBytes bs) i = bs.getD i 0#8 := by
  rw [Memory.ofBytes, Memory.read_writeBytes Memory.wf_nil]
  split
  · rfl
  · rename_i h
    rw [Memory.read_nil, List.getD_eq_default _ _ (by omega)]

/-- A buffer filled with `bs` reads back as `bs`. -/
theorem Memory.readBytes_ofBytes (bs : List Byte) : Memory.readBytes (Memory.ofBytes bs) 0 bs.length = bs :=
  Memory.readBytes_eq_of_getD fun i _ => by rw [Nat.zero_add, Memory.read_ofBytes]

theorem Memory.fits_nil (n : Nat) : Memory.Fits n [] := ⟨Memory.wf_nil, by simp⟩

theorem Memory.Fits.mono {n n' : Nat} {m : Memory} (h : Memory.Fits n m) (hn : n ≤ n') : Memory.Fits n' m :=
  ⟨h.1, fun cell hc => Nat.lt_of_lt_of_le (h.2 cell hc) hn⟩

theorem Memory.Fits.write {n a : Nat} {m : Memory} (h : Memory.Fits n m) (ha : a < n) (b : Byte) :
    Memory.Fits n (Memory.write m a b) :=
  ⟨Memory.wf_write h.1 a b, Memory.within_write h.2 ha b⟩

theorem Memory.Fits.writeBytes {n a : Nat} {m : Memory} {bs : List Byte} (h : Memory.Fits n m)
    (ha : a + bs.length ≤ n) : Memory.Fits n (Memory.writeBytes m a bs) :=
  ⟨Memory.wf_writeBytes h.1 a bs, Memory.within_writeBytes h.2 ha⟩

end Sys2Proof.Machine
end

