-- ==== Sys2Proof/Laws/Framer.lean ====
section
/-! SUPPORT. The laws of the framer: what each offset of an encoded buffer reads as, the bytes of a built frame, and decoding. -/

namespace Sys2Proof.Machine

/-! ### The CRC field as bytes -/

theorem lowByte_toNat (crc : Half) : (lowByte crc).toNat = crc.toNat % 256 := by
  simp [lowByte, BitVec.toNat_setWidth]

theorem highByte_toNat (crc : Half) : (highByte crc).toNat = crc.toNat / 256 := by
  have := crc.isLt
  simp only [highByte, BitVec.toNat_setWidth, BitVec.toNat_ushiftRight, Nat.shiftRight_eq_div_pow]
  omega

theorem halfOf_toNat (hi lo : Byte) : (halfOf hi lo).toNat = hi.toNat * 256 + lo.toNat := by
  have h1 := hi.isLt
  have h2 := lo.isLt
  have e : (hi.setWidth 16 <<< 8 : Half).toNat = hi.toNat <<< 8 := by
    simp only [BitVec.toNat_shiftLeft, BitVec.toNat_setWidth, Nat.shiftLeft_eq]
    omega
  rw [halfOf, BitVec.toNat_or, e, BitVec.toNat_setWidth_of_le (by omega),
    ← Nat.shiftLeft_add_eq_or_of_lt (by omega), Nat.shiftLeft_eq]

@[simp] theorem halfOf_high_low (crc : Half) : halfOf (highByte crc) (lowByte crc) = crc := by
  apply BitVec.eq_of_toNat_eq
  rw [halfOf_toNat, highByte_toNat, lowByte_toNat]
  omega

theorem lowByte_eq (crc : Half) : lowByte crc = BitVec.ofNat 8 (crc.toNat % 256) := by
  apply BitVec.eq_of_toNat_eq
  rw [lowByte_toNat, BitVec.toNat_ofNat]; omega

theorem highByte_eq (crc : Half) : highByte crc = BitVec.ofNat 8 (crc.toNat / 256) := by
  have := crc.isLt
  apply BitVec.eq_of_toNat_eq
  rw [highByte_toNat, BitVec.toNat_ofNat]; omega

theorem lowByte_zero : lowByte 0#16 = 0#8 := by decide

theorem highByte_zero : highByte 0#16 = 0#8 := by decide

/-! ### Encoding -/

theorem Memory.wf_encHeader {b : Memory} (h : Memory.wf b) (p : Packet) : Memory.wf (encHeader b p) :=
  Memory.wf_writeBytes (Memory.wf_write (Memory.wf_write (Memory.wf_write h _ _) _ _) _ _) _ _

/-- What `Enc`'s header and payload part leaves at each offset (41_framer.md R100, R102). -/
theorem read_encHeader {b : Memory} (h : Memory.wf b) (p : Packet) (i : Nat) :
    Memory.read (encHeader b p) i =
      if 3 ≤ i ∧ i < 3 + p.length.toNat then Memory.read p.payload (i - 3)
      else if i = 2 then p.length else if i = 1 then p.command else if i = 0 then p.id
      else Memory.read b i := by
  have h0 := Memory.wf_write h 0 p.id
  have h1 := Memory.wf_write h0 1 p.command
  rw [encHeader, Memory.read_writeBytes (Memory.wf_write h1 2 p.length), Memory.length_readBytes,
    Memory.readBytes_getD, Memory.read_write h1, Memory.read_write h0, Memory.read_write h]
  split
  · rename_i hi; rw [if_pos (by omega), Nat.zero_add]
  · rfl

theorem Memory.wf_putCrc (c : Config) {b : Memory} (h : Memory.wf b) (crc : Half) : Memory.wf (putCrc c b crc) :=
  Memory.wf_write (Memory.wf_write h _ _) _ _

theorem read_putCrc (c : Config) {b : Memory} (h : Memory.wf b) (crc : Half) (i : Nat) :
    Memory.read (putCrc c b crc) i =
      if i = c.F - 1 then highByte crc else if i = c.F - 2 then lowByte crc else Memory.read b i := by
  rw [putCrc, Memory.read_write (Memory.wf_write h _ _), Memory.read_write h]

theorem Memory.wf_enc (c : Config) {b : Memory} (h : Memory.wf b) (p : Packet) : Memory.wf (enc c b p) := by
  unfold enc
  split
  · exact Memory.wf_encHeader h p
  · exact Memory.wf_putCrc c (Memory.wf_encHeader h p) _

/-- What `Enc` leaves at each offset (41_framer.md R100, R101). -/
theorem read_enc (c : Config) {b : Memory} (h : Memory.wf b) (p : Packet) (i : Nat) :
    Memory.read (enc c b p) i =
      if p.crc ≠ 0#16 ∧ i = c.F - 1 then highByte p.crc
      else if p.crc ≠ 0#16 ∧ i = c.F - 2 then lowByte p.crc
      else Memory.read (encHeader b p) i := by
  unfold enc
  split
  · rename_i hc; simp [hc]
  · rename_i hc; rw [read_putCrc c (Memory.wf_encHeader h p)]; simp [hc]

theorem Memory.Fits.encHeader {c : Config} (hF : 5 ≤ c.F) {b : Memory} {p : Packet} (h : Memory.Fits c.F b)
    (hp : p.length.toNat ≤ c.maxp) : Memory.Fits c.F (encHeader b p) := by
  unfold Config.maxp at hp
  refine Memory.Fits.writeBytes (((h.write (by omega) _).write (by omega) _).write (by omega) _) ?_
  rw [Memory.length_readBytes]; omega

theorem Memory.Fits.putCrc {c : Config} (hF : 5 ≤ c.F) {b : Memory} (h : Memory.Fits c.F b) (crc : Half) :
    Memory.Fits c.F (putCrc c b crc) :=
  (h.write (by omega) _).write (by omega) _

/-- `Enc` writes inside the buffer (20_memory.md R41). -/
theorem Memory.Fits.enc {c : Config} (hF : 5 ≤ c.F) {b : Memory} {p : Packet} (h : Memory.Fits c.F b)
    (hp : p.length.toNat ≤ c.maxp) : Memory.Fits c.F (enc c b p) := by
  unfold Sys2Proof.Machine.enc
  split
  · exact h.encHeader hF hp
  · exact (h.encHeader hF hp).putCrc hF _

/-! ### Building a frame -/

/-- The buffer whose checksum `BuildFrame` takes. -/
def unsummed (c : Config) (w : Work) : Memory := putCrc c (encHeader w.txf w.txp) 0#16

theorem buildFrame_eq (c : Config) (w : Work) :
    buildFrame c w =
      { w with
        txp := { w.txp with crc := frameCrc c (unsummed c w) }
        txf := enc c (unsummed c w) { w.txp with crc := frameCrc c (unsummed c w) } } := rfl

theorem Memory.wf_unsummed (c : Config) {w : Work} (h : Memory.wf w.txf) : Memory.wf (unsummed c w) :=
  Memory.wf_putCrc c (Memory.wf_encHeader h w.txp) 0#16

/-- What `BuildFrame` leaves at each offset: the header and payload over the old buffer, and the checksum (41_framer.md R110). -/
theorem read_buildFrame {c : Config} (hF : 5 ≤ c.F) {w : Work} (h : Memory.wf w.txf)
    (hp : w.txp.length.toNat ≤ c.maxp) (i : Nat) :
    Memory.read (buildFrame c w).txf i =
      if i = c.F - 1 then highByte (frameCrc c (unsummed c w))
      else if i = c.F - 2 then lowByte (frameCrc c (unsummed c w))
      else Memory.read (encHeader w.txf w.txp) i := by
  unfold Config.maxp at hp
  have hw := Memory.wf_encHeader h w.txp
  rw [buildFrame_eq, read_enc c (Memory.wf_unsummed c h), read_encHeader (Memory.wf_unsummed c h)]
  simp only [unsummed, read_putCrc c hw, highByte_zero, lowByte_zero, read_encHeader h]
  generalize frameCrc c (putCrc c (encHeader w.txf w.txp) 0#16) = crc
  by_cases hc : crc = 0#16
  · subst hc
    simp only [ne_eq, not_true_eq_false, false_and, if_false, highByte_zero, lowByte_zero]
    by_cases h1 : i = c.F - 1
    · rw [if_neg (by omega), if_neg (by omega), if_neg (by omega), if_neg (by omega), if_pos h1]
    · by_cases h2 : i = c.F - 2
      · rw [if_neg (by omega), if_neg (by omega), if_neg (by omega), if_neg (by omega), if_neg h1, if_pos h2]
      · simp only [h1, h2, if_false]
        repeat' split
        all_goals rfl
  · simp only [ne_eq, hc, not_false_eq_true, true_and]
    by_cases h1 : i = c.F - 1
    · simp [h1]
    · by_cases h2 : i = c.F - 2
      · rw [if_neg h1, if_pos h2, if_neg h1, if_pos h2]
      · simp only [h1, h2, if_false]
        repeat' split
        all_goals rfl

theorem crcSpan_unsummed {c : Config} {w : Work} (h : Memory.wf w.txf) :
    crcSpan c (unsummed c w) = crcSpan c (encHeader w.txf w.txp) :=
  Memory.readBytes_congr fun i _ hi => by
    rw [unsummed, read_putCrc c (Memory.wf_encHeader h w.txp), if_neg (by omega), if_neg (by omega)]

/-- The checksum of the built frame is the one `BuildFrame` put into it (41_framer.md R109, R110). -/
theorem frameCrc_buildFrame {c : Config} (hF : 5 ≤ c.F) {w : Work} (h : Memory.wf w.txf)
    (hp : w.txp.length.toNat ≤ c.maxp) :
    frameCrc c (buildFrame c w).txf = frameCrc c (unsummed c w) := by
  unfold frameCrc
  congr 1
  rw [crcSpan_unsummed h]
  exact Memory.readBytes_congr fun i _ hi => by
    rw [read_buildFrame hF h hp, if_neg (by omega), if_neg (by omega)]

theorem Memory.Fits.buildFrame {c : Config} (hF : 5 ≤ c.F) {w : Work} (h : Memory.Fits c.F w.txf)
    (hp : w.txp.length.toNat ≤ c.maxp) : Memory.Fits c.F (buildFrame c w).txf :=
  Memory.Fits.enc hF ((h.encHeader hF hp).putCrc hF 0#16) hp

theorem readBytes_shift {m m' : Memory} {a a' n : Nat}
    (h : ∀ i < n, Memory.read m (a + i) = Memory.read m' (a' + i)) :
    Memory.readBytes m a n = Memory.readBytes m' a' n := by
  induction n generalizing a a' with
  | zero => rfl
  | succ n ih =>
    have h0 := h 0 (by omega)
    rw [Memory.readBytes, Memory.readBytes, show Memory.read m a = Memory.read m' a' from h0]
    congr 1
    refine ih fun i hi => ?_
    have := h (i + 1) (by omega)
    rwa [Nat.add_right_comm a, Nat.add_right_comm a', ← Nat.add_assoc a, ← Nat.add_assoc a'] at *

theorem lengthByte_toNat {len : Half} (h : len.toNat < 256) : (lengthByte len).toNat = len.toNat := by
  rw [lengthByte, BitVec.toNat_setWidth]; omega

/-- The header, payload and padding of a Packet encoded into a cleared buffer (41_framer.md R100, R102). -/
theorem crcSpan_encHeader_nil {c : Config} (hF : 5 ≤ c.F) {p : Packet} (hp : p.length.toNat ≤ c.maxp) :
    crcSpan c (encHeader [] p) =
      wireSpan c p.id p.command (Memory.readBytes p.payload 0 p.length.toNat) := by
  unfold Config.maxp at hp
  have hsplit : c.F - 2 = 3 + p.length.toNat + (c.F - 5 - p.length.toNat) := by omega
  have hlen : BitVec.ofNat 8 p.length.toNat = p.length := by simp
  rw [crcSpan, wireSpan, hsplit, Memory.readBytes_add, Memory.readBytes_add, Memory.length_readBytes, hlen]
  congr 1
  · congr 1
    · simp [Memory.readBytes, read_encHeader Memory.wf_nil]
    · refine readBytes_shift fun i hi => ?_
      rw [read_encHeader Memory.wf_nil, if_pos (by omega)]
      congr 1; omega
  · unfold Config.maxp
    refine Memory.readBytes_eq_zero fun i h1 h2 => ?_
    rw [read_encHeader Memory.wf_nil, if_neg (by omega), if_neg (by omega), if_neg (by omega),
      if_neg (by omega), Memory.read_nil]

theorem length_wireSpan {c : Config} (hF : 5 ≤ c.F) (id command : Byte) {payload : List Byte}
    (h : payload.length ≤ c.maxp) : (wireSpan c id command payload).length = c.F - 2 := by
  unfold Config.maxp at h
  simp [wireSpan, Config.maxp]
  omega

theorem length_wireFrame {c : Config} (hF : 5 ≤ c.F) (id command : Byte) {payload : List Byte}
    (h : payload.length ≤ c.maxp) : (wireFrame c id command payload).length = c.F := by
  rw [wireFrame, List.length_append, length_wireSpan hF id command h]
  simp; omega

/-- The last two bytes of a buffer follow the CRC span. -/
theorem frameBytes_eq {c : Config} (hF : 5 ≤ c.F) (b : Memory) :
    frameBytes c b = crcSpan c b ++ [Memory.read b (c.F - 2), Memory.read b (c.F - 1)] := by
  have hF2 : c.F = c.F - 2 + 2 := by omega
  conv_lhs => rw [frameBytes, hF2, Memory.readBytes_add]
  rw [crcSpan]
  simp only [Memory.readBytes, Nat.zero_add]
  rw [show c.F - 2 + 1 = c.F - 1 by omega]

/-- The bytes of a frame built in a cleared buffer are those of 30_encoding.md R60. -/
theorem frameBytes_buildFrame {c : Config} (hF : 5 ≤ c.F) {w : Work} (h : w.txf = [])
    (hp : w.txp.length.toNat ≤ c.maxp) :
    frameBytes c (buildFrame c w).txf =
      wireFrame c w.txp.id w.txp.command (Memory.readBytes w.txp.payload 0 w.txp.length.toNat) := by
  have hwf : Memory.wf w.txf := h ▸ Memory.wf_nil
  have hspan : crcSpan c (buildFrame c w).txf =
      wireSpan c w.txp.id w.txp.command (Memory.readBytes w.txp.payload 0 w.txp.length.toNat) := by
    rw [← crcSpan_encHeader_nil hF hp, ← h]
    exact Memory.readBytes_congr fun i _ hi => by
      rw [read_buildFrame hF hwf hp, if_neg (by omega), if_neg (by omega)]
  have hcrc := frameCrc_buildFrame hF hwf hp
  rw [frameCrc, hspan] at hcrc
  rw [frameBytes_eq hF, hspan, read_buildFrame hF hwf hp, read_buildFrame hF hwf hp, if_neg (by omega), if_pos rfl,
    if_pos rfl, wireFrame, ← hcrc, lowByte_eq, highByte_eq]

@[simp] theorem buildFrame_rxp (c : Config) (w : Work) : (buildFrame c w).rxp = w.rxp := rfl
@[simp] theorem buildFrame_rxf (c : Config) (w : Work) : (buildFrame c w).rxf = w.rxf := rfl
@[simp] theorem buildFrame_cont (c : Config) (w : Work) : (buildFrame c w).cont = w.cont := rfl
@[simp] theorem buildFrame_start (c : Config) (w : Work) : (buildFrame c w).start = w.start := rfl
@[simp] theorem buildFrame_budget (c : Config) (w : Work) : (buildFrame c w).budget = w.budget := rfl
@[simp] theorem buildFrame_acked (c : Config) (w : Work) : (buildFrame c w).acked = w.acked := rfl
@[simp] theorem buildFrame_ext (c : Config) (w : Work) : (buildFrame c w).ext = w.ext := rfl
@[simp] theorem buildFrame_txp_id (c : Config) (w : Work) : (buildFrame c w).txp.id = w.txp.id := rfl
@[simp] theorem buildFrame_txp_command (c : Config) (w : Work) : (buildFrame c w).txp.command = w.txp.command := rfl
@[simp] theorem buildFrame_txp_length (c : Config) (w : Work) : (buildFrame c w).txp.length = w.txp.length := rfl
@[simp] theorem buildFrame_txp_payload (c : Config) (w : Work) : (buildFrame c w).txp.payload = w.txp.payload := rfl

/-- The bytes of a Packet encoded into a cleared buffer, the CRC field zero when `P.crc = 0` (41_framer.md R100, R101). -/
theorem frameBytes_enc_nil {c : Config} (hF : 5 ≤ c.F) {p : Packet} (hp : p.length.toNat ≤ c.maxp) :
    frameBytes c (enc c [] p) =
      wireSpan c p.id p.command (Memory.readBytes p.payload 0 p.length.toNat) ++
        [BitVec.ofNat 8 (p.crc.toNat % 256), BitVec.ofNat 8 (p.crc.toNat / 256)] := by
  have hp' := hp
  unfold Config.maxp at hp'
  have hz : ∀ i, i = c.F - 1 ∨ i = c.F - 2 → Memory.read (encHeader [] p) i = 0#8 := fun i hi => by
    rw [read_encHeader Memory.wf_nil, if_neg (by omega), if_neg (by omega), if_neg (by omega),
      if_neg (by omega), Memory.read_nil]
  have hspan : crcSpan c (enc c [] p) = crcSpan c (encHeader [] p) :=
    Memory.readBytes_congr fun i _ hi => by
      rw [read_enc c Memory.wf_nil, if_neg (by omega), if_neg (by omega)]
  rw [frameBytes_eq hF, hspan, crcSpan_encHeader_nil hF hp, read_enc c Memory.wf_nil, read_enc c Memory.wf_nil]
  congr 1
  by_cases hc : p.crc = 0#16
  · simp [hc, hz]
  · rw [if_neg (by omega), if_pos ⟨hc, rfl⟩, if_pos ⟨hc, rfl⟩, lowByte_eq, highByte_eq]

/-- `BuildFrame` over an old buffer gives the frame it gives in a cleared one, when the old buffer's padding is zero: no CRC byte of
the old frame survives (41_framer.md R110). -/
theorem buildFrame_over {c : Config} (hF : 5 ≤ c.F) {w v : Work} (hw : Memory.wf w.txf) (hv : v.txf = [])
    (hid : w.txp.id = v.txp.id) (hcmd : w.txp.command = v.txp.command) (hlen : w.txp.length = v.txp.length)
    (hpay : w.txp.payload = v.txp.payload) (hp : v.txp.length.toNat ≤ c.maxp)
    (hpad : ∀ i, 3 + v.txp.length.toNat ≤ i → i ≠ c.F - 1 → i ≠ c.F - 2 → Memory.read w.txf i = 0#8) :
    (buildFrame c w).txf = (buildFrame c v).txf := by
  have hvf : Memory.wf v.txf := hv ▸ Memory.wf_nil
  have hd : ∀ i, i ≠ c.F - 1 → i ≠ c.F - 2 →
      Memory.read (encHeader w.txf w.txp) i = Memory.read (encHeader v.txf v.txp) i := fun i h1 h2 => by
    rw [read_encHeader hw, read_encHeader hvf, hid, hcmd, hlen, hpay, hv, Memory.read_nil]
    repeat' split
    all_goals first
      | rfl
      | exact hpad i (by omega) h1 h2
  have hc : frameCrc c (unsummed c w) = frameCrc c (unsummed c v) := by
    unfold frameCrc
    rw [crcSpan_unsummed hw, crcSpan_unsummed hvf]
    congr 1
    exact Memory.readBytes_congr fun i _ hi => hd i (by omega) (by omega)
  refine Memory.ext_read (Memory.wf_enc c (Memory.wf_unsummed c hw) _) (Memory.wf_enc c (Memory.wf_unsummed c hvf) _)
    fun i => ?_
  show Memory.read (buildFrame c w).txf i = Memory.read (buildFrame c v).txf i
  rw [read_buildFrame hF hw (hlen ▸ hp), read_buildFrame hF hvf hp, hc]
  split
  · rfl
  · split
    · rfl
    · exact hd i ‹_› ‹_›

/-! ### The Packet of a request -/

theorem maxp_le {c : Config} (hv : c.Valid) : c.maxp ≤ 255 := by
  unfold Config.maxp
  have := hv.2.1
  omega

/-- `req_len[7:0]` loses no bit once `req_len <= MAXP` (30_encoding.md R77). -/
theorem requestPacket_length {c : Config} (hv : c.Valid) (id command : Byte) {len : Half} (crc : Half) (data : Operand)
    (hl : len.toNat ≤ c.maxp) : (requestPacket id command len crc data).length.toNat = len.toNat :=
  lengthByte_toNat (by have := maxp_le hv; omega)

/-- A reply frame built in a cleared buffer (30_encoding.md R67). -/
theorem frameBytes_reply {c : Config} (hF : 5 ≤ c.F) (devid command : Byte) {w : Work}
    (htxp : w.txp = replyPacket devid command) (htxf : w.txf = []) :
    frameBytes c (buildFrame c w).txf = wireFrame c devid command [] := by
  have := frameBytes_buildFrame (c := c) hF (w := w) htxf (by rw [htxp]; exact Nat.zero_le _)
  rw [this, htxp]
  rfl

/-- A reply frame built over another reply frame: no byte of the old one survives (41_framer.md R110, 43_receiver.md R158). -/
theorem frameBytes_reply_over {c : Config} (hF : 5 ≤ c.F) {devid old new : Byte} {w : Work} (hw : Memory.Fits c.F w.txf)
    (hn : frameBytes c w.txf = wireFrame c devid old []) (hid : w.txp.id = devid) (hc : w.txp.command = new)
    (hl : w.txp.length = 0#8) (hp : w.txp.payload = []) :
    frameBytes c (buildFrame c w).txf = wireFrame c devid new [] := by
  rw [← frameBytes_reply hF devid new (w := { Work.zero with txp := replyPacket devid new }) rfl rfl]
  congr 1
  refine buildFrame_over hF hw.1 rfl hid hc hl hp (Nat.zero_le _) fun i hi _ _ => ?_
  by_cases hlt : i < c.F
  · have := congrArg (·.getD i 0#8) hn
    simp only [frameBytes, Memory.readBytes_getD, if_pos hlt, Nat.zero_add] at this
    have hs := length_wireSpan hF devid old (payload := []) (by simp)
    have hi' : 3 ≤ i := Nat.le_trans (Nat.le_add_right 3 _) hi
    rw [this, wireFrame, List.getD_eq_getElem?_getD, List.getElem?_append_left (by omega)]
    simp only [wireSpan, List.append_nil]
    rw [List.getElem?_append_right (by simpa using hi')]
    simp [List.getElem?_replicate]
    split <;> rfl
  · exact Memory.read_of_within hw.2 (by omega)

/-- The checksum in `TXP` after `BuildFrame` is that of the span the frame shows (41_framer.md R109, R110). -/
theorem buildFrame_crc {c : Config} (hF : 5 ≤ c.F) {w : Work} (h : Memory.wf w.txf) (hp : w.txp.length.toNat ≤ c.maxp)
    {id command : Byte} {payload : List Byte} (hl : payload.length ≤ c.maxp)
    (hf : frameBytes c (buildFrame c w).txf = wireFrame c id command payload) :
    (buildFrame c w).txp.crc = crc16 c.crcPoly (wireSpan c id command payload) := by
  rw [frameBytes_eq hF, wireFrame] at hf
  have hs := (List.append_inj hf (by rw [length_wireSpan hF id command hl, crcSpan, Memory.length_readBytes])).1
  rw [← hs]
  exact (frameCrc_buildFrame hF h hp).symm

/-! ### Decoding -/

/-- `Dec` of a buffer with a legal `length` byte (41_framer.md R105). -/
theorem dec_of_le {c : Config} {b : Memory} (h : (Memory.read b 2).toNat ≤ c.maxp) :
    dec c b = some
      { id := Memory.read b 0
        command := Memory.read b 1
        length := Memory.read b 2
        payload := Memory.ofBytes (Memory.readBytes b 3 (Memory.read b 2).toNat)
        crc := halfOf (Memory.read b (c.F - 1)) (Memory.read b (c.F - 2)) } :=
  if_neg (Nat.not_lt.2 h)

/-- `Dec` of a buffer whose `length` byte exceeds `MAXP` (41_framer.md R106). -/
theorem dec_of_gt {c : Config} {b : Memory} (h : c.maxp < (Memory.read b 2).toNat) : dec c b = none :=
  if_pos h

theorem Packet.fits_zero (c : Config) : Packet.Fits c Packet.zero :=
  ⟨Nat.zero_le _, Memory.fits_nil _⟩

theorem Packet.fits_of_dec {c : Config} {b : Memory} {p : Packet} (h : dec c b = some p) : Packet.Fits c p := by
  by_cases hl : (Memory.read b 2).toNat ≤ c.maxp
  · rw [dec_of_le hl] at h
    obtain rfl := Option.some.inj h
    refine ⟨hl, ?_⟩
    have := Memory.fits_ofBytes (Memory.readBytes b 3 (Memory.read b 2).toNat)
    rwa [Memory.length_readBytes] at this
  · rw [dec_of_gt (Nat.lt_of_not_le hl)] at h; cases h

theorem Packet.fits_dec_getD (c : Config) (b : Memory) : Packet.Fits c ((dec c b).getD Packet.zero) := by
  cases h : dec c b with
  | none => exact Packet.fits_zero c
  | some p => exact Packet.fits_of_dec h

theorem dec_nil (c : Config) : dec c [] = some Packet.zero := by
  rw [dec_of_le (by simp)]
  simp only [Memory.read_nil]
  exact congrArg some (by decide)

theorem crcSpan_ofBytes {c : Config} {b : List Byte} (h : b.length = c.F) :
    crcSpan c (Memory.ofBytes b) = b.take (c.F - 2) := by
  have hl : (b.take (c.F - 2)).length = c.F - 2 := by rw [List.length_take, h]; omega
  have := Memory.readBytes_eq_of_getD (m := Memory.ofBytes b) (a := 0) (l := b.take (c.F - 2)) fun i hi => by
    rw [Nat.zero_add, Memory.read_ofBytes, List.getD_eq_getElem?_getD, List.getD_eq_getElem?_getD,
      List.getElem?_take_of_lt (by omega)]
  rwa [hl] at this

theorem frameCrc_ofBytes {c : Config} {b : List Byte} (h : b.length = c.F) :
    frameCrc c (Memory.ofBytes b) = crc16 c.crcPoly (b.take (c.F - 2)) := by
  rw [frameCrc, crcSpan_ofBytes h]

theorem crcMatches_iff {c : Config} {b : List Byte} :
    halfOf (b.getD (c.F - 1) 0#8) (b.getD (c.F - 2) 0#8) = crc16 c.crcPoly (b.take (c.F - 2)) ↔ CrcMatches c b := by
  rw [← BitVec.toNat_inj, halfOf_toNat]; rfl

/-- The Packet `Dec` gives for received bytes. -/
def packetOf (c : Config) (b : List Byte) : Packet where
  id := b.getD 0 0#8
  command := b.getD 1 0#8
  length := b.getD 2 0#8
  payload := Memory.ofBytes ((b.drop 3).take (b.getD 2 0#8).toNat)
  crc := halfOf (b.getD (c.F - 1) 0#8) (b.getD (c.F - 2) 0#8)

theorem readBytes_ofBytes_drop (b : List Byte) (a n : Nat) (h : a + n ≤ b.length) :
    Memory.readBytes (Memory.ofBytes b) a n = (b.drop a).take n := by
  have hl : ((b.drop a).take n).length = n := by rw [List.length_take, List.length_drop]; omega
  have := Memory.readBytes_eq_of_getD (m := Memory.ofBytes b) (a := a) (l := (b.drop a).take n) fun i hi => by
    rw [Memory.read_ofBytes, List.getD_eq_getElem?_getD, List.getD_eq_getElem?_getD,
      List.getElem?_take_of_lt (by omega), List.getElem?_drop]
  rwa [hl] at this

theorem dec_ofBytes {c : Config} (hF : 5 ≤ c.F) {b : List Byte} (h : b.length = c.F)
    (hl : (b.getD 2 0#8).toNat ≤ c.maxp) : dec c (Memory.ofBytes b) = some (packetOf c b) := by
  have hl' := hl
  unfold Config.maxp at hl'
  rw [dec_of_le (by simpa using hl)]
  simp only [Memory.read_ofBytes]
  rw [readBytes_ofBytes_drop b 3 _ (by omega)]
  rfl

theorem dec_ofBytes_none {c : Config} {b : List Byte} (hl : c.maxp < (b.getD 2 0#8).toNat) :
    dec c (Memory.ofBytes b) = none :=
  dec_of_gt (by simpa using hl)

/-- `FrameCrcOk` of received bytes is the spec's reading of a good frame (30_encoding.md R68). -/
theorem frameCrcOk_ofBytes {c : Config} (hF : 5 ≤ c.F) {b : List Byte} (h : b.length = c.F) :
    frameCrcOk c (Memory.ofBytes b) = true ↔ GoodFrame c b := by
  unfold frameCrcOk GoodFrame
  by_cases hl : (b.getD 2 0#8).toNat ≤ c.maxp
  · rw [dec_ofBytes hF h hl, frameCrc_ofBytes h]
    simp only [packetOf, beq_iff_eq]
    rw [crcMatches_iff]
    exact ⟨fun hm => ⟨h, hl, hm⟩, fun hm => hm.2.2⟩
  · rw [dec_ofBytes_none (Nat.lt_of_not_le hl)]
    exact ⟨(fun hm => nomatch hm), fun hm => absurd hm.2.1 hl⟩

end Sys2Proof.Machine
end

