-- ==== Sys2Proof/Laws/State.lean ====
section
/-! SUPPORT. One lemma per field of State per named update: what each shared operation leaves in it. -/

namespace Sys2Proof.Machine

@[simp] theorem accept_cfg (s : State) : (accept s).cfg = s.cfg := rfl
@[simp] theorem accept_work (s : State) : (accept s).work = Work.zero := rfl
@[simp] theorem accept_res (s : State) : (accept s).res = ResultRegs.zero := rfl
@[simp] theorem accept_devid (s : State) : (accept s).devid = s.devid := rfl
@[simp] theorem accept_fsm (s : State) : (accept s).fsm = s.fsm := rfl
@[simp] theorem accept_status (s : State) : (accept s).status = s.status := rfl
@[simp] theorem accept_busy (s : State) : (accept s).busy = true := rfl
@[simp] theorem accept_done (s : State) : (accept s).done = false := rfl
@[simp] theorem accept_label (s : State) : (accept s).label = s.label := rfl
@[simp] theorem accept_host (s : State) : (accept s).host = s.host := rfl
@[simp] theorem accept_tpWrites (s : State) : (accept s).tpWrites = s.tpWrites := rfl
@[simp] theorem accept_tpReads (s : State) : (accept s).tpReads = s.tpReads := rfl
@[simp] theorem accept_ticks (s : State) : (accept s).ticks = s.ticks := rfl
@[simp] theorem accept_calls (s : State) : (accept s).calls = s.calls := rfl
@[simp] theorem accept_cmdReject (s : State) : (accept s).cmdReject = s.cmdReject := rfl

@[simp] theorem finish_cfg (k : Kind) (s : State) : (finish k s).cfg = s.cfg := rfl
@[simp] theorem finish_work (k : Kind) (s : State) : (finish k s).work = Work.zero := rfl
@[simp] theorem finish_res (k : Kind) (s : State) : (finish k s).res = (if k = .ok then s.res else ResultRegs.zero) := rfl
@[simp] theorem finish_devid (k : Kind) (s : State) : (finish k s).devid = s.devid := rfl
@[simp] theorem finish_fsm (k : Kind) (s : State) : (finish k s).fsm = .idle := rfl
@[simp] theorem finish_status (k : Kind) (s : State) : (finish k s).status = k := rfl
@[simp] theorem finish_busy (k : Kind) (s : State) : (finish k s).busy = false := rfl
@[simp] theorem finish_done (k : Kind) (s : State) : (finish k s).done = true := rfl
@[simp] theorem finish_label (k : Kind) (s : State) : (finish k s).label = .none := rfl
@[simp] theorem finish_host (k : Kind) (s : State) : (finish k s).host = s.host := rfl
@[simp] theorem finish_tpWrites (k : Kind) (s : State) : (finish k s).tpWrites = s.tpWrites := rfl
@[simp] theorem finish_tpReads (k : Kind) (s : State) : (finish k s).tpReads = s.tpReads := rfl
@[simp] theorem finish_ticks (k : Kind) (s : State) : (finish k s).ticks = s.ticks := rfl
@[simp] theorem finish_calls (k : Kind) (s : State) : (finish k s).calls = s.calls := rfl
@[simp] theorem finish_cmdReject (k : Kind) (s : State) : (finish k s).cmdReject = s.cmdReject := rfl

@[simp] theorem reject_cfg (s : State) : (reject s).cfg = s.cfg := rfl
@[simp] theorem reject_work (s : State) : (reject s).work = s.work := rfl
@[simp] theorem reject_res (s : State) : (reject s).res = s.res := rfl
@[simp] theorem reject_devid (s : State) : (reject s).devid = s.devid := rfl
@[simp] theorem reject_fsm (s : State) : (reject s).fsm = s.fsm := rfl
@[simp] theorem reject_status (s : State) : (reject s).status = s.status := rfl
@[simp] theorem reject_busy (s : State) : (reject s).busy = s.busy := rfl
@[simp] theorem reject_done (s : State) : (reject s).done = s.done := rfl
@[simp] theorem reject_label (s : State) : (reject s).label = s.label := rfl
@[simp] theorem reject_host (s : State) : (reject s).host = s.host := rfl
@[simp] theorem reject_tpWrites (s : State) : (reject s).tpWrites = s.tpWrites := rfl
@[simp] theorem reject_tpReads (s : State) : (reject s).tpReads = s.tpReads := rfl
@[simp] theorem reject_ticks (s : State) : (reject s).ticks = s.ticks := rfl
@[simp] theorem reject_calls (s : State) : (reject s).calls = s.calls := rfl
@[simp] theorem reject_cmdReject (s : State) : (reject s).cmdReject = true := rfl

@[simp] theorem issue_cfg (c : Call) (l : Label) (s : State) : (issue c l s).cfg = s.cfg := rfl
@[simp] theorem issue_work (c : Call) (l : Label) (s : State) : (issue c l s).work = s.work := rfl
@[simp] theorem issue_res (c : Call) (l : Label) (s : State) : (issue c l s).res = s.res := rfl
@[simp] theorem issue_devid (c : Call) (l : Label) (s : State) : (issue c l s).devid = s.devid := rfl
@[simp] theorem issue_fsm (c : Call) (l : Label) (s : State) : (issue c l s).fsm = s.fsm := rfl
@[simp] theorem issue_status (c : Call) (l : Label) (s : State) : (issue c l s).status = s.status := rfl
@[simp] theorem issue_busy (c : Call) (l : Label) (s : State) : (issue c l s).busy = s.busy := rfl
@[simp] theorem issue_done (c : Call) (l : Label) (s : State) : (issue c l s).done = s.done := rfl
@[simp] theorem issue_label (c : Call) (l : Label) (s : State) : (issue c l s).label = l := rfl
@[simp] theorem issue_host (c : Call) (l : Label) (s : State) : (issue c l s).host = s.host := rfl
@[simp] theorem issue_tpWrites (c : Call) (l : Label) (s : State) : (issue c l s).tpWrites = s.tpWrites := rfl
@[simp] theorem issue_tpReads (c : Call) (l : Label) (s : State) : (issue c l s).tpReads = s.tpReads := rfl
@[simp] theorem issue_ticks (c : Call) (l : Label) (s : State) : (issue c l s).ticks = s.ticks := rfl
@[simp] theorem issue_calls (c : Call) (l : Label) (s : State) : (issue c l s).calls = s.calls ++ [c] := rfl
@[simp] theorem issue_cmdReject (c : Call) (l : Label) (s : State) : (issue c l s).cmdReject = s.cmdReject := rfl

@[simp] theorem setFsm_cfg (f : Fsm) (s : State) : (setFsm f s).cfg = s.cfg := rfl
@[simp] theorem setFsm_work (f : Fsm) (s : State) : (setFsm f s).work = s.work := rfl
@[simp] theorem setFsm_res (f : Fsm) (s : State) : (setFsm f s).res = s.res := rfl
@[simp] theorem setFsm_devid (f : Fsm) (s : State) : (setFsm f s).devid = s.devid := rfl
@[simp] theorem setFsm_fsm (f : Fsm) (s : State) : (setFsm f s).fsm = f := rfl
@[simp] theorem setFsm_status (f : Fsm) (s : State) : (setFsm f s).status = s.status := rfl
@[simp] theorem setFsm_busy (f : Fsm) (s : State) : (setFsm f s).busy = s.busy := rfl
@[simp] theorem setFsm_done (f : Fsm) (s : State) : (setFsm f s).done = s.done := rfl
@[simp] theorem setFsm_label (f : Fsm) (s : State) : (setFsm f s).label = s.label := rfl
@[simp] theorem setFsm_host (f : Fsm) (s : State) : (setFsm f s).host = s.host := rfl
@[simp] theorem setFsm_tpWrites (f : Fsm) (s : State) : (setFsm f s).tpWrites = s.tpWrites := rfl
@[simp] theorem setFsm_tpReads (f : Fsm) (s : State) : (setFsm f s).tpReads = s.tpReads := rfl
@[simp] theorem setFsm_ticks (f : Fsm) (s : State) : (setFsm f s).ticks = s.ticks := rfl
@[simp] theorem setFsm_calls (f : Fsm) (s : State) : (setFsm f s).calls = s.calls := rfl
@[simp] theorem setFsm_cmdReject (f : Fsm) (s : State) : (setFsm f s).cmdReject = s.cmdReject := rfl

@[simp] theorem setWork_cfg (w : Work) (s : State) : (setWork w s).cfg = s.cfg := rfl
@[simp] theorem setWork_work (w : Work) (s : State) : (setWork w s).work = w := rfl
@[simp] theorem setWork_res (w : Work) (s : State) : (setWork w s).res = s.res := rfl
@[simp] theorem setWork_devid (w : Work) (s : State) : (setWork w s).devid = s.devid := rfl
@[simp] theorem setWork_fsm (w : Work) (s : State) : (setWork w s).fsm = s.fsm := rfl
@[simp] theorem setWork_status (w : Work) (s : State) : (setWork w s).status = s.status := rfl
@[simp] theorem setWork_busy (w : Work) (s : State) : (setWork w s).busy = s.busy := rfl
@[simp] theorem setWork_done (w : Work) (s : State) : (setWork w s).done = s.done := rfl
@[simp] theorem setWork_label (w : Work) (s : State) : (setWork w s).label = s.label := rfl
@[simp] theorem setWork_host (w : Work) (s : State) : (setWork w s).host = s.host := rfl
@[simp] theorem setWork_tpWrites (w : Work) (s : State) : (setWork w s).tpWrites = s.tpWrites := rfl
@[simp] theorem setWork_tpReads (w : Work) (s : State) : (setWork w s).tpReads = s.tpReads := rfl
@[simp] theorem setWork_ticks (w : Work) (s : State) : (setWork w s).ticks = s.ticks := rfl
@[simp] theorem setWork_calls (w : Work) (s : State) : (setWork w s).calls = s.calls := rfl
@[simp] theorem setWork_cmdReject (w : Work) (s : State) : (setWork w s).cmdReject = s.cmdReject := rfl

@[simp] theorem setRes_cfg (r : ResultRegs) (s : State) : (setRes r s).cfg = s.cfg := rfl
@[simp] theorem setRes_work (r : ResultRegs) (s : State) : (setRes r s).work = s.work := rfl
@[simp] theorem setRes_res (r : ResultRegs) (s : State) : (setRes r s).res = r := rfl
@[simp] theorem setRes_devid (r : ResultRegs) (s : State) : (setRes r s).devid = s.devid := rfl
@[simp] theorem setRes_fsm (r : ResultRegs) (s : State) : (setRes r s).fsm = s.fsm := rfl
@[simp] theorem setRes_status (r : ResultRegs) (s : State) : (setRes r s).status = s.status := rfl
@[simp] theorem setRes_busy (r : ResultRegs) (s : State) : (setRes r s).busy = s.busy := rfl
@[simp] theorem setRes_done (r : ResultRegs) (s : State) : (setRes r s).done = s.done := rfl
@[simp] theorem setRes_label (r : ResultRegs) (s : State) : (setRes r s).label = s.label := rfl
@[simp] theorem setRes_host (r : ResultRegs) (s : State) : (setRes r s).host = s.host := rfl
@[simp] theorem setRes_tpWrites (r : ResultRegs) (s : State) : (setRes r s).tpWrites = s.tpWrites := rfl
@[simp] theorem setRes_tpReads (r : ResultRegs) (s : State) : (setRes r s).tpReads = s.tpReads := rfl
@[simp] theorem setRes_ticks (r : ResultRegs) (s : State) : (setRes r s).ticks = s.ticks := rfl
@[simp] theorem setRes_calls (r : ResultRegs) (s : State) : (setRes r s).calls = s.calls := rfl
@[simp] theorem setRes_cmdReject (r : ResultRegs) (s : State) : (setRes r s).cmdReject = s.cmdReject := rfl

@[simp] theorem nextAct_cfg (s : State) : (nextAct s).cfg = s.cfg := rfl
@[simp] theorem nextAct_work (s : State) : (nextAct s).work = s.work := rfl
@[simp] theorem nextAct_res (s : State) : (nextAct s).res = s.res := rfl
@[simp] theorem nextAct_devid (s : State) : (nextAct s).devid = s.devid := rfl
@[simp] theorem nextAct_fsm (s : State) : (nextAct s).fsm = s.fsm := rfl
@[simp] theorem nextAct_status (s : State) : (nextAct s).status = s.status := rfl
@[simp] theorem nextAct_busy (s : State) : (nextAct s).busy = s.busy := rfl
@[simp] theorem nextAct_done (s : State) : (nextAct s).done = s.done := rfl
@[simp] theorem nextAct_label (s : State) : (nextAct s).label = s.label := rfl
@[simp] theorem nextAct_host (s : State) : (nextAct s).host = s.host.tail := rfl
@[simp] theorem nextAct_tpWrites (s : State) : (nextAct s).tpWrites = s.tpWrites := rfl
@[simp] theorem nextAct_tpReads (s : State) : (nextAct s).tpReads = s.tpReads := rfl
@[simp] theorem nextAct_ticks (s : State) : (nextAct s).ticks = s.ticks := rfl
@[simp] theorem nextAct_calls (s : State) : (nextAct s).calls = s.calls := rfl
@[simp] theorem nextAct_cmdReject (s : State) : (nextAct s).cmdReject = false := rfl

@[simp] theorem setTpWrites_cfg (l : List WriteAnswer) (s : State) : (setTpWrites l s).cfg = s.cfg := rfl
@[simp] theorem setTpWrites_work (l : List WriteAnswer) (s : State) : (setTpWrites l s).work = s.work := rfl
@[simp] theorem setTpWrites_res (l : List WriteAnswer) (s : State) : (setTpWrites l s).res = s.res := rfl
@[simp] theorem setTpWrites_devid (l : List WriteAnswer) (s : State) : (setTpWrites l s).devid = s.devid := rfl
@[simp] theorem setTpWrites_fsm (l : List WriteAnswer) (s : State) : (setTpWrites l s).fsm = s.fsm := rfl
@[simp] theorem setTpWrites_status (l : List WriteAnswer) (s : State) : (setTpWrites l s).status = s.status := rfl
@[simp] theorem setTpWrites_busy (l : List WriteAnswer) (s : State) : (setTpWrites l s).busy = s.busy := rfl
@[simp] theorem setTpWrites_done (l : List WriteAnswer) (s : State) : (setTpWrites l s).done = s.done := rfl
@[simp] theorem setTpWrites_label (l : List WriteAnswer) (s : State) : (setTpWrites l s).label = s.label := rfl
@[simp] theorem setTpWrites_host (l : List WriteAnswer) (s : State) : (setTpWrites l s).host = s.host := rfl
@[simp] theorem setTpWrites_tpWrites (l : List WriteAnswer) (s : State) : (setTpWrites l s).tpWrites = l := rfl
@[simp] theorem setTpWrites_tpReads (l : List WriteAnswer) (s : State) : (setTpWrites l s).tpReads = s.tpReads := rfl
@[simp] theorem setTpWrites_ticks (l : List WriteAnswer) (s : State) : (setTpWrites l s).ticks = s.ticks := rfl
@[simp] theorem setTpWrites_calls (l : List WriteAnswer) (s : State) : (setTpWrites l s).calls = s.calls := rfl
@[simp] theorem setTpWrites_cmdReject (l : List WriteAnswer) (s : State) : (setTpWrites l s).cmdReject = s.cmdReject := rfl

@[simp] theorem setTpReads_cfg (l : List ReadAnswer) (s : State) : (setTpReads l s).cfg = s.cfg := rfl
@[simp] theorem setTpReads_work (l : List ReadAnswer) (s : State) : (setTpReads l s).work = s.work := rfl
@[simp] theorem setTpReads_res (l : List ReadAnswer) (s : State) : (setTpReads l s).res = s.res := rfl
@[simp] theorem setTpReads_devid (l : List ReadAnswer) (s : State) : (setTpReads l s).devid = s.devid := rfl
@[simp] theorem setTpReads_fsm (l : List ReadAnswer) (s : State) : (setTpReads l s).fsm = s.fsm := rfl
@[simp] theorem setTpReads_status (l : List ReadAnswer) (s : State) : (setTpReads l s).status = s.status := rfl
@[simp] theorem setTpReads_busy (l : List ReadAnswer) (s : State) : (setTpReads l s).busy = s.busy := rfl
@[simp] theorem setTpReads_done (l : List ReadAnswer) (s : State) : (setTpReads l s).done = s.done := rfl
@[simp] theorem setTpReads_label (l : List ReadAnswer) (s : State) : (setTpReads l s).label = s.label := rfl
@[simp] theorem setTpReads_host (l : List ReadAnswer) (s : State) : (setTpReads l s).host = s.host := rfl
@[simp] theorem setTpReads_tpWrites (l : List ReadAnswer) (s : State) : (setTpReads l s).tpWrites = s.tpWrites := rfl
@[simp] theorem setTpReads_tpReads (l : List ReadAnswer) (s : State) : (setTpReads l s).tpReads = l := rfl
@[simp] theorem setTpReads_ticks (l : List ReadAnswer) (s : State) : (setTpReads l s).ticks = s.ticks := rfl
@[simp] theorem setTpReads_calls (l : List ReadAnswer) (s : State) : (setTpReads l s).calls = s.calls := rfl
@[simp] theorem setTpReads_cmdReject (l : List ReadAnswer) (s : State) : (setTpReads l s).cmdReject = s.cmdReject := rfl

@[simp] theorem setTicks_cfg (l : List Tick) (s : State) : (setTicks l s).cfg = s.cfg := rfl
@[simp] theorem setTicks_work (l : List Tick) (s : State) : (setTicks l s).work = s.work := rfl
@[simp] theorem setTicks_res (l : List Tick) (s : State) : (setTicks l s).res = s.res := rfl
@[simp] theorem setTicks_devid (l : List Tick) (s : State) : (setTicks l s).devid = s.devid := rfl
@[simp] theorem setTicks_fsm (l : List Tick) (s : State) : (setTicks l s).fsm = s.fsm := rfl
@[simp] theorem setTicks_status (l : List Tick) (s : State) : (setTicks l s).status = s.status := rfl
@[simp] theorem setTicks_busy (l : List Tick) (s : State) : (setTicks l s).busy = s.busy := rfl
@[simp] theorem setTicks_done (l : List Tick) (s : State) : (setTicks l s).done = s.done := rfl
@[simp] theorem setTicks_label (l : List Tick) (s : State) : (setTicks l s).label = s.label := rfl
@[simp] theorem setTicks_host (l : List Tick) (s : State) : (setTicks l s).host = s.host := rfl
@[simp] theorem setTicks_tpWrites (l : List Tick) (s : State) : (setTicks l s).tpWrites = s.tpWrites := rfl
@[simp] theorem setTicks_tpReads (l : List Tick) (s : State) : (setTicks l s).tpReads = s.tpReads := rfl
@[simp] theorem setTicks_ticks (l : List Tick) (s : State) : (setTicks l s).ticks = l := rfl
@[simp] theorem setTicks_calls (l : List Tick) (s : State) : (setTicks l s).calls = s.calls := rfl
@[simp] theorem setTicks_cmdReject (l : List Tick) (s : State) : (setTicks l s).cmdReject = s.cmdReject := rfl

end Sys2Proof.Machine
end

