-- ==== Sys2Proof/Laws/Ops.lean ====
section
/-! SUPPORT. What the shared operations do: acceptance, completion, answers of the environment. -/

namespace Sys2Proof.Machine

/-- `finish(Ok)` keeps `RES` (60_exceptions.md R176). -/
theorem finish_ok_eq (s : State) : finish .ok s = ended .ok s.res s := rfl

/-- `raise k` clears `RES` (60_exceptions.md R176). -/
theorem finish_error_eq {k : Kind} (h : k ≠ .ok) (s : State) : finish k s = ended k ResultRegs.zero s := by
  simp [finish, ended, h]

theorem onAccept_of_busy {s : State} (body : State → State) (h : s.busy = true) :
    onAccept body s = .next (reject s) := if_pos h

theorem onAccept_of_idle {s : State} (body : State → State) (h : s.busy = false) :
    onAccept body s = .next (body (accept s)) := if_neg (by simp [h])

/-- The effect of an accepted command, by instruction. -/
def startBody : Instr → State → State
  | .crc16 len data => crc16Body len data
  | .encode id command len crc data => encodeBody id command len crc data
  | .decode frame => decodeBody frame
  | .write command len data => writeBody command len data
  | .read => readBody

theorem exec_eq (i : Instr) (s : State) : exec i s = onAccept (startBody i) s := by
  cases i <;> rfl

theorem exec_of_idle (i : Instr) {s : State} (h : s.busy = false) :
    exec i s = .next (startBody i (accept s)) := by
  rw [exec_eq, onAccept_of_idle _ h]

theorem exec_of_busy (i : Instr) {s : State} (h : s.busy = true) : exec i s = .next (reject s) := by
  rw [exec_eq, onAccept_of_busy _ h]

/-- Everything `exec` can do: refuse while busy, else accept and run the body. -/
theorem exec_cases {i : Instr} {s t : State} (h : exec i s = .next t) :
    (s.busy = true ∧ t = reject s) ∨ (s.busy = false ∧ t = startBody i (accept s)) := by
  cases hb : s.busy with
  | true => rw [exec_of_busy i hb] at h; exact .inl ⟨rfl, by cases h; rfl⟩
  | false => rw [exec_of_idle i hb] at h; exact .inr ⟨rfl, by cases h; rfl⟩

/-- Everything an awaited `TpWrite` can do. -/
theorem onWritten_cases (k : State → State) (s : State) :
    (s.tpWrites = [] ∧ onWritten k s = s) ∨
    (∃ rest, s.tpWrites = .ok :: rest ∧ onWritten k s = k (setTpWrites rest s)) ∨
    (∃ rest, s.tpWrites = .ioError :: rest ∧ onWritten k s = finish .ioError (setTpWrites rest s)) := by
  unfold onWritten onWriteAnswer
  rcases h : s.tpWrites with _ | ⟨a, rest⟩
  · exact .inl ⟨rfl, rfl⟩
  · cases a
    · exact .inr (.inl ⟨rest, rfl, rfl⟩)
    · exact .inr (.inr ⟨rest, rfl, rfl⟩)

theorem onWritten_ok {s : State} {rest : List WriteAnswer} (k : State → State) (h : s.tpWrites = .ok :: rest) :
    onWritten k s = k (setTpWrites rest s) := by
  simp [onWritten, onWriteAnswer, h]

theorem onWritten_ioError {s : State} {rest : List WriteAnswer} (k : State → State)
    (h : s.tpWrites = .ioError :: rest) : onWritten k s = finish .ioError (setTpWrites rest s) := by
  simp [onWritten, onWriteAnswer, h]

theorem onWritten_waiting {s : State} (k : State → State) (h : s.tpWrites = []) : onWritten k s = s := by
  simp [onWritten, onWriteAnswer, h]

theorem onReadAnswer_cons {s : State} {a : ReadAnswer} {rest : List ReadAnswer} (k : ReadAnswer → State → State)
    (h : s.tpReads = a :: rest) : onReadAnswer k s = k a (setTpReads rest s) := by
  simp [onReadAnswer, h]

theorem onReadAnswer_waiting {s : State} (k : ReadAnswer → State → State) (h : s.tpReads = []) :
    onReadAnswer k s = s := by
  simp [onReadAnswer, h]

theorem onReadAnswer_cases (k : ReadAnswer → State → State) (s : State) :
    (s.tpReads = [] ∧ onReadAnswer k s = s) ∨
    (∃ a rest, s.tpReads = a :: rest ∧ onReadAnswer k s = k a (setTpReads rest s)) := by
  rcases h : s.tpReads with _ | ⟨a, rest⟩
  · exact .inl ⟨rfl, onReadAnswer_waiting k h⟩
  · exact .inr ⟨a, rest, rfl, onReadAnswer_cons k h⟩

theorem onTick_cons {s : State} {a : Tick} {rest : List Tick} (k : Tick → State → State) (h : s.ticks = a :: rest) :
    onTick k s = k a (setTicks rest s) := by
  simp [onTick, h]

theorem onTick_waiting {s : State} (k : Tick → State → State) (h : s.ticks = []) : onTick k s = s := by
  simp [onTick, h]

theorem onTick_cases (k : Tick → State → State) (s : State) :
    (s.ticks = [] ∧ onTick k s = s) ∨
    (∃ a rest, s.ticks = a :: rest ∧ onTick k s = k a (setTicks rest s)) := by
  rcases h : s.ticks with _ | ⟨a, rest⟩
  · exact .inl ⟨rfl, onTick_waiting k h⟩
  · exact .inr ⟨a, rest, rfl, onTick_cons k h⟩

theorem frameOf_some {c : Config} {b : List Byte} (h : b.length = c.F) : frameOf c (.bytes b) = some b := if_pos h

theorem frameOf_eq_some {c : Config} {a : ReadAnswer} {b : List Byte} (h : frameOf c a = some b) :
    a = .bytes b ∧ b.length = c.F := by
  cases a with
  | failure => cases h
  | bytes b' =>
    by_cases hl : b'.length = c.F
    · rw [frameOf_some hl] at h; cases h; exact ⟨rfl, hl⟩
    · simp [frameOf, hl] at h

theorem frameOf_none {c : Config} {a : ReadAnswer} (h : ∀ b, a = .bytes b → b.length ≠ c.F) : frameOf c a = none := by
  cases hf : frameOf c a with
  | none => rfl
  | some b => obtain ⟨ha, hb⟩ := frameOf_eq_some hf; exact absurd hb (h b ha)

/-- A present or legally absent operand is neither missing nor other than its bytes (30_encoding.md R72). -/
theorem operand_of_supplies {data : Operand} {len : Half} {bytes : List Byte} (h : Supplies data len bytes) :
    operandMissing len data = false ∧ operandBytes len data = bytes := by
  obtain ⟨hl, rfl | ⟨rfl, rfl⟩⟩ := h
  · exact ⟨by simp [operandMissing], by simp [operandBytes, ← hl]⟩
  · have : len = 0#16 := by apply BitVec.eq_of_toNat_eq; simpa using hl.symm
    subst this
    exact ⟨by decide, rfl⟩

/-- `TXP.payload` holds the request's bytes (41_framer.md R103, 42_sender.md R122). -/
theorem requestPacket_payload (id command : Byte) {len : Half} (crc : Half) {data : Operand} {bytes : List Byte}
    (h : Supplies data len bytes) :
    Memory.readBytes (requestPacket id command len crc data).payload 0 len.toNat = bytes := by
  have e : (requestPacket id command len crc data).payload = Memory.ofBytes bytes :=
    congrArg Memory.ofBytes (operand_of_supplies h).2
  rw [e, ← h.1, Memory.readBytes_ofBytes]

theorem tooLong_eq_true {c : Config} {len : Half} (h : c.maxp < len.toNat) : tooLong c len = true := by
  simp [tooLong, h]

theorem tooLong_eq_false {c : Config} {len : Half} (h : len.toNat ≤ c.maxp) : tooLong c len = false := by
  simpa [tooLong] using h

theorem operandMissing_none {len : Half} (h : 0 < len.toNat) : operandMissing len none = true := by
  simp [operandMissing]
  rintro rfl
  simp at h

end Sys2Proof.Machine
end

