-- ==== Sys2Proof/Laws/Step.lean ====
section
/-! SUPPORT. What a step can do, said once: the host's act, or the running operation goes on. -/

namespace Sys2Proof.Machine

theorem step_valid {s : State} (h : s.cfg.Valid) : step s = hostStep s := if_pos h

theorem valid_of_step {s t : State} (h : step s = .next t) : s.cfg.Valid := by
  by_contra hv
  rw [step, if_neg hv] at h
  cases h

theorem step_quiet {s : State} (h : s.cfg.Valid) (hq : Quiet s) : step s = .next (advance (nextAct s)) := by
  rw [step_valid h, hostStep]
  rcases hh : s.host with _ | ⟨a, rest⟩
  · rfl
  · have : a = .wait := by simpa [Quiet, hh] using hq
    subst this
    rfl

theorem step_start {s : State} {r : Request} {rest : List HostAct} (h : s.cfg.Valid) (hh : s.host = .start r :: rest) :
    step s = hostStart r (nextAct s) := by
  rw [step_valid h, hostStep, hh]

theorem step_setDevId {s : State} {v : Byte} {rest : List HostAct} (h : s.cfg.Valid)
    (hh : s.host = .setDevId v :: rest) : step s = .next (hostSetDevId v (nextAct s)) := by
  rw [step_valid h, hostStep, hh]

theorem step_rst {s : State} {rest : List HostAct} (h : s.cfg.Valid) (hh : s.host = .rst :: rest) :
    step s = .next (hostReset (nextAct s)) := by
  rw [step_valid h, hostStep, hh]

theorem hostStart_some {s : State} {r : Request} {i : Instr} (hd : decode r = some i)
    (hw : s.busy = true ∨ i.wf s.cfg = true) : hostStart r s = exec i s := by
  rw [hostStart, hd]
  simp only
  rw [if_pos (by simpa using hw)]

/-- Everything a step that answers a next state can do. -/
theorem step_cases {s t : State} (h : step s = .next t) : s.cfg.Valid ∧
    ((Quiet s ∧ t = advance (nextAct s)) ∨
     (∃ r rest, s.host = .start r :: rest ∧
       (t = reject (nextAct s) ∨ ∃ i, decode r = some i ∧ exec i (nextAct s) = .next t)) ∨
     (∃ v rest, s.host = .setDevId v :: rest ∧ t = hostSetDevId v (nextAct s)) ∨
     (∃ rest, s.host = .rst :: rest ∧ t = hostReset (nextAct s))) := by
  have hv := valid_of_step h
  refine ⟨hv, ?_⟩
  rcases hh : s.host with _ | ⟨a, rest⟩
  · have hq : Quiet s := by simp [Quiet, hh]
    rw [step_quiet hv hq] at h
    exact .inl ⟨by simp [Quiet, hh], by cases h; rfl⟩
  · cases a with
    | wait =>
      have hq : Quiet s := by simp [Quiet, hh]
      rw [step_quiet hv hq] at h
      exact .inl ⟨by simp [Quiet, hh], by cases h; rfl⟩
    | start r =>
      rw [step_start hv hh, hostStart] at h
      refine .inr (.inl ⟨r, rest, rfl, ?_⟩)
      split at h
      · exact .inl (by cases h; rfl)
      · rename_i i hd
        split at h
        · exact .inr ⟨i, hd, h⟩
        · cases h
    | setDevId v =>
      rw [step_setDevId hv hh] at h
      exact .inr (.inr (.inl ⟨v, rest, rfl, by cases h; rfl⟩))
    | rst =>
      rw [step_rst hv hh] at h
      exact .inr (.inr (.inr ⟨rest, rfl, by cases h; rfl⟩))

end Sys2Proof.Machine
end

