-- ==== Sys2Proof/Laws/Sender.lean ====
section
/-! SUPPORT. What each point of WRITE does with the answer it waits for. -/

namespace Sys2Proof.Machine

/-- Elapsed time as a number (60_exceptions.md R191). -/
theorem elapsed_toNat (now : Tick) (s : State) :
    (elapsed now s).toNat = (now.toNat + 2 ^ 32 - s.work.start.toNat) % 2 ^ 32 := by
  have := s.work.start.isLt
  rw [elapsed, BitVec.toNat_sub]
  simp only [tickWidth] at *
  congr 1
  omega

theorem guardFails_iff (now : Tick) (s : State) :
    guardFails now s = true ↔
      (s.cfg.maxAttempts < s.work.cont.toNat ∨ s.work.budget.toNat < (elapsed now s).toNat) := by
  simp [guardFails, BitVec.lt_def]

theorem gateOpen_iff (now : Tick) (s : State) :
    gateOpen now s = true ↔ s.work.cont.toNat * s.cfg.retryInterval ≤ (elapsed now s).toNat := by
  simp [gateOpen]

/-- `Resend` as the statements write it (42_sender.md R132). -/
theorem resend_eq (s : State) : resend s = resent s.work s := by
  unfold resend resent
  split <;> rfl

theorem frameBytes_ofBytes {c : Config} {b : List Byte} (h : b.length = c.F) :
    frameBytes c (Memory.ofBytes b) = b := by
  rw [frameBytes, ← h, Memory.readBytes_ofBytes]

/-- The receive side after a frame with a legal `length` byte. -/
theorem receiveFrame_of_le {s : State} {b : List Byte} (hF : 5 ≤ s.cfg.F) (h : b.length = s.cfg.F)
    (hl : (b.getD 2 0#8).toNat ≤ s.cfg.maxp) :
    receiveFrame b s = setWork { s.work with rxf := Memory.ofBytes b, rxp := packetOf s.cfg b } s := by
  simp only [receiveFrame, dec_ofBytes hF h hl, Option.getD_some]

/-- `W7` on a good frame: ACK, NACK, or another command (42_sender.md R129, R130, R131). -/
theorem senderW7_good {s : State} {b : List Byte} (hF : 5 ≤ s.cfg.F) (h : GoodFrame s.cfg b) :
    senderW7 b s =
      if b.getD 1 0#8 = s.cfg.ackCode then
        finish .ok (setWork { (receiveFrame b s).work with acked := true } (receiveFrame b s))
      else if b.getD 1 0#8 = s.cfg.nackCode then resend (extendBudget (receiveFrame b s))
      else awaitReply (receiveFrame b s) := by
  have hk : frameCrcOk (receiveFrame b s).cfg (receiveFrame b s).work.rxf = true :=
    (frameCrcOk_ofBytes hF h.1).2 h
  have hc : (receiveFrame b s).work.rxp.command = b.getD 1 0#8 := by
    rw [receiveFrame_of_le hF h.1 h.2.1]; rfl
  unfold senderW7
  simp only
  rw [if_neg (by simp [hk]), hc]
  rfl

/-- `W7` on `F` bytes that are no good frame: noise (42_sender.md R128). -/
theorem senderW7_noise {s : State} {b : List Byte} (hF : 5 ≤ s.cfg.F) (hb : b.length = s.cfg.F)
    (h : ¬GoodFrame s.cfg b) : senderW7 b s = resend (receiveFrame b s) := by
  have hk : frameCrcOk (receiveFrame b s).cfg (receiveFrame b s).work.rxf = false :=
    Bool.eq_false_iff.2 fun hk => h ((frameCrcOk_ofBytes hF hb).1 hk)
  unfold senderW7
  simp only
  rw [if_pos hk]

/-- `W6` with a frame goes on at `W7`. -/
theorem senderW6_frame {s : State} {b : List Byte} {rest : List ReadAnswer} (h : s.tpReads = .bytes b :: rest)
    (hb : b.length = s.cfg.F) : senderW6 s = senderW7 b (setTpReads rest s) := by
  rw [senderW6, onReadAnswer_cons _ h]
  simp only [setTpReads_cfg, frameOf_some hb]

/-- `W6` with anything else goes back to the guard (20_memory.md R46). -/
theorem senderW6_noFrame {s : State} {a : ReadAnswer} {rest : List ReadAnswer} (h : s.tpReads = a :: rest)
    (ha : ∀ b, a = .bytes b → b.length ≠ s.cfg.F) : senderW6 s = awaitReply (setTpReads rest s) := by
  rw [senderW6, onReadAnswer_cons _ h]
  simp only [setTpReads_cfg, frameOf_none ha]

/-- `W5`: the guard, then the gate (42_sender.md R125, R126). -/
theorem senderW5_tick {s : State} {now : Tick} {rest : List Tick} (h : s.ticks = now :: rest) :
    senderW5 s =
      if guardFails now (setTicks rest s) then finish .ackTimeout (setTicks rest s)
      else if gateOpen now (setTicks rest s) then issue (.tpRead s.cfg.F s.cfg.pollTimeout) .w6 (setTicks rest s)
      else awaitReply (setTicks rest s) := by
  rw [senderW5, onTick_cons _ h]
  rfl

end Sys2Proof.Machine
end

