-- ==== Sys2Proof/Laws/Receiver.lean ====
section
/-! SUPPORT. What each point of READ does with the answer it waits for. -/

namespace Sys2Proof.Machine

/-- `RD3` with a frame goes on at `RD4`. -/
theorem receiverRD3_frame {s : State} {b : List Byte} {rest : List ReadAnswer} (h : s.tpReads = .bytes b :: rest)
    (hb : b.length = s.cfg.F) : receiverRD3 s = receiverRD4 b (setTpReads rest s) := by
  rw [receiverRD3, onReadAnswer_cons _ h]
  simp only [setTpReads_cfg, frameOf_some hb]

/-- `RD3` with anything else sends the NACK frame (43_receiver.md R153). -/
theorem receiverRD3_noFrame {s : State} {a : ReadAnswer} {rest : List ReadAnswer} (h : s.tpReads = a :: rest)
    (ha : ∀ b, a = .bytes b → b.length ≠ s.cfg.F) : receiverRD3 s = sendFrame .rd3Nack (setTpReads rest s) := by
  rw [receiverRD3, onReadAnswer_cons _ h]
  simp only [setTpReads_cfg, frameOf_none ha]

/-- `RD4` on a bad `length` byte (43_receiver.md R154). -/
theorem receiverRD4_badLength {s : State} {b : List Byte} (hF : 5 ≤ s.cfg.F) (hb : b.length = s.cfg.F)
    (h : s.cfg.maxp < (b.getD 2 0#8).toNat ∨ (b.getD 2 0#8).toNat < s.cfg.minLen.toNat) :
    receiverRD4 b s = finish .lengthError (receiveFrame b s) := by
  unfold receiverRD4
  simp only
  by_cases hl : (b.getD 2 0#8).toNat ≤ s.cfg.maxp
  · have hd : dec (receiveFrame b s).cfg (receiveFrame b s).work.rxf = some (packetOf s.cfg b) := dec_ofBytes hF hb hl
    have hr : Memory.read (receiveFrame b s).work.rxf 2 = b.getD 2 0#8 := Memory.read_ofBytes b 2
    rw [hd]
    simp only
    rw [hr, if_pos (by rw [BitVec.lt_def]; exact h.resolve_left (by omega))]
  · have hd : dec (receiveFrame b s).cfg (receiveFrame b s).work.rxf = none := dec_ofBytes_none (Nat.lt_of_not_le hl)
    rw [hd]

/-- `RD5` on a legal length: the NACK frame for a checksum that differs, the ACK frame for one that matches (43_receiver.md R156 to
R158). -/
theorem receiverRD4_goodLength {s : State} {b : List Byte} (hF : 5 ≤ s.cfg.F) (hb : b.length = s.cfg.F)
    (hl : (b.getD 2 0#8).toNat ≤ s.cfg.maxp) (hm : s.cfg.minLen.toNat ≤ (b.getD 2 0#8).toNat) :
    receiverRD4 b s =
      if CrcMatches s.cfg b then replyAck (receiveFrame b s) else sendFrame .rd5Nack (receiveFrame b s) := by
  have hd : dec (receiveFrame b s).cfg (receiveFrame b s).work.rxf = some (packetOf s.cfg b) := dec_ofBytes hF hb hl
  have hr : Memory.read (receiveFrame b s).work.rxf 2 = b.getD 2 0#8 := Memory.read_ofBytes b 2
  have hc : frameCrc (receiveFrame b s).cfg (receiveFrame b s).work.rxf = crc16 s.cfg.crcPoly (b.take (s.cfg.F - 2)) :=
    frameCrc_ofBytes hb
  have hmin : ¬Memory.read (receiveFrame b s).work.rxf 2 < (receiveFrame b s).cfg.minLen := by
    rw [hr, BitVec.lt_def]; exact Nat.not_lt.2 hm
  unfold receiverRD4
  simp only
  rw [hd]
  simp only
  rw [if_neg hmin, hc]
  have hi : (packetOf s.cfg b).crc = crc16 s.cfg.crcPoly (b.take (s.cfg.F - 2)) ↔ CrcMatches s.cfg b := crcMatches_iff
  by_cases hk : CrcMatches s.cfg b
  · rw [if_pos hk, if_neg (by simpa using hi.2 hk)]
  · rw [if_neg hk, if_pos (fun h => hk (hi.1 h))]

end Sys2Proof.Machine
end

