-- ==== Sys2Proof/Laws/Advance.lean ====
section
/-! SUPPORT. Everything one step of a running operation can do, said once: it waits, ends, or makes its next call. -/

namespace Sys2Proof.Machine

/-- `s` with the working state `w` and other answers still to come. -/
def taking (w : Work) (ws : List WriteAnswer) (rs : List ReadAnswer) (ts : List Tick) (s : State) : State :=
  setWork w (setTpWrites ws (setTpReads rs (setTicks ts s)))

/-- The working state `w` transmits what `s` transmits. -/
abbrev SameFrame (s : State) (w : Work) : Prop := w.txp = s.work.txp ∧ w.txf = s.work.txf

/-- The calls a running operation makes from each point, with the working state, the next point and the value of `FSM` (42_sender.md
R120, 43_receiver.md R150). -/
inductive NextCall (s : State) (w : Work) : Call → Label → Fsm → Prop where
  | firstSent : s.label = .w3 → w = s.work → NextCall s w .clkNow .w4 .txAwait
  | loopSetUp : s.label = .w4 → SameFrame s w → w.cont = 0#8 → NextCall s w .clkNow .w5 s.fsm
  | gateShut : s.label = .w5 → w = s.work → NextCall s w .clkNow .w5 s.fsm
  | gateOpen : s.label = .w5 → w = s.work → w.cont.toNat ≤ s.cfg.maxAttempts →
      NextCall s w (.tpRead s.cfg.F s.cfg.pollTimeout) .w6 s.fsm
  | ignored : s.label = .w6 → SameFrame s w → w.cont = s.work.cont → NextCall s w .clkNow .w5 s.fsm
  | counted : s.label = .w6 → SameFrame s w → s.cfg.maxAttempts ≤ s.work.cont.toNat → w.cont = s.work.cont + 1#8 →
      NextCall s w .clkNow .w5 s.fsm
  | resent : s.label = .w6 → SameFrame s w → s.work.cont.toNat < s.cfg.maxAttempts → w.cont = s.work.cont →
      NextCall s w (.tpWrite (frameBytes s.cfg s.work.txf)) .w8 .txSent
  | resendCounted : s.label = .w8 → w = { s.work with cont := s.work.cont + 1#8 } →
      NextCall s w .clkNow .w5 .txAwait
  | receives : s.label = .rd2 → NextCall s w (.tpRead s.cfg.F s.cfg.rxTimeout) .rd3 .rxAwait
  | noFrame : s.label = .rd3 → SameFrame s w →
      NextCall s w (.tpWrite (frameBytes s.cfg s.work.txf)) .rd3Nack s.fsm
  | badChecksum : s.label = .rd3 → SameFrame s w →
      NextCall s w (.tpWrite (frameBytes s.cfg s.work.txf)) .rd5Nack s.fsm
  | goodFrame : s.label = .rd3 → NextCall s w (.tpWrite (frameBytes s.cfg w.txf)) .rd6 s.fsm

/-- One step of the running operation: it goes on waiting, it ends, or it makes its next call. A READ ends with `LengthError` only
before it has answered. -/
inductive Advances (s : State) : State → Prop where
  | waits : Advances s s
  | ends (k : Kind) (r : ResultRegs) (w : Work) (ws : List WriteAnswer) (rs : List ReadAnswer) (ts : List Tick) :
      s.label ≠ .none → s.label ≠ .rd2 → (k = .lengthError → s.label = .rd3) →
      (s.label = .rd3 → k = .lengthError) → Advances s (finish k (setRes r (taking w ws rs ts s)))
  | calls (w : Work) (ws : List WriteAnswer) (rs : List ReadAnswer) (ts : List Tick) (c : Call) (l : Label) (f : Fsm) :
      NextCall s w c l f → Advances s (issue c l (setFsm f (taking w ws rs ts s)))

/-- An awaited `TpWrite` inside an operation. -/
theorem advances_onWritten {k : State → State} {s : State} (h1 : s.label ≠ .none) (h2 : s.label ≠ .rd2)
    (h3 : s.label ≠ .rd3) (hk : ∀ rest, Advances s (k (setTpWrites rest s))) : Advances s (onWritten k s) := by
  rcases onWritten_cases k s with ⟨_, e⟩ | ⟨rest, _, e⟩ | ⟨rest, _, e⟩
  · rw [e]; exact .waits
  · rw [e]; exact hk rest
  · rw [e]
    exact .ends .ioError s.res s.work rest s.tpReads s.ticks h1 h2 (fun h => nomatch h) (fun h => absurd h h3)

theorem advances_w5 {s : State} (hl : s.label = .w5) : Advances s (senderW5 s) := by
  rcases onTick_cases (fun now t =>
    if guardFails now t then finish .ackTimeout t
    else if gateOpen now t then issue (.tpRead t.cfg.F t.cfg.pollTimeout) .w6 t
    else awaitReply t) s with ⟨_, e⟩ | ⟨now, rest, _, e⟩
  · rw [senderW5, e]; exact .waits
  · rw [senderW5, e]
    split_ifs with hg
    · exact .ends .ackTimeout s.res s.work s.tpWrites s.tpReads rest (by simp [hl]) (by simp [hl])
        (fun h => nomatch h) (by simp [hl])
    · refine .calls s.work s.tpWrites s.tpReads rest _ _ s.fsm (.gateOpen hl rfl ?_)
      rw [guardFails_iff, not_or] at hg
      exact Nat.not_lt.1 hg.1
    · exact .calls s.work s.tpWrites s.tpReads rest _ _ s.fsm (.gateShut hl rfl)

/-- A reply that leads to `Resend`, whatever it did to the working state before (42_sender.md R132). -/
theorem advances_resend {s t : State} {w : Work} {rest : List ReadAnswer} (hl : s.label = .w6) (hw : SameFrame s w)
    (hc : w.cont = s.work.cont) (ht : t = taking w s.tpWrites rest s.ticks s) : Advances s (resend t) := by
  subst ht
  rw [resend_eq, resent]
  split_ifs with h
  · have := NextCall.resent hl hw (by simpa [taking, hc] using h) hc
    rw [← hw.2] at this
    exact .calls w s.tpWrites rest s.ticks _ _ _ this
  · exact .calls { w with cont := w.cont + 1#8 } s.tpWrites rest s.ticks _ _ s.fsm
      (.counted hl hw (by simpa [taking, hc] using h) (by rw [hc]))

theorem advances_w6 {s : State} (hF : 5 ≤ s.cfg.F) (hl : s.label = .w6) : Advances s (senderW6 s) := by
  rcases h : s.tpReads with _ | ⟨a, rest⟩
  · rw [senderW6, onReadAnswer_waiting _ h]; exact .waits
  by_cases ha : ∀ b, a = .bytes b → b.length ≠ s.cfg.F
  · rw [senderW6_noFrame h ha]
    exact .calls s.work s.tpWrites rest s.ticks _ _ s.fsm (.ignored hl ⟨rfl, rfl⟩ rfl)
  · push Not at ha
    obtain ⟨b, rfl, hb⟩ := ha
    rw [senderW6_frame h hb]
    by_cases hg : GoodFrame s.cfg b
    · rw [senderW7_good (s := setTpReads rest s) hF hg]
      split_ifs
      · exact .ends .ok s.res _ s.tpWrites rest s.ticks (by simp [hl]) (by simp [hl]) (fun h => nomatch h)
          (by simp [hl])
      · refine advances_resend (w := (extendBudget (receiveFrame b (setTpReads rest s))).work) (rest := rest) hl ?_ ?_ ?_
        · unfold extendBudget; split <;> exact ⟨rfl, rfl⟩
        · unfold extendBudget; split <;> rfl
        · unfold extendBudget; split <;> rfl
      · exact .calls (receiveFrame b (setTpReads rest s)).work s.tpWrites rest s.ticks _ _ s.fsm
          (.ignored hl ⟨rfl, rfl⟩ rfl)
    · rw [senderW7_noise (s := setTpReads rest s) hF hb hg]
      exact advances_resend (w := (receiveFrame b (setTpReads rest s)).work) (rest := rest) hl ⟨rfl, rfl⟩ rfl rfl

theorem advances_rd3 {s : State} (hF : 5 ≤ s.cfg.F) (hl : s.label = .rd3) : Advances s (receiverRD3 s) := by
  rcases h : s.tpReads with _ | ⟨a, rest⟩
  · rw [receiverRD3, onReadAnswer_waiting _ h]; exact .waits
  by_cases ha : ∀ b, a = .bytes b → b.length ≠ s.cfg.F
  · rw [receiverRD3_noFrame h ha]
    exact .calls s.work s.tpWrites rest s.ticks _ _ s.fsm (.noFrame hl ⟨rfl, rfl⟩)
  · push Not at ha
    obtain ⟨b, rfl, hb⟩ := ha
    rw [receiverRD3_frame h hb]
    by_cases hbad : s.cfg.maxp < (b.getD 2 0#8).toNat ∨ (b.getD 2 0#8).toNat < s.cfg.minLen.toNat
    · rw [receiverRD4_badLength (s := setTpReads rest s) hF hb hbad]
      exact .ends .lengthError s.res _ s.tpWrites rest s.ticks (by simp [hl]) (by simp [hl]) (fun _ => hl) (fun _ => rfl)
    · push Not at hbad
      rw [receiverRD4_goodLength (s := setTpReads rest s) hF hb hbad.1 hbad.2]
      split_ifs
      · exact .calls (replyAck (receiveFrame b (setTpReads rest s))).work s.tpWrites rest s.ticks _ _ s.fsm
          (.goodFrame hl)
      · exact .calls (receiveFrame b (setTpReads rest s)).work s.tpWrites rest s.ticks _ _ s.fsm
          (.badChecksum hl ⟨rfl, rfl⟩)

/-- Everything one step of a running operation can do. -/
theorem advance_cases {s : State} (hF : 5 ≤ s.cfg.F) : Advances s (advance s) := by
  unfold advance
  cases hl : s.label with
  | none => exact .waits
  | w3 =>
    exact advances_onWritten (by simp [hl]) (by simp [hl]) (by simp [hl]) fun rest =>
      .calls s.work rest s.tpReads s.ticks _ _ _ (.firstSent hl rfl)
  | w4 =>
    rcases h : s.ticks with _ | ⟨now, rest⟩
    · rw [senderW4, onTick_waiting _ h]; exact .waits
    · rw [senderW4, onTick_cons _ h]
      exact .calls { s.work with
          start := now
          cont := 0#8
          budget := BitVec.ofNat tickWidth s.cfg.maxAckWait
          ext := false
          acked := false } s.tpWrites s.tpReads rest _ _ s.fsm (.loopSetUp hl ⟨rfl, rfl⟩ rfl)
  | w5 => exact advances_w5 hl
  | w6 => exact advances_w6 hF hl
  | w8 =>
    exact advances_onWritten (by simp [hl]) (by simp [hl]) (by simp [hl]) fun rest =>
      .calls _ rest s.tpReads s.ticks _ _ _ (.resendCounted hl rfl)
  | rd2 => exact .calls _ s.tpWrites s.tpReads s.ticks _ _ _ (.receives hl)
  | rd3 => exact advances_rd3 hF hl
  | rd3Nack =>
    exact advances_onWritten (by simp [hl]) (by simp [hl]) (by simp [hl]) fun rest =>
      .ends .noData s.res s.work rest s.tpReads s.ticks (by simp [hl]) (by simp [hl]) (fun h => nomatch h) (by simp [hl])
  | rd5Nack =>
    exact advances_onWritten (by simp [hl]) (by simp [hl]) (by simp [hl]) fun rest =>
      .ends .crcError s.res s.work rest s.tpReads s.ticks (by simp [hl]) (by simp [hl]) (fun h => nomatch h) (by simp [hl])
  | rd6 =>
    exact advances_onWritten (by simp [hl]) (by simp [hl]) (by simp [hl]) fun rest =>
      .ends .ok _ s.work rest s.tpReads s.ticks (by simp [hl]) (by simp [hl]) (fun h => nomatch h) (by simp [hl])

/-- What an accepted command does in its own step: it ends, or it makes its first call (92_eei_decisions.md D41). -/
inductive Starts (s : State) : Instr → State → Prop where
  | ends (i : Instr) (k : Kind) (r : ResultRegs) (w : Work) : i ≠ .read →
      Starts s i (finish k (setRes r (setWork w (accept s))))
  | transmits (command : Byte) (len : Half) (data : Operand) (w : Work) : w.cont = 0#8 → len.toNat ≤ s.cfg.maxp →
      Starts s (.write command len data)
        (issue (.tpWrite (frameBytes s.cfg w.txf)) .w3 (setFsm .txSent (setWork w (accept s))))
  | flushes : Starts s .read (issue .tpFlush .rd2 (accept s))

/-- Everything an accepted command can do. -/
theorem start_cases (i : Instr) (s : State) : Starts s i (startBody i (accept s)) := by
  cases i with
  | crc16 len data =>
    simp only [startBody, crc16Body]
    split_ifs
    · exact .ends _ .invalidArgument ResultRegs.zero Work.zero (by simp)
    · exact .ends _ .ok _ Work.zero (by simp)
  | encode id command len crc data =>
    simp only [startBody, encodeBody]
    split_ifs
    · exact .ends _ .lengthError ResultRegs.zero Work.zero (by simp)
    · exact .ends _ .invalidArgument ResultRegs.zero Work.zero (by simp)
    · exact .ends _ .ok _ _ (by simp)
  | decode frame =>
    cases frame with
    | none => exact .ends _ .invalidArgument ResultRegs.zero Work.zero (by simp)
    | some b =>
      simp only [startBody, decodeBody]
      split
      · exact .ends _ .lengthError ResultRegs.zero _ (by simp)
      · exact .ends _ .ok _ _ (by simp)
  | write command len data =>
    simp only [startBody, writeBody]
    split_ifs with h
    · exact .ends _ .lengthError ResultRegs.zero Work.zero (by simp)
    · exact .ends _ .invalidArgument ResultRegs.zero Work.zero (by simp)
    · exact .transmits _ _ _ (writeBuild command len data (accept s)).work rfl (Nat.not_lt.1 fun hx => h (tooLong_eq_true hx))
  | read => exact .flushes

end Sys2Proof.Machine
end

