-- ==== Sys2Proof/Laws/Run.lean ====
section
/-! SUPPORT. Runs of several steps, and the calls one counts in them. -/

namespace Sys2Proof.Machine

/-- A run goes on from the state its first step answers. -/
theorem run_succ_of (M : Host.Core) {s t : M.State} (n : Nat) (h : M.step s = .next t) :
    M.run (n + 1) s = M.run n t := by
  rw [Host.Core.run, h]

/-- A run that answers a next state takes its first step. -/
theorem run_succ_next_of (M : Host.Core) {s t : M.State} {n : Nat} (h : M.run (n + 1) s = .next t) :
    ∃ u, M.step s = .next u ∧ M.run n u = .next t := by
  rw [Host.Core.run] at h
  cases hs : M.step s with
  | next u => rw [hs] at h; exact ⟨u, rfl, h⟩
  | fault r => rw [hs] at h; cases h
  | refused r => rw [hs] at h; cases h

/-- `After` is the run of the host's interface. -/
theorem after_iff_run (n : Nat) (s t : State) : After n s t ↔ Host.Core.run Sys2Proof.core n s = .next t := by
  induction n generalizing s with
  | zero => exact ⟨fun h => congrArg Host.Outcome.next h, fun h => by injection h⟩
  | succ n ih =>
    constructor
    · rintro ⟨u, hu, h⟩
      exact (run_succ_of Sys2Proof.core n hu).trans ((ih u).1 h)
    · intro h
      obtain ⟨u, hu, hr⟩ := run_succ_next_of Sys2Proof.core h
      exact ⟨u, hu, (ih u).2 hr⟩

/-- A host that only waits leaves the running operation going. -/
theorem quiet_of_allWait {s : State} (h : AllWait s.host) : Quiet s := by
  cases hh : s.host with
  | nil => simp [Quiet, hh]
  | cons a l => simpa [Quiet, hh] using h a (by simp [hh])

theorem allWait_tail {l : List HostAct} (h : AllWait l) : AllWait l.tail :=
  fun a ha => h a (List.mem_of_mem_tail ha)

@[simp] theorem writesIn_append (a b : List Call) : writesIn (a ++ b) = writesIn a + writesIn b := by
  simp [writesIn]

@[simp] theorem writesIn_tpWrite (f : List Byte) : writesIn [.tpWrite f] = 1 := rfl
@[simp] theorem writesIn_tpRead (n t : Nat) : writesIn [.tpRead n t] = 0 := rfl
@[simp] theorem writesIn_tpFlush : writesIn [.tpFlush] = 0 := rfl
@[simp] theorem writesIn_clkNow : writesIn [.clkNow] = 0 := rfl

/-! ### Answers of an environment -/

@[simp] theorem answeredBy_cfg (e : Environment) (m : Nat) (s : State) : (answeredBy e m s).cfg = s.cfg := rfl
@[simp] theorem answeredBy_work (e : Environment) (m : Nat) (s : State) : (answeredBy e m s).work = s.work := rfl
@[simp] theorem answeredBy_res (e : Environment) (m : Nat) (s : State) : (answeredBy e m s).res = s.res := rfl
@[simp] theorem answeredBy_devid (e : Environment) (m : Nat) (s : State) : (answeredBy e m s).devid = s.devid := rfl
@[simp] theorem answeredBy_fsm (e : Environment) (m : Nat) (s : State) : (answeredBy e m s).fsm = s.fsm := rfl
@[simp] theorem answeredBy_status (e : Environment) (m : Nat) (s : State) : (answeredBy e m s).status = s.status := rfl
@[simp] theorem answeredBy_busy (e : Environment) (m : Nat) (s : State) : (answeredBy e m s).busy = s.busy := rfl
@[simp] theorem answeredBy_done (e : Environment) (m : Nat) (s : State) : (answeredBy e m s).done = s.done := rfl
@[simp] theorem answeredBy_label (e : Environment) (m : Nat) (s : State) : (answeredBy e m s).label = s.label := rfl
@[simp] theorem answeredBy_host (e : Environment) (m : Nat) (s : State) : (answeredBy e m s).host = s.host := rfl
@[simp] theorem answeredBy_calls (e : Environment) (m : Nat) (s : State) : (answeredBy e m s).calls = s.calls := rfl
@[simp] theorem answeredBy_cmdReject (e : Environment) (m : Nat) (s : State) :
    (answeredBy e m s).cmdReject = s.cmdReject := rfl
theorem answeredBy_tpWrites (e : Environment) (m : Nat) (s : State) :
    (answeredBy e m s).tpWrites = (List.range m).map e.writes := rfl
theorem answeredBy_tpReads (e : Environment) (m : Nat) (s : State) :
    (answeredBy e m s).tpReads = (List.range m).map e.reads := rfl
theorem answeredBy_ticks (e : Environment) (m : Nat) (s : State) :
    (answeredBy e m s).ticks = (List.range m).map e.clock := rfl

/-- What is left of the first `m` answers of an endless sequence once `i` of them are taken. -/
def answersFrom {α : Type} (f : Nat → α) (i m : Nat) : List α := ((List.range m).map f).drop i

@[simp] theorem answersFrom_zero {α : Type} (f : Nat → α) (m : Nat) : answersFrom f 0 m = (List.range m).map f := rfl

/-- The next answer is the one numbered `i`. -/
theorem answersFrom_of_lt {α : Type} (f : Nat → α) {i m : Nat} (h : i < m) :
    answersFrom f i m = f i :: answersFrom f (i + 1) m := by
  rw [answersFrom, List.drop_eq_getElem_cons (by simpa using h)]
  simp [answersFrom]

/-- Runs one after the other. -/
theorem after_append {n k : Nat} {s t u : State} (h : After n s t) (h' : After k t u) : After (n + k) s u := by
  induction n generalizing s with
  | zero => rw [Nat.zero_add]; cases h; exact h'
  | succ n ih =>
    obtain ⟨v, hv, h⟩ := h
    rw [Nat.add_right_comm]
    exact ⟨v, hv, ih h⟩

end Sys2Proof.Machine
end

