-- ==== Sys2Proof/Laws/Loop.lean ====
section
/-! SUPPORT. One turn of WRITE's wait loop under an environment that answers every call: at most three steps, after which the
WRITE has ended or stands at the guard again with the next clock answer to come (42_sender.md R125 to R132). -/

namespace Sys2Proof.Machine

/-- The loaded `BUDGET` (10_state.md R24). -/
theorem toNat_maxAckWait {c : Config} (h : c.Valid) : (BitVec.ofNat tickWidth c.maxAckWait).toNat = c.maxAckWait := by
  have := h.2.2.2.2.1
  rw [BitVec.toNat_ofNat, Nat.mod_eq_of_lt (by simp only [tickWidth] at *; omega)]

theorem step_w5 {s : State} (h : s.cfg.Valid) (hq : Quiet s) (hl : s.label = .w5) :
    step s = .next (senderW5 (nextAct s)) := by
  rw [step_quiet h hq, advance, nextAct_label, hl]

theorem step_w6 {s : State} (h : s.cfg.Valid) (hq : Quiet s) (hl : s.label = .w6) :
    step s = .next (senderW6 (nextAct s)) := by
  rw [step_quiet h hq, advance, nextAct_label, hl]

theorem step_w8 {s : State} (h : s.cfg.Valid) (hq : Quiet s) (hl : s.label = .w8) :
    step s = .next (senderW8 (nextAct s)) := by
  rw [step_quiet h hq, advance, nextAct_label, hl]

/-- `u` stands at the point `l` of the loop of a WRITE with the parameters `c`: answers number `j` of the clock, `p` of the
reads and `q` of the writes come next out of the first `m`, `START` is `clock 0`, and `BUDGET` is extended only after a NACK. -/
structure LoopAt (c : Config) (e : Environment) (m : Nat) (l : Label) (j p q : Nat) (u : State) : Prop where
  cfg : u.cfg = c
  wait : AllWait u.host
  busy : u.busy = true
  label : u.label = l
  ticks : u.ticks = answersFrom e.clock j m
  reads : u.tpReads = answersFrom e.reads p m
  writes : u.tpWrites = answersFrom e.writes q m
  start : u.work.start = e.clock 0
  budget : u.work.budget.toNat = c.maxAckWait + (if u.work.ext then c.retryInterval else 0)
  ext : u.work.ext = true → ∃ i < p, IsReply c c.nackCode (e.reads i)

/-- A WRITE has ended; with `AckTimeout` where every write was taken and no read gave a valid ACK (42_sender.md R133, R136). -/
abbrev EndsUnanswered (c : Config) (e : Environment) (t : State) : Prop :=
  t.busy = false ∧ t.done = true ∧
  ((∀ j, e.writes j = .ok) → (∀ j, ¬IsReply c c.ackCode (e.reads j)) → t.status = .ackTimeout)

variable {c : Config} {e : Environment} {m j p q : Nat} {u : State}

/-- A valid NACK keeps the loop's bounds: `BUDGET` is extended once (42_sender.md R130). -/
theorem LoopAt.extendBudget {l : Label} (hv : c.Valid) (h : LoopAt c e m l j p q u)
    (hn : ∃ i < p, IsReply c c.nackCode (e.reads i)) : LoopAt c e m l j p q (extendBudget u) := by
  obtain ⟨h1, h2, h3, h4, h5, h6, h7, h8, h9, h10⟩ := h
  unfold Machine.extendBudget
  split
  · exact ⟨h1, h2, h3, h4, h5, h6, h7, h8, h9, h10⟩
  · rename_i hx
    refine ⟨h1, h2, h3, h4, h5, h6, h7, h8, ?_, fun _ => hn⟩
    have hb := hv.2.2.2.2.1
    simp only [setWork_work, if_true]
    rw [if_neg hx] at h9
    rw [BitVec.toNat_add, h9, BitVec.toNat_ofNat, h1]
    simp only [tickWidth] at *
    omega

/-- `Resend` ends the WRITE or leads back to the guard, in at most one step (42_sender.md R132, R123). -/
theorem LoopAt.resend (hv : c.Valid) (h : LoopAt c e m .w6 j p q u) (hq : q < m) :
    ∃ n v, n ≤ 1 ∧ After n (resend u) v ∧
      (EndsUnanswered c e v ∨ ∃ q' ≤ q + 1, LoopAt c e m .w5 j p q' v) := by
  by_cases hc : u.work.cont.toNat < u.cfg.maxAttempts
  · rw [show Machine.resend u = sendFrame .w8 (setFsm .txSent u) from if_pos hc]
    have hs := step_w8 (s := sendFrame .w8 (setFsm .txSent u)) (h.cfg.symm ▸ hv) (quiet_of_allWait h.wait) rfl
    have hw : (nextAct (sendFrame .w8 (setFsm .txSent u))).tpWrites = e.writes q :: answersFrom e.writes (q + 1) m :=
      h.writes.trans (answersFrom_of_lt _ hq)
    cases ha : e.writes q with
    | ok =>
      rw [ha] at hw
      rw [senderW8, onWritten_ok _ hw] at hs
      exact ⟨1, _, Nat.le_refl _, ⟨_, hs, rfl⟩, .inr ⟨q + 1, Nat.le_refl _, h.cfg, allWait_tail h.wait, h.busy, rfl,
        h.ticks, h.reads, rfl, h.start, h.budget, h.ext⟩⟩
    | ioError =>
      rw [ha] at hw
      rw [senderW8, onWritten_ioError _ hw] at hs
      exact ⟨1, _, Nat.le_refl _, ⟨_, hs, rfl⟩, .inl ⟨rfl, rfl, fun ho => by rw [ho q] at ha; cases ha⟩⟩
  · rw [show Machine.resend u = countReply u from if_neg hc]
    exact ⟨0, _, Nat.zero_le _, rfl, .inr ⟨q, Nat.le_succ _, h.cfg, h.wait, h.busy, rfl, h.ticks, h.reads, h.writes,
      h.start, h.budget, h.ext⟩⟩

/-- The read of the loop ends the WRITE or leads back to the guard, in at most two steps (42_sender.md R126 to R132). -/
theorem LoopAt.read (hv : c.Valid) (h : LoopAt c e m .w6 j p q u) (hp : p < m) (hq : q < m) :
    ∃ n v, n ≤ 2 ∧ After n u v ∧ (EndsUnanswered c e v ∨ ∃ q' ≤ q + 1, LoopAt c e m .w5 j (p + 1) q' v) := by
  have hs := step_w6 (h.cfg.symm ▸ hv) (quiet_of_allWait h.wait) h.label
  have hr : (nextAct u).tpReads = e.reads p :: answersFrom e.reads (p + 1) m :=
    h.reads.trans (answersFrom_of_lt _ hp)
  have hF : 5 ≤ u.cfg.F := h.cfg.symm ▸ hv.1
  have hext : u.work.ext = true → ∃ i < p + 1, IsReply c c.nackCode (e.reads i) := fun hx =>
    (h.ext hx).imp fun i hi => ⟨Nat.lt_succ_of_lt hi.1, hi.2⟩
  have hresend : ∀ v, LoopAt c e m .w6 j (p + 1) q v → step u = .next (Machine.resend v) →
      ∃ n v, n ≤ 2 ∧ After n u v ∧ (EndsUnanswered c e v ∨ ∃ q' ≤ q + 1, LoopAt c e m .w5 j (p + 1) q' v) := by
    intro v hl hstep
    obtain ⟨n, w, h1, h2, h3⟩ := hl.resend hv hq
    exact ⟨n + 1, w, Nat.succ_le_succ h1, ⟨_, hstep, h2⟩, h3⟩
  by_cases ha : ∀ b, e.reads p = .bytes b → b.length ≠ u.cfg.F
  · rw [senderW6_noFrame hr ha] at hs
    exact ⟨1, _, by omega, ⟨_, hs, rfl⟩, .inr ⟨q, Nat.le_succ _, h.cfg, allWait_tail h.wait, h.busy, rfl, h.ticks, rfl,
      h.writes, h.start, h.budget, hext⟩⟩
  push Not at ha
  obtain ⟨b, hb, hbl⟩ := ha
  rw [hb] at hr
  rw [senderW6_frame hr hbl] at hs
  have hrecv : LoopAt c e m .w6 j (p + 1) q (receiveFrame b (setTpReads (answersFrom e.reads (p + 1) m) (nextAct u))) :=
    ⟨h.cfg, allWait_tail h.wait, h.busy, h.label, h.ticks, rfl, h.writes, h.start, h.budget, hext⟩
  by_cases hg : GoodFrame u.cfg b
  · rw [senderW7_good (s := setTpReads _ (nextAct u)) hF hg] at hs
    split at hs
    · rename_i hk
      exact ⟨1, _, by omega, ⟨_, hs, rfl⟩, .inl ⟨rfl, rfl, fun _ hn =>
        absurd ⟨b, hb, h.cfg ▸ hg, hk.trans (congrArg Config.ackCode h.cfg)⟩ (hn p)⟩⟩
    · split at hs
      · rename_i hk
        exact hresend _ (hrecv.extendBudget hv
          ⟨p, Nat.lt_succ_self _, b, hb, h.cfg ▸ hg, hk.trans (congrArg Config.nackCode h.cfg)⟩) hs
      · exact ⟨1, _, by omega, ⟨_, hs, rfl⟩, .inr ⟨q, Nat.le_succ _, h.cfg, allWait_tail h.wait, h.busy, rfl, h.ticks,
          rfl, h.writes, h.start, h.budget, hext⟩⟩
  · rw [senderW7_noise (s := setTpReads _ (nextAct u)) hF hbl hg] at hs
    exact hresend _ hrecv hs

/-- The guard that takes a clock answer past the budget ends the WRITE (42_sender.md R125, R137). -/
theorem LoopAt.end_of_clockPassesBudget (hv : c.Valid) (h : LoopAt c e m .w5 j p q u) (hj : j < m) (hp : p + 1 ≤ j)
    (hc : ClockPassesBudget c e j) : ∃ v, step u = .next v ∧ EndsUnanswered c e v := by
  have hs := step_w5 (h.cfg.symm ▸ hv) (quiet_of_allWait h.wait) h.label
  rw [senderW5_tick (s := nextAct u) (h.ticks.trans (answersFrom_of_lt _ hj)), if_pos] at hs
  · exact ⟨_, hs, rfl, rfl, fun _ _ => rfl⟩
  · rw [guardFails_iff]
    refine .inr ?_
    show u.work.budget.toNat < (e.clock j - u.work.start).toNat
    rw [h.budget, h.start]
    split
    · obtain ⟨i, hi, hr⟩ := h.ext ‹_›
      exact hc.2.2 ⟨i, by omega, hr⟩
    · exact hc.2.1

/-- One turn of the loop: at most three steps, after which the WRITE has ended or the guard takes the next clock answer. -/
theorem LoopAt.turn (hv : c.Valid) (h : LoopAt c e m .w5 j p q u) (hj : j < m) (hp : p + 1 ≤ j) (hq : q ≤ j) :
    ∃ n v, n ≤ 3 ∧ After n u v ∧
      (EndsUnanswered c e v ∨ ∃ p' ≤ j, ∃ q' ≤ j + 1, LoopAt c e m .w5 (j + 1) p' q' v) := by
  have hs := step_w5 (h.cfg.symm ▸ hv) (quiet_of_allWait h.wait) h.label
  rw [senderW5_tick (s := nextAct u) (h.ticks.trans (answersFrom_of_lt _ hj))] at hs
  split at hs
  · exact ⟨1, _, by omega, ⟨_, hs, rfl⟩, .inl ⟨rfl, rfl, fun _ _ => rfl⟩⟩
  split at hs
  · have h6 : LoopAt c e m .w6 (j + 1) p q (issue (.tpRead (nextAct u).cfg.F (nextAct u).cfg.pollTimeout) .w6
        (setTicks (answersFrom e.clock (j + 1) m) (nextAct u))) :=
      ⟨h.cfg, allWait_tail h.wait, h.busy, rfl, rfl, h.reads, h.writes, h.start, h.budget, h.ext⟩
    obtain ⟨n, v, h1, h2, h3⟩ := h6.read hv (by omega) (by omega)
    exact ⟨n + 1, v, Nat.succ_le_succ h1, ⟨_, hs, h2⟩, h3.imp_right fun ⟨q', hq', h'⟩ => ⟨p + 1, hp, q', by omega, h'⟩⟩
  · exact ⟨1, _, by omega, ⟨_, hs, rfl⟩, .inr ⟨p, by omega, q, by omega, h.cfg, allWait_tail h.wait, h.busy, rfl, rfl,
      h.reads, h.writes, h.start, h.budget, h.ext⟩⟩

end Sys2Proof.Machine
end

