-- ==== Sys2Proof/Laws/PerInstr.lean ====
section
/-! SUPPORT. Statements made per instruction, and one lemma per constructor of Instr. -/

namespace Sys2Proof.Laws.RoundTrip

/-- The bundle of an instruction decodes to that instruction, every operand at every value (30_encoding.md R71, R72, R74). -/
def Statement (i : Instr) : Prop :=
  decode (encode i) = some i

theorem withOperand_operand (d : Operand) (r : Request) : (Request.withOperand d r).operand = d := by
  cases d <;> rfl

theorem crc16 (len : Half) (data : Operand) : Statement (.crc16 len data) :=
  congrArg (fun d => some (Instr.crc16 len d)) (withOperand_operand data _)

theorem encode (id command : Byte) (len crc : Half) (data : Operand) :
    Statement (.encode id command len crc data) :=
  congrArg (fun d => some (Instr.encode id command len crc d)) (withOperand_operand data _)

theorem decode (frame : Operand) : Statement (.decode frame) :=
  congrArg (fun d => some (Instr.decode d)) (withOperand_operand frame _)

theorem write (command : Byte) (len : Half) (data : Operand) : Statement (.write command len data) :=
  congrArg (fun d => some (Instr.write command len d)) (withOperand_operand data _)

theorem read : Statement .read := rfl

end Sys2Proof.Laws.RoundTrip
end

