-- ==== Sys2Proof/Tests/Slice0.lean ====
section
/-! SUPPORT. The model's own tests: values from spec/95_test_vectors.md (named by their labels), words written out from
30_encoding.md, ill-formed terms, and for each statement with hypotheses a witness that meets them. -/

namespace Sys2Proof.Tests

open Sys2Proof.Machine

/-! ### Helpers -/

/-- The next state of an outcome, if it is one. -/
def nextOf (o : Host.Outcome State Fault Refusal) : Option State :=
  match o with
  | .next t => some t
  | .fault _ => none
  | .refused _ => none

/-- The next state of an outcome, the reset state if it is none. -/
def nextOr (o : Host.Outcome State Fault Refusal) : State := (nextOf o).getD State.reset

theorem next_nextOr {o : Host.Outcome State Fault Refusal} (h : (nextOf o).isSome = true) : o = .next (nextOr o) := by
  cases o with
  | next t => rfl
  | fault r => cases h
  | refused r => cases h

/-- Default parameters with frames of 8 bytes, so `MAXP = 3`. -/
def cfg8 : Config := { Config.default with F := 8 }

theorem valid8 : cfg8.Valid := by decide

/-- An idle instance with 8-byte frames and `DEVID = id`. -/
def idle8 (id : Byte) : State := { State.resetOf cfg8 with devid := id }

/-- An instance in the middle of an operation, at `l`. -/
def at8 (l : Label) : State :=
  { idle8 0x01#8 with busy := true, label := l, fsm := l.fsm }

/-- An idle instance whose host presents `i` next. -/
def asked (i : Instr) : State := { idle8 0x01#8 with host := [.start (encode i)] }

/-- In the read loop of a WRITE, with one answer of `TpRead` waiting. -/
def replied (b : List Byte) : State := { at8 .w6 with tpReads := [.bytes b] }

/-- In the loop guard of a WRITE: clock 1000 since `START = 0`, with the given `CONT` and `BUDGET`. -/
def guarded (cont : Byte) (budget : Tick) : State :=
  { at8 .w5 with work := { Work.zero with cont := cont, budget := budget }, ticks := [1000#32] }

/-- A READ after `RD1`, and after `RD2` with one answer of `TpRead` waiting. -/
def reading : State := readBody (accept (idle8 0x02#8))

def received (a : ReadAnswer) : State := { receiverRD2 reading with tpReads := [a] }

/-- 95_test_vectors.md, frames with `F = 8`. -/
def frHi8 : List Byte := [0x01#8, 0x10#8, 0x02#8, 0x48#8, 0x69#8, 0x00#8, 0x95#8, 0x4C#8]
def frEmpty8 : List Byte := [0x01#8, 0x10#8, 0x00#8, 0x00#8, 0x00#8, 0x00#8, 0x58#8, 0x2F#8]
def frAck8 : List Byte := [0x02#8, 0x06#8, 0x00#8, 0x00#8, 0x00#8, 0x00#8, 0x89#8, 0x88#8]
def frNack8 : List Byte := [0x02#8, 0x15#8, 0x00#8, 0x00#8, 0x00#8, 0x00#8, 0xF0#8, 0xEE#8]

/-! ### WellFormed refuses ill-formed terms (30_encoding.md R72) -/

theorem test_wf_refuses_short_crc16 : (Instr.crc16 2#16 (some [0x00#8])).wf cfg8 = false := by decide
theorem test_wf_refuses_long_encode : (Instr.encode 0#8 0#8 1#16 0#16 (some [0#8, 0#8])).wf cfg8 = false := by decide
theorem test_wf_refuses_short_frame : (Instr.decode (some [0#8, 0#8, 0#8])).wf cfg8 = false := by decide
theorem test_wf_refuses_empty_write : (Instr.write 0#8 1#16 (some [])).wf cfg8 = false := by decide
theorem test_wf_takes_absent : (Instr.write 0#8 1#16 none).wf cfg8 = true ∧ Instr.read.wf cfg8 = true := by decide
theorem test_step_refuses_ill_formed :
    step (asked (.crc16 2#16 (some [0x00#8]))) = .refused .malformedRequest := rfl

/-! ### Decoding: the words of 30_encoding.md R71, bit by bit -/

theorem test_decode_crc16 :
    decode { Request.bare 0b00000001#8 with len := 2#16, present := true, data := [0x48#8, 0x69#8] } =
      some (.crc16 2#16 (some [0x48#8, 0x69#8])) := by decide
theorem test_decode_encode :
    decode ⟨0b00000010#8, 0x01#8, 0x10#8, 2#16, true, 0xDFDB#16, [0x48#8, 0x69#8]⟩ =
      some (.encode 0x01#8 0x10#8 2#16 0xDFDB#16 (some [0x48#8, 0x69#8])) := by decide
theorem test_decode_decode :
    decode { Request.bare 0b00000011#8 with present := true, data := frHi8 } = some (.decode (some frHi8)) := by decide
theorem test_decode_write :
    decode { Request.bare 0b00000100#8 with command := 0x10#8, len := 41#16 } = some (.write 0x10#8 41#16 none) := by
  decide
theorem test_decode_read : decode (Request.bare 0b00000101#8) = some .read := by decide
/-- 95_test_vectors.md V80. -/
theorem test_decode_reserved :
    [0b00000000#8, 0b00000110#8, 0b00000111#8, 0b00001000#8, 0b10000001#8, 0b11111111#8].map
      (fun w => decode (Request.bare w)) = [none, none, none, none, none, none] := by decide
theorem test_opcode_words_distinct :
    ([Opcode.crc16, .encode, .decode, .write, .read].map Opcode.word).Nodup := by decide
theorem test_table_words_run :
    [0x01, 0x02, 0x03, 0x04, 0x05].map (fun w => (nextOf (step (State.reset.withFetchWord 8 w))).isSome) =
      [true, true, true, true, true] := by decide +kernel

/-- The commands of V20, V30 and P2 as 30_encoding.md R78 writes them. -/
theorem test_command_text :
    (Instr.encode 0x01#8 0x10#8 2#16 0xDFDB#16 (some [0x48#8, 0x69#8])).text = "ENCODE 01, 10, 2, DFDB, 48 69" ∧
      (Instr.write 0x10#8 41#16 none).text = "WRITE 10, 41, absent" ∧ setIdText 0x01#8 = "SETID 01" := by
  decide +kernel

/-! ### One step of each instruction (95_test_vectors.md) -/

/-- V2. -/
theorem test_crc16_of_zero_byte :
    (nextOr (exec (.crc16 1#16 (some [0x00#8])) State.reset)).res.crc16 = 0x5055#16 := by decide +kernel
/-- V13. -/
theorem test_crc16_absent :
    (nextOr (exec (.crc16 3#16 none) State.reset)).status = .invalidArgument ∧
      (nextOr (exec (.crc16 3#16 none) State.reset)).flagsReg = 0x02#8 := by decide
/-- V34. -/
theorem test_encode_hi8 :
    frameBytes cfg8 (nextOr (exec (.encode 0x01#8 0x10#8 2#16 0x4C95#16 (some [0x48#8, 0x69#8])) (idle8 0#8))).res.frame =
      frHi8 := by decide +kernel
/-- V29. -/
theorem test_encode_too_long :
    (nextOr (exec (.encode 0x01#8 0x10#8 4#16 0#16 (some [1#8, 2#8, 3#8, 4#8])) (idle8 0#8))).status = .lengthError := by
  decide
/-- V34. -/
theorem test_decode_hi8 :
    (nextOr (exec (.decode (some frHi8)) (idle8 0#8))).res.packet =
      ⟨0x01#8, 0x10#8, 2#8, [(0, 0x48#8), (1, 0x69#8)], 0x4C95#16⟩ := by decide +kernel
/-- V31. -/
theorem test_decode_absent : (nextOr (exec (.decode none) (idle8 0#8))).status = .invalidArgument := by decide
/-- P3 with `F = 8`: the frame handed over, and `FLAGS` in `TX_SENT`. -/
theorem test_write_transmits_hi8 :
    (nextOr (exec (.write 0x10#8 2#16 (some [0x48#8, 0x69#8])) (idle8 0x01#8))).calls = [.tpWrite frHi8] ∧
      (nextOr (exec (.write 0x10#8 2#16 (some [0x48#8, 0x69#8])) (idle8 0x01#8))).flagsReg = 0x05#8 := by
  decide +kernel
/-- P3, last row, with `F = 8`. -/
theorem test_write_ends_on_ack :
    (nextOr (step (replied frAck8))).status = .ok ∧ (nextOr (step (replied frAck8))).flagsReg = 0x02#8 := by
  decide +kernel
/-- P4, rows 2 and 3, with `F = 8`: the NACK frame is in `TXF`; `FLAGS` in `RX_AWAIT`. -/
theorem test_read_builds_nack :
    frameBytes cfg8 (nextOr (step reading)).work.txf = frNack8 ∧ (nextOr (step reading)).flagsReg = 0x0D#8 := by
  decide +kernel
/-- P4, rows 4 to 7, with `F = 8`: the ACK frame is handed over. -/
theorem test_read_replies_ack :
    (nextOr (step (received (.bytes frHi8)))).calls = [.tpFlush, .tpRead 8 10000, .tpWrite frAck8] := by
  decide +kernel

/-! ### Witnesses: states and operands that meet the hypotheses of each statement -/

theorem witness_RstAbandonsAnyOperation : ∃ (s : State) (rest : List HostAct),
    s.cfg.Valid ∧ s.host = .rst :: rest ∧ s.busy = true ∧ s.status = .ok :=
  ⟨{ at8 .w5 with host := [.rst] }, [], by decide, rfl, rfl, rfl⟩

/-- Each constraint of 00_scope.md R7 broken by one, and the values at the limit that are still valid. -/
theorem witness_BrokenParametersAreRefused :
    (∀ c ∈ [{ cfg8 with F := 4 }, { cfg8 with F := 261 }, { cfg8 with nackCode := 0x06#8 },
      { cfg8 with maxAttempts := 255 }, { cfg8 with maxAckWait := 2 ^ 32 - 1000 },
      { cfg8 with maxAttempts := 254, retryInterval := 16843010 }, { cfg8 with minLen := 5#8 }], ¬c.Valid) ∧
    (∀ c ∈ [{ cfg8 with F := 5 }, { cfg8 with F := 260 }, { cfg8 with maxAttempts := 254 },
      { cfg8 with maxAckWait := 2 ^ 32 - 1001 }, { cfg8 with minLen := 4#8 }], c.Valid) := by decide

theorem witness_StepRunsDecodedInstruction :
    (∃ (s : State) (r : Request) (rest : List HostAct) (i : Instr), s.cfg.Valid ∧ s.host = .start r :: rest ∧
      decode r = some i ∧ s.busy = false ∧ i.wf s.cfg = true) ∧
    (∃ (s : State) (r : Request) (rest : List HostAct) (i : Instr), s.cfg.Valid ∧ s.host = .start r :: rest ∧
      decode r = some i ∧ s.busy = true) ∧
    (∃ (s : State) (w : Nat) (i : Instr), s.cfg.Valid ∧ decodeTableWord 8 w = some i ∧ i.wf s.cfg = true) :=
  ⟨⟨asked .read, encode .read, [], .read, by decide, rfl, by decide, rfl, rfl⟩,
    ⟨{ at8 .w5 with host := [.start (encode .read)] }, encode .read, [], .read, by decide, rfl, by decide, rfl⟩,
    ⟨idle8 0#8, 5, .read, by decide, by decide, rfl⟩⟩

theorem witness_RefusalsChangeNothing :
    (∃ (s : State) (r : Request) (rest : List HostAct), s.cfg.Valid ∧ s.host = .start r :: rest ∧ s.busy = true) ∧
    (∀ w ∈ [0x00#8, 0x06#8, 0xFF#8], ∃ (s : State) (r : Request) (rest : List HostAct),
      s.cfg.Valid ∧ s.host = .start r :: rest ∧ r.op = w ∧ (r.op.toNat = 0 ∨ 6 ≤ r.op.toNat)) ∧
    (∃ (s : State) (v : Byte) (rest : List HostAct), s.cfg.Valid ∧ s.host = .setDevId v :: rest ∧ s.busy = true) := by
  refine ⟨⟨{ at8 .w5 with host := [.start (encode .read)] }, _, [], by decide, rfl, rfl⟩, fun w hw => ?_,
    ⟨{ at8 .w5 with host := [.setDevId 0x02#8] }, _, [], by decide, rfl, rfl⟩⟩
  refine ⟨{ idle8 0#8 with host := [.start (Request.bare w)] }, _, [], valid8, rfl, rfl, ?_⟩
  revert w
  decide

theorem witness_HostWritesDevIdWhileIdle : ∃ (s : State) (v : Byte) (rest : List HostAct),
    s.cfg.Valid ∧ s.host = .setDevId v :: rest ∧ s.busy = false :=
  ⟨{ idle8 0#8 with host := [.setDevId 0x01#8] }, 0x01#8, [], by decide, rfl, rfl⟩

theorem witness_WaitingChangesNothing :
    (∃ s : State, s.cfg.Valid ∧ Quiet s ∧ s.label = .none) ∧
    (∃ s : State, s.cfg.Valid ∧ Quiet s ∧ s.label ∈ [Label.w3, .w8, .rd3Nack, .rd5Nack, .rd6] ∧ s.tpWrites = []) ∧
    (∃ s : State, s.cfg.Valid ∧ Quiet s ∧ s.label ∈ [Label.w6, .rd3] ∧ s.tpReads = []) ∧
    (∃ s : State, s.cfg.Valid ∧ Quiet s ∧ s.label ∈ [Label.w4, .w5] ∧ s.ticks = []) :=
  ⟨⟨idle8 0#8, by decide⟩, ⟨at8 .rd6, by decide⟩, ⟨at8 .rd3, by decide⟩, ⟨at8 .w5, by decide⟩⟩

theorem witness_DecodeEncodeRoundTrip : ∃ (r : Request) (i : Instr), decode r = some i ∧ r.present = true ∧ i ≠ .read :=
  ⟨⟨0x02#8, 0x01#8, 0x10#8, 1#16, true, 0xDFDB#16, [0x48#8]⟩, .encode 0x01#8 0x10#8 1#16 0xDFDB#16 (some [0x48#8]),
    by decide⟩

theorem witness_CrcByteAndBitSteps : ∃ c c' : Half, c.toNat % 2 = 1 ∧ c'.toNat % 2 = 0 := ⟨1#16, 0#16, by decide⟩

theorem witness_CrcDetectsOneChangedByte : ∃ (poly : Half) (b b' : Byte), poly.getLsbD 15 = true ∧ b ≠ b' :=
  ⟨0xBFA5#16, 0x48#8, 0x49#8, by decide⟩

theorem witness_Crc16GivesChecksum : ∃ (s : State) (len : Half) (bytes : List Byte),
    s.busy = false ∧ bytes.length = len.toNat := ⟨idle8 0#8, 1#16, [0x00#8], by decide⟩

theorem witness_Crc16AbsentBufferIsInvalid : ∃ (s : State) (len : Half), s.busy = false ∧ len ≠ 0#16 :=
  ⟨idle8 0#8, 1#16, by decide⟩

theorem witness_Crc16OfNoBytes : ∃ (s : State) (data data' : Operand),
    s.busy = false ∧ data = none ∧ data' = some [] := ⟨idle8 0#8, none, some [], rfl, rfl, rfl⟩

/-- The payload of `MAXP` bytes, and the absent payload of none. -/
theorem witness_EncodeGivesFrame :
    (∃ (s : State) (len : Half) (data : Operand) (bytes : List Byte), s.cfg.Valid ∧ s.busy = false ∧
      Supplies data len bytes ∧ len.toNat = s.cfg.maxp) ∧
    (∃ (s : State) (data : Operand) (bytes : List Byte), s.cfg.Valid ∧ s.busy = false ∧
      Supplies data 0#16 bytes ∧ data = none) :=
  ⟨⟨idle8 0#8, 3#16, some [1#8, 2#8, 3#8], [1#8, 2#8, 3#8], by decide⟩, ⟨idle8 0#8, none, [], by decide⟩⟩

theorem witness_EncodeErrorsInOrder :
    (∃ (s : State) (len : Half), s.busy = false ∧ len.toNat = s.cfg.maxp + 1) ∧
    (∃ (s : State) (len : Half), s.busy = false ∧ len.toNat = 1 ∧ 1 ≤ s.cfg.maxp) ∧
    (∃ (s : State) (len : Half) (bytes : List Byte), s.busy = false ∧ 0 < len.toNat ∧ len.toNat = s.cfg.maxp ∧
      bytes.length = s.cfg.maxp) :=
  ⟨⟨idle8 0#8, 4#16, by decide⟩, ⟨idle8 0#8, 1#16, by decide⟩, ⟨idle8 0#8, 3#16, [1#8, 2#8, 3#8], by decide⟩⟩

theorem witness_DecodeGivesPacket : ∃ (s : State) (b : List Byte), s.cfg.Valid ∧ s.busy = false ∧
    b.length = s.cfg.F ∧ (b.getD 2 0#8).toNat = s.cfg.maxp :=
  ⟨idle8 0#8, [1#8, 2#8, 3#8, 4#8, 5#8, 6#8, 7#8, 8#8], by decide⟩

theorem witness_DecodeErrors : ∃ (s : State) (b : List Byte), s.busy = false ∧ s.cfg.Valid ∧ b.length = s.cfg.F ∧
    (b.getD 2 0#8).toNat = s.cfg.maxp + 1 :=
  ⟨idle8 0#8, [1#8, 2#8, 4#8, 4#8, 5#8, 6#8, 7#8, 8#8], by decide⟩

theorem witness_PacketRoundTrip : ∃ (c : Config) (p : Packet), c.Valid ∧ p.length.toNat = c.maxp ∧ p.crc = 0#16 :=
  ⟨cfg8, ⟨1#8, 2#8, 3#8, [(0, 1#8)], 0#16⟩, by decide⟩

theorem witness_EncodeThenDecode : ∃ (s : State) (len : Half) (data : Operand) (bytes : List Byte), s.cfg.Valid ∧
    s.busy = false ∧ Supplies data len bytes ∧ len.toNat = s.cfg.maxp :=
  ⟨idle8 0#8, 3#16, some [1#8, 2#8, 3#8], [1#8, 2#8, 3#8], by decide⟩

theorem witness_EncLeavesPaddingAndZeroCrc :
    (∃ (c : Config) (b : Memory) (p : Packet), c.Valid ∧ b.wf ∧ p.length.toNat ≤ c.maxp ∧ p.crc = 0#16) ∧
    (∃ (c : Config) (b : Memory) (p : Packet), c.Valid ∧ b.wf ∧ p.length.toNat = c.maxp ∧ p.crc ≠ 0#16) :=
  ⟨⟨cfg8, [(5, 1#8), (6, 7#8)], ⟨1#8, 2#8, 0#8, [], 0#16⟩, by decide⟩,
    ⟨cfg8, [], ⟨1#8, 2#8, 3#8, [], 1#16⟩, by decide⟩⟩

theorem witness_BuiltFramePassesCheck : ∃ (c : Config) (w : Work), c.Valid ∧ w.txf.wf ∧ w.txp.length.toNat = c.maxp :=
  ⟨cfg8, { Work.zero with txp := ⟨1#8, 2#8, 3#8, [], 0#16⟩ }, by decide⟩

theorem witness_AckOverNackIsFresh : ∃ c : Config, c.Valid := ⟨cfg8, by decide⟩

/-- Two idle instances with another past; an idle instance that meets the invariant; one running READ after two pasts, in a step
that makes a call and in one that ends. -/
theorem witness_OperationsForgetThePast :
    (∃ s s' : State, s ≠ s' ∧ s.cfg = s'.cfg ∧ s.devid = s'.devid ∧ s.busy = false ∧ s'.busy = false ∧
      s.fsm = s'.fsm ∧ SameAnswers s s') ∧
    (∃ s : State, Invariant s ∧ s.busy = false) ∧
    (∀ b ∈ [frHi8, frHi8.set 2 4#8], ∃ s s' : State, s.cfg.Valid ∧ Quiet s ∧ Quiet s' ∧ SameOperation s s' ∧
      SameAnswers s s' ∧ s.busy = true ∧ s.status ≠ s'.status ∧ s.tpReads = [.bytes b]) :=
  ⟨⟨idle8 0#8, ended .noData ResultRegs.zero (idle8 0#8), by decide⟩,
    ⟨State.resetOf cfg8, by refine ⟨valid8, ?_, ?_, ?_, ?_, ?_, ?_⟩ <;> decide +kernel, rfl⟩,
    fun b _ => ⟨received (.bytes b), { received (.bytes b) with status := .noData, calls := [] }, valid8, rfl, rfl,
      ⟨rfl, rfl, rfl, rfl, rfl, rfl, rfl, rfl⟩, ⟨rfl, rfl, rfl⟩, rfl, (nofun : Kind.ok ≠ .noData), rfl⟩⟩

theorem witness_WriteTransmitsDataFrame :
    (∃ (s : State) (len : Half) (data : Operand) (bytes : List Byte), s.cfg.Valid ∧ s.busy = false ∧
      Supplies data len bytes ∧ len.toNat = s.cfg.maxp) ∧
    (∃ (s : State) (data : Operand) (bytes : List Byte), s.cfg.Valid ∧ s.busy = false ∧
      Supplies data 0#16 bytes ∧ data = none) :=
  ⟨⟨idle8 0#8, 3#16, some [1#8, 2#8, 3#8], [1#8, 2#8, 3#8], by decide⟩, ⟨idle8 0#8, none, [], by decide⟩⟩

theorem witness_WriteArgumentErrors :
    (∃ (s : State) (len : Half), s.busy = false ∧ len.toNat = s.cfg.maxp + 1) ∧
    (∃ (s : State) (len : Half), s.busy = false ∧ 0 < len.toNat ∧ len.toNat = s.cfg.maxp) :=
  ⟨⟨idle8 0#8, 4#16, by decide⟩, ⟨idle8 0#8, 3#16, by decide⟩⟩

theorem witness_FirstTransmissionAnswered : ∀ a : WriteAnswer, ∃ (s : State) (rest : List WriteAnswer),
    s.cfg.Valid ∧ Quiet s ∧ s.label = .w3 ∧ s.tpWrites = a :: rest :=
  fun a => ⟨{ at8 .w3 with tpWrites := [a] }, [], valid8, rfl, rfl, rfl⟩

theorem witness_WaitLoopSetUp : ∃ (s : State) (now : Tick) (rest : List Tick),
    s.cfg.Valid ∧ Quiet s ∧ s.label = .w4 ∧ s.ticks = now :: rest :=
  ⟨{ at8 .w4 with ticks := [500#32] }, 500#32, [], by decide⟩

/-- Both caps passed by one and met exactly; the gate met exactly and missed by one (42_sender.md R125, R126). -/
theorem witness_LoopGuardAndReadGate :
    (∀ s ∈ [guarded 4#8 1000#32, guarded 0#8 999#32], s.cfg.Valid ∧ Quiet s ∧ s.label = .w5 ∧ s.ticks = [1000#32] ∧
      s.work.start = 0#32 ∧ (s.cfg.maxAttempts < s.work.cont.toNat ∨ s.work.budget.toNat < 1000)) ∧
    (∃ s : State, s.cfg.Valid ∧ Quiet s ∧ s.label = .w5 ∧ s.ticks = [1000#32] ∧ s.work.start = 0#32 ∧
      ¬(s.cfg.maxAttempts < s.work.cont.toNat ∨ s.work.budget.toNat < 1000) ∧
      s.work.cont.toNat * s.cfg.retryInterval = 1000) ∧
    (∃ s : State, s.cfg.Valid ∧ Quiet s ∧ s.label = .w5 ∧ s.ticks = [1000#32] ∧ s.work.start = 1#32 ∧
      ¬(s.cfg.maxAttempts < s.work.cont.toNat ∨ s.work.budget.toNat < 999) ∧
      999 < s.work.cont.toNat * s.cfg.retryInterval) :=
  ⟨by decide, ⟨guarded 1#8 1000#32, by decide⟩,
    ⟨{ guarded 1#8 1000#32 with work := { Work.zero with cont := 1#8, start := 1#32, budget := 1000#32 } }, by decide⟩⟩

theorem witness_AckReplySucceeds : ∃ (s : State) (b : List Byte), s.cfg.Valid ∧ Quiet s ∧ s.label = .w6 ∧
    s.tpReads = [.bytes b] ∧ GoodFrame s.cfg b ∧ b.getD 1 0#8 = s.cfg.ackCode :=
  ⟨replied frAck8, frAck8, by decide +kernel⟩

theorem witness_NackReplyExtendsOnceAndResends : ∀ ext : Bool, ∃ (s : State) (b : List Byte), s.cfg.Valid ∧ Quiet s ∧
    s.label = .w6 ∧ s.tpReads = [.bytes b] ∧ GoodFrame s.cfg b ∧ b.getD 1 0#8 = s.cfg.nackCode ∧ s.work.ext = ext :=
  fun ext => ⟨{ replied frNack8 with work := { Work.zero with ext := ext } }, frNack8, by revert ext; decide +kernel⟩

/-- Noise by a `length` byte just above `MAXP`, and by one changed checksum bit. -/
theorem witness_NoiseReplyResends :
    ∀ b ∈ [[0x02#8, 0x06#8, 0x04#8, 0x00#8, 0x00#8, 0x00#8, 0x89#8, 0x88#8],
      [0x02#8, 0x06#8, 0x00#8, 0x00#8, 0x00#8, 0x00#8, 0x88#8, 0x88#8]],
      (replied b).cfg.Valid ∧ Quiet (replied b) ∧ (replied b).label = .w6 ∧ (replied b).tpReads = [.bytes b] ∧
        b.length = (replied b).cfg.F ∧ ¬GoodFrame (replied b).cfg b := by decide +kernel

theorem witness_OtherReplyIsIgnored : ∃ (s : State) (b : List Byte), s.cfg.Valid ∧ Quiet s ∧ s.label = .w6 ∧
    s.tpReads = [.bytes b] ∧ GoodFrame s.cfg b ∧ b.getD 1 0#8 ≠ s.cfg.ackCode ∧ b.getD 1 0#8 ≠ s.cfg.nackCode :=
  ⟨replied frHi8, frHi8, by decide +kernel⟩

/-- One byte short, one byte too long, empty, and a failed read. -/
theorem witness_NoFrameChangesNothing : ∀ a ∈ [ReadAnswer.bytes (frHi8.take 7), .bytes (frHi8 ++ [0#8]), .bytes [], .failure],
    ∃ s : State, s.cfg.Valid ∧ Quiet s ∧ s.label = .w6 ∧ s.tpReads = [a] ∧ ∀ b, a = .bytes b → b.length ≠ s.cfg.F := by
  intro a ha
  refine ⟨{ at8 .w6 with tpReads := [a] }, valid8, rfl, rfl, rfl, fun b hb => ?_⟩
  subst hb
  simp only [List.mem_cons, ReadAnswer.bytes.injEq, reduceCtorEq, List.not_mem_nil, or_false] at ha
  rcases ha with rfl | rfl | rfl <;> decide

theorem witness_ResendAnswered : ∀ a : WriteAnswer, ∃ (s : State) (rest : List WriteAnswer),
    s.cfg.Valid ∧ Quiet s ∧ s.label = .w8 ∧ s.tpWrites = a :: rest :=
  fun a => ⟨{ at8 .w8 with tpWrites := [a] }, [], valid8, rfl, rfl, rfl⟩

theorem witness_WriteSucceedsOnFirstAck : ∃ (s : State) (r : Request) (acts : List HostAct) (command : Byte) (len : Half)
    (data : Operand) (bytes reply : List Byte) (t0 t1 : Tick), s.cfg.Valid ∧ s.busy = false ∧
    s.host = .start r :: acts ∧ AllWait acts ∧ decode r = some (.write command len data) ∧ Supplies data len bytes ∧
    len.toNat ≤ s.cfg.maxp ∧ s.tpWrites = [.ok] ∧ s.tpReads = [.bytes reply] ∧ s.ticks = [t0, t1] ∧
    (t1 - t0).toNat = s.cfg.maxAckWait ∧ GoodFrame s.cfg reply ∧ reply.getD 1 0#8 = s.cfg.ackCode :=
  ⟨{ asked (.write 0x10#8 2#16 (some [0x48#8, 0x69#8])) with
      tpWrites := [.ok], tpReads := [.bytes frAck8], ticks := [500#32, 10500#32] },
    encode (.write 0x10#8 2#16 (some [0x48#8, 0x69#8])), [], 0x10#8, 2#16, some [0x48#8, 0x69#8], [0x48#8, 0x69#8],
    frAck8, 500#32, 10500#32, by decide +kernel⟩

/-- P5's clock without its shut gate. -/
theorem witness_WriteResendsOnceOnNackThenAck : ∃ (s : State) (r : Request) (acts : List HostAct) (command : Byte)
    (len : Half) (data : Operand) (bytes nack ack : List Byte) (t0 t1 t2 : Tick), s.cfg.Valid ∧ 1 ≤ s.cfg.maxAttempts ∧
    s.busy = false ∧ s.host = .start r :: acts ∧ AllWait acts ∧ decode r = some (.write command len data) ∧
    Supplies data len bytes ∧ len.toNat ≤ s.cfg.maxp ∧ s.tpWrites = [.ok, .ok] ∧
    s.tpReads = [.bytes nack, .bytes ack] ∧ s.ticks = [t0, t1, t2] ∧ (t1 - t0).toNat ≤ s.cfg.maxAckWait ∧
    s.cfg.retryInterval ≤ (t2 - t0).toNat ∧ (t2 - t0).toNat ≤ s.cfg.maxAckWait + s.cfg.retryInterval ∧
    GoodFrame s.cfg nack ∧ nack.getD 1 0#8 = s.cfg.nackCode ∧ GoodFrame s.cfg ack ∧ ack.getD 1 0#8 = s.cfg.ackCode :=
  ⟨{ asked (.write 0x10#8 0#16 none) with
      tpWrites := [.ok, .ok], tpReads := [.bytes frNack8, .bytes frAck8], ticks := [1000#32, 1000#32, 2000#32] },
    encode (.write 0x10#8 0#16 none), [], 0x10#8, 0#16, none, [], frNack8, frAck8, 1000#32, 1000#32, 2000#32,
    by decide +kernel⟩

/-- The transport takes every frame; its reads all answer `a`; the clock reads `START`, then `t1`, then `t2` for ever. -/
def steady (a : ReadAnswer) (t0 t1 t2 : Tick) : Environment where
  writes := fun _ => .ok
  reads := fun _ => a
  clock := fun j => if j = 0 then t0 else if j = 1 then t1 else t2

/-- A bound after one step; the clock one tick past the budget, not extended (silence) and extended (a NACK); the clock at the
budget for ever, with silence and with a good frame that is neither ACK nor NACK. -/
theorem witness_WriteTransmissionsAreBounded :
    (∃ (s t : State) (r : Request) (acts : List HostAct) (command : Byte) (len : Half) (data : Operand) (n : Nat),
      s.cfg.Valid ∧ s.busy = false ∧ s.host = .start r :: acts ∧ AllWait acts ∧
      decode r = some (.write command len data) ∧ n = 1 ∧ After n s t) ∧
    (∀ nacked : Bool, ∃ (s : State) (r : Request) (acts : List HostAct) (command : Byte) (len : Half) (data : Operand)
      (e : Environment) (k m : Nat), s.cfg.Valid ∧ s.busy = false ∧ s.host = .start r :: acts ∧ AllWait acts ∧
      decode r = some (.write command len data) ∧ (Instr.write command len data).wf s.cfg = true ∧
      ClockPassesBudget s.cfg e k ∧ k < m ∧ Supplies data len [] ∧ len.toNat ≤ s.cfg.maxp ∧ (∀ j, e.writes j = .ok) ∧
      (∀ j, ¬IsReply s.cfg s.cfg.ackCode (e.reads j)) ∧
      (nacked = true → ∃ j, j + 1 < k ∧ IsReply s.cfg s.cfg.nackCode (e.reads j))) ∧
    (∀ a ∈ [ReadAnswer.bytes [], .bytes frHi8], ∃ (s : State) (r : Request) (acts : List HostAct) (command : Byte)
      (len : Half) (data : Operand) (e : Environment), s.cfg.Valid ∧ s.busy = false ∧ s.host = .start r :: acts ∧
      AllWait acts ∧ decode r = some (.write command len data) ∧ Supplies data len [] ∧ len.toNat ≤ s.cfg.maxp ∧
      (∀ j, e.writes j = .ok) ∧ (∀ j, (e.clock j - e.clock 0).toNat ≤ s.cfg.maxAckWait) ∧
      (∀ j, e.reads j = a) ∧
      ∀ j b, e.reads j = .bytes b → b.length = s.cfg.F →
        GoodFrame s.cfg b ∧ b.getD 1 0#8 ≠ s.cfg.ackCode ∧ b.getD 1 0#8 ≠ s.cfg.nackCode) := by
  have hNack : GoodFrame cfg8 frNack8 := by decide +kernel
  have hHi : GoodFrame cfg8 frHi8 := by decide +kernel
  refine ⟨⟨asked (.write 0x10#8 0#16 none), _, encode (.write 0x10#8 0#16 none), [], 0x10#8, 0#16, none, 1, by decide,
      rfl, rfl, by decide, by decide, rfl, _, next_nextOr (by decide +kernel), rfl⟩, fun nacked => ?_, fun a ha => ?_⟩
  · refine ⟨asked (.write 0x10#8 0#16 none), encode (.write 0x10#8 0#16 none), [], 0x10#8, 0#16, none,
      steady (if nacked then .bytes frNack8 else .failure) 500#32 500#32 (if nacked then 11501#32 else 10501#32), 2, 3,
      by decide, rfl, rfl, by decide, by decide, rfl, ⟨by decide, by cases nacked <;> decide, ?_⟩, by decide, by decide,
      by decide, fun _ => rfl, ?_, ?_⟩
    · cases nacked
      · rintro ⟨j, _, b, hb, _⟩
        cases hb
      · exact fun _ => by decide
    · cases nacked
      · rintro j ⟨b, hb, _⟩
        cases hb
      · rintro j ⟨b, hb, _, hk⟩
        obtain rfl : frNack8 = b := by simpa [steady] using hb
        exact absurd hk (by decide)
    · rintro rfl
      exact ⟨0, by decide, frNack8, rfl, hNack, by decide⟩
  · refine ⟨asked (.write 0x10#8 0#16 none), encode (.write 0x10#8 0#16 none), [], 0x10#8, 0#16, none,
      steady a 500#32 10500#32 10500#32, by decide, rfl, rfl, by decide, by decide, by decide, by decide, fun _ => rfl,
      fun j => ?_, fun _ => rfl, fun j b hb hl => ?_⟩
    · simp only [steady]
      split_ifs <;> decide
    · obtain rfl : a = .bytes b := hb
      simp only [List.mem_cons, ReadAnswer.bytes.injEq, List.not_mem_nil, or_false] at ha
      rcases ha with rfl | rfl
      · exact absurd hl (by decide)
      · exact ⟨hHi, by decide, by decide⟩

theorem witness_ReadFlushesFirst : ∃ s : State, s.busy = false := ⟨idle8 0#8, rfl⟩

theorem reading_inv : Invariant reading := by
  refine ⟨valid8, ?_, ?_, ?_, ?_, ?_, ?_⟩ <;> decide +kernel

theorem received_inv (a : ReadAnswer) : Invariant (received a) := by
  have h : Invariant (receiverRD2 reading) := by
    refine ⟨valid8, ?_, ?_, ?_, ?_, ?_, ?_⟩ <;> decide +kernel
  exact h

theorem witness_NackIsBuiltBeforeReading : ∃ s : State, Invariant s ∧ Quiet s ∧ s.label = .rd2 :=
  ⟨reading, reading_inv, rfl, rfl⟩

/-- One byte short, one byte too long, empty, and a failed read; both answers of the reply's `TpWrite`. -/
theorem witness_NoFrameIsAnsweredWithNack :
    (∀ a ∈ [ReadAnswer.bytes (frHi8.take 7), .bytes (frHi8 ++ [0#8]), .bytes [], .failure],
      ∃ s : State, Invariant s ∧ Quiet s ∧ s.label = .rd3 ∧ s.tpReads = [a] ∧ ∀ b, a = .bytes b → b.length ≠ s.cfg.F) ∧
    (∀ a : WriteAnswer, ∃ s : State, s.cfg.Valid ∧ Quiet s ∧ s.label = .rd3Nack ∧ s.tpWrites = [a]) := by
  refine ⟨fun a ha => ⟨received a, received_inv a, rfl, rfl, rfl, fun b hb => ?_⟩,
    fun a => ⟨{ at8 .rd3Nack with tpWrites := [a] }, valid8, rfl, rfl, rfl⟩⟩
  subst hb
  simp only [List.mem_cons, ReadAnswer.bytes.injEq, reduceCtorEq, List.not_mem_nil, or_false] at ha
  rcases ha with rfl | rfl | rfl <;> decide

/-- The `length` byte just above `MAXP`, and just below `MIN_LEN`. -/
theorem witness_BadLengthIsRejectedInSilence :
    (∃ (s : State) (b : List Byte), s.cfg.Valid ∧ Quiet s ∧ s.label = .rd3 ∧ s.tpReads = [.bytes b] ∧
      b.length = s.cfg.F ∧ (b.getD 2 0#8).toNat = s.cfg.maxp + 1) ∧
    (∃ (s : State) (b : List Byte), s.cfg.Valid ∧ Quiet s ∧ s.label = .rd3 ∧ s.tpReads = [.bytes b] ∧
      b.length = s.cfg.F ∧ (b.getD 2 0#8).toNat + 1 = s.cfg.minLen.toNat) :=
  ⟨⟨received (.bytes (frHi8.set 2 4#8)), frHi8.set 2 4#8, valid8, rfl, rfl, rfl, by decide, by decide⟩,
    ⟨{ received (.bytes frEmpty8) with cfg := { cfg8 with minLen := 1#8 } }, frEmpty8, by decide, rfl, rfl, rfl,
      by decide, by decide⟩⟩

/-- P8 with `F = 8`: one payload bit changed. -/
theorem witness_BadChecksumIsAnsweredWithNack :
    (∃ (s : State) (b : List Byte), Invariant s ∧ Quiet s ∧ s.label = .rd3 ∧ s.tpReads = [.bytes b] ∧
      b.length = s.cfg.F ∧ (b.getD 2 0#8).toNat ≤ s.cfg.maxp ∧ s.cfg.minLen.toNat ≤ (b.getD 2 0#8).toNat ∧
      ¬CrcMatches s.cfg b) ∧
    (∀ a : WriteAnswer, ∃ s : State, s.cfg.Valid ∧ Quiet s ∧ s.label = .rd5Nack ∧ s.tpWrites = [a]) :=
  ⟨⟨received (.bytes (frHi8.set 3 0x49#8)), frHi8.set 3 0x49#8, received_inv _, rfl, rfl, rfl, by decide, by decide,
      by decide, by decide +kernel⟩,
    fun a => ⟨{ at8 .rd5Nack with tpWrites := [a] }, valid8, rfl, rfl, rfl⟩⟩

theorem witness_GoodFrameIsAnsweredWithAck : ∃ (s : State) (b : List Byte), Invariant s ∧ Quiet s ∧ s.label = .rd3 ∧
    s.tpReads = [.bytes b] ∧ GoodFrame s.cfg b ∧ s.cfg.minLen.toNat ≤ (b.getD 2 0#8).toNat :=
  ⟨received (.bytes frHi8), frHi8, received_inv _, rfl, rfl, rfl, by decide +kernel, by decide⟩

theorem witness_DeliveryFollowsTheAck : ∀ a : WriteAnswer, ∃ s : State,
    s.cfg.Valid ∧ Quiet s ∧ s.label = .rd6 ∧ s.tpWrites = [a] :=
  fun a => ⟨{ at8 .rd6 with tpWrites := [a] }, valid8, rfl, rfl, rfl⟩

theorem witness_ReadDeliversGoodFrame : ∃ (s : State) (r : Request) (acts : List HostAct) (b : List Byte), s.cfg.Valid ∧
    s.busy = false ∧ s.host = .start r :: acts ∧ AllWait acts ∧ decode r = some .read ∧ s.tpReads = [.bytes b] ∧
    s.tpWrites = [.ok] ∧ GoodFrame s.cfg b ∧ s.cfg.minLen.toNat ≤ (b.getD 2 0#8).toNat :=
  ⟨{ asked .read with tpWrites := [.ok], tpReads := [.bytes frHi8] }, encode .read, [], frHi8, by decide +kernel⟩

theorem witness_ReadRejectsBadChecksum : ∃ (s : State) (r : Request) (acts : List HostAct) (b : List Byte), s.cfg.Valid ∧
    s.busy = false ∧ s.host = .start r :: acts ∧ AllWait acts ∧ decode r = some .read ∧ s.tpReads = [.bytes b] ∧
    s.tpWrites = [.ok] ∧ b.length = s.cfg.F ∧ (b.getD 2 0#8).toNat ≤ s.cfg.maxp ∧
    s.cfg.minLen.toNat ≤ (b.getD 2 0#8).toNat ∧ ¬CrcMatches s.cfg b :=
  ⟨{ asked .read with tpWrites := [.ok], tpReads := [.bytes (frHi8.set 3 0x49#8)] }, encode .read, [],
    frHi8.set 3 0x49#8, by decide +kernel⟩

theorem witness_ReadCallsInOrder : ∃ (s t : State) (r : Request) (acts : List HostAct) (n : Nat), s.cfg.Valid ∧
    s.busy = false ∧ s.host = .start r :: acts ∧ AllWait acts ∧ decode r = some .read ∧ n = 3 ∧ After n s t ∧
    t.busy = false ∧ t.status = .lengthError := by
  let s : State := { asked .read with tpReads := [.bytes (frHi8.set 2 4#8)] }
  refine ⟨s, nextOr (step (nextOr (step (nextOr (step s))))), encode .read, [], 3, by decide, rfl, rfl, by decide,
    by decide, rfl, ?_, by decide +kernel, by decide +kernel⟩
  exact ⟨_, next_nextOr (by decide +kernel), _, next_nextOr (by decide +kernel), _, next_nextOr (by decide +kernel), rfl⟩

theorem witness_ResetMeetsInvariant : ∃ c : Config, c.Valid ∧ c ≠ Config.default := ⟨cfg8, by decide⟩

theorem witness_StepKeepsInvariant : ∃ s t : State, Invariant s ∧ step s = .next t :=
  ⟨received (.bytes frHi8), _, received_inv _, next_nextOr (by decide +kernel)⟩

/-- A completion, and `rst`. -/
theorem witness_StatusChangesOnlyAtCompletion :
    (∃ s t : State, step s = .next t ∧ t.status ≠ s.status ∧ t.done = true) ∧
    (∃ s t : State, step s = .next t ∧ t.status ≠ s.status ∧ s.host = [.rst]) :=
  ⟨⟨asked (.crc16 3#16 none), _, next_nextOr (by decide +kernel), by decide +kernel, by decide +kernel⟩,
    ⟨{ ended .noData ResultRegs.zero (idle8 0#8) with host := [.rst] }, _, next_nextOr (by decide +kernel),
      by decide +kernel, rfl⟩⟩

/-- The host's write, and `rst`. -/
theorem witness_DevIdChangesOnlyByHost :
    (∃ s t : State, step s = .next t ∧ t.devid ≠ s.devid ∧ s.host = [.setDevId 0x02#8]) ∧
    (∃ s t : State, step s = .next t ∧ t.devid ≠ s.devid ∧ s.host = [.rst]) :=
  ⟨⟨{ idle8 0#8 with host := [.setDevId 0x02#8] }, _, next_nextOr (by decide +kernel), by decide +kernel, rfl⟩,
    ⟨{ idle8 0x01#8 with host := [.rst] }, _, next_nextOr (by decide +kernel), by decide +kernel, rfl⟩⟩

theorem witness_ParametersNeverChange : ∃ s t : State, step s = .next t ∧ t ≠ s :=
  ⟨asked .read, _, next_nextOr (by decide +kernel), by decide +kernel⟩

/-- A call made, and a command refused. -/
theorem witness_AtMostOneCallPerStep :
    (∃ s t : State, step s = .next t ∧ t.calls ≠ s.calls) ∧
    (∃ s t : State, step s = .next t ∧ t.cmdReject = true) :=
  ⟨⟨asked .read, _, next_nextOr (by decide +kernel), by decide +kernel⟩,
    ⟨{ asked .read with busy := true }, _, next_nextOr (by decide +kernel), by decide +kernel⟩⟩

theorem witness_FsmTransitions : ∃ s t : State, Invariant s ∧ step s = .next t ∧ (∀ rest, s.host ≠ .rst :: rest) ∧
    t.fsm ≠ s.fsm :=
  ⟨reading, _, reading_inv, next_nextOr (by decide +kernel), fun rest h => (by cases h), by decide +kernel⟩

end Sys2Proof.Tests
end

section
/-! PROOFS. The reset state, field by field, and the statement of 10_state.md R33 about it. -/

namespace Sys2Proof.Machine

/-! ### The fields of the reset state -/

@[simp] theorem State.resetOf_work (c : Config) : (State.resetOf c).work = Work.zero := rfl
@[simp] theorem State.resetOf_res (c : Config) : (State.resetOf c).res = ResultRegs.zero := rfl
@[simp] theorem State.resetOf_devid (c : Config) : (State.resetOf c).devid = c.devidReset := rfl
@[simp] theorem State.resetOf_fsm (c : Config) : (State.resetOf c).fsm = .idle := rfl
@[simp] theorem State.resetOf_status (c : Config) : (State.resetOf c).status = .ok := rfl
@[simp] theorem State.resetOf_busy (c : Config) : (State.resetOf c).busy = false := rfl
@[simp] theorem State.resetOf_done (c : Config) : (State.resetOf c).done = false := rfl

/-- Settles O1: the working state and `RES` are the cleared records, whose fields are literal zeros, the control registers
are given by the lemmas on `State.resetOf`, and the empty buffer reads 0 by `Memory.read_nil`. -/
theorem resetLeavesEveryItemZero : Obligations.ResetLeavesEveryItemZero := by
  refine ⟨fun c => ⟨State.resetOf c, rfl, ?_⟩, Memory.read_nil, rfl⟩
  simp [Work.zero, ResultRegs.zero, Packet.zero]

end Sys2Proof.Machine
end

section
/-! PROOFS. The CRC-16 engine in arithmetic, the two ways CRC16 ends, and the statements of 40_crc16.md about them. -/

namespace Sys2Proof.Machine

/-! ### The byte step and the bit step -/

/-- The byte is zero-extended before the XOR, so bits 15:8 stay (40_crc16.md R91). -/
theorem extractLsb'_high_xor_byte (c : Half) (b : Byte) :
    (c ^^^ b.setWidth 16).extractLsb' 8 8 = c.extractLsb' 8 8 := by
  have hzero : (b.setWidth 16).extractLsb' 8 8 = 0#8 := by
    rw [BitVec.extractLsb'_setWidth_of_le (by decide)]
    ext i hi
    simp
  rw [BitVec.extractLsb'_xor, hzero, BitVec.xor_zero]

theorem extractLsb'_low_xor_byte (c : Half) (b : Byte) :
    (c ^^^ b.setWidth 16).extractLsb' 0 8 = c.extractLsb' 0 8 ^^^ b := by
  rw [BitVec.extractLsb'_xor, BitVec.extractLsb'_setWidth_of_le (by decide), BitVec.extractLsb'_eq_self]

/-- The shift of a bit step is logical: it halves (40_crc16.md R92). -/
theorem ushiftRight_one_eq_div_two (c : Half) : c >>> 1 = BitVec.ofNat 16 (c.toNat / 2) := by
  have hlt : c.toNat / 2 < 2 ^ 16 := by omega
  rw [BitVec.toNat_eq, BitVec.toNat_ushiftRight, Nat.shiftRight_eq_div_pow, pow_one, BitVec.toNat_ofNat,
    Nat.mod_eq_of_lt hlt]

/-- The bit a bit step tests is the parity of `c` (40_crc16.md R92). -/
theorem getLsbD_zero_iff_odd (c : Half) : c.getLsbD 0 = true ↔ c.toNat % 2 = 1 := by
  rw [BitVec.getLsbD, Nat.testBit_zero, decide_eq_true_iff]

theorem crcBit_of_odd (poly : Half) {c : Half} (h : c.toNat % 2 = 1) :
    crcBit poly c = BitVec.ofNat 16 (c.toNat / 2) ^^^ poly := by
  rw [crcBit, if_pos ((getLsbD_zero_iff_odd c).2 h), ushiftRight_one_eq_div_two]

theorem crcBit_of_even (poly : Half) {c : Half} (h : c.toNat % 2 = 0) :
    crcBit poly c = BitVec.ofNat 16 (c.toNat / 2) := by
  have hbit : ¬c.getLsbD 0 = true := by rw [getLsbD_zero_iff_odd]; omega
  rw [crcBit, if_neg hbit, ushiftRight_one_eq_div_two]

theorem crcBits_eq_iterate (poly : Half) (n : Nat) (c : Half) : crcBits poly n c = (crcBit poly)^[n] c := by
  induction n generalizing c with
  | zero => rfl
  | succ n ih => exact ih (crcBit poly c)

/-- Settles O13: each clause is one of the lemmas above on the byte's XOR, the bit step and the iteration of bit steps. -/
theorem crcByteAndBitSteps : Obligations.CrcByteAndBitSteps := fun poly c b =>
  ⟨extractLsb'_high_xor_byte c b, extractLsb'_low_xor_byte c b, crcBit_of_odd poly, crcBit_of_even poly,
    crcBits_eq_iterate poly 8 _⟩

/-! ### The operation CRC16 -/

/-- Acceptance leaves no trace in the state an operation ends in: `ended` sets every item that `accept` does. -/
theorem ended_accept (k : Kind) (r : ResultRegs) (s : State) : ended k r (accept s) = ended k r s := rfl

/-- CRC16 ends with the checksum of the bytes its operand supplies (40_crc16.md R94). -/
theorem exec_crc16_of_supplies {s : State} {len : Half} {data : Operand} {bytes : List Byte} (hs : s.busy = false)
    (h : Supplies data len bytes) :
    exec (.crc16 len data) s =
      .next (ended .ok { ResultRegs.zero with crc16 := crc16 s.cfg.crcPoly bytes } s) := by
  obtain ⟨hpresent, hbytes⟩ := operand_of_supplies h
  rw [exec_of_idle _ hs, startBody, crc16Body, hpresent, hbytes, finish_ok_eq]
  rfl

/-- CRC16 whose operand is missing raises `InvalidArgument` (40_crc16.md R95). -/
theorem exec_crc16_of_missing {s : State} {len : Half} {data : Operand} (hs : s.busy = false)
    (h : operandMissing len data = true) :
    exec (.crc16 len data) s = .next (ended .invalidArgument ResultRegs.zero s) := by
  rw [exec_of_idle _ hs, startBody, crc16Body, if_pos h, finish_error_eq (by decide), ended_accept]

/-- Settles O16: an absent operand with a nonzero length is missing. -/
theorem crc16AbsentBufferIsInvalid : Obligations.Crc16AbsentBufferIsInvalid := fun _ len hs hlen =>
  exec_crc16_of_missing hs (by simp [operandMissing, hlen])

/-- Settles O17: with `req_len = 0` both operands supply the empty sequence, whose checksum is the initial value. -/
theorem crc16OfNoBytes : Obligations.Crc16OfNoBytes := fun _ data hs hdata =>
  have hempty : Supplies data 0#16 [] := ⟨rfl, hdata.symm.imp_right fun h => ⟨h, rfl⟩⟩
  exec_crc16_of_supplies hs hempty

end Sys2Proof.Machine
end

section
/-! PROOFS. The three ways ENCODE ends, and the statement of 41_framer.md R104 about the order of its checks. -/

namespace Sys2Proof.Machine

/-- ENCODE checks the length before it looks at the operand (41_framer.md R104). -/
theorem exec_encode_of_tooLong {s : State} {len : Half} (id command : Byte) (crc : Half) (data : Operand)
    (hs : s.busy = false) (hlen : s.cfg.maxp < len.toNat) :
    exec (.encode id command len crc data) s = .next (ended .lengthError ResultRegs.zero s) := by
  have hlong : tooLong (accept s).cfg len = true := tooLong_eq_true hlen
  rw [exec_of_idle _ hs, startBody, encodeBody, if_pos hlong, finish_error_eq (by decide), ended_accept]

/-- ENCODE of a legal length whose operand is missing raises `InvalidArgument` (41_framer.md R104). -/
theorem exec_encode_of_missing {s : State} {len : Half} {data : Operand} (id command : Byte) (crc : Half)
    (hs : s.busy = false) (hlen : len.toNat ≤ s.cfg.maxp) (hdata : operandMissing len data = true) :
    exec (.encode id command len crc data) s = .next (ended .invalidArgument ResultRegs.zero s) := by
  have hshort : ¬tooLong (accept s).cfg len = true := by simp [tooLong_eq_false hlen]
  rw [exec_of_idle _ hs, startBody, encodeBody, if_neg hshort, if_pos hdata, finish_error_eq (by decide), ended_accept]

/-- ENCODE of a legal length with its data ends with the request's Packet encoded into a cleared buffer
(41_framer.md R103). -/
theorem exec_encode_of_supplies {s : State} {len : Half} {data : Operand} {bytes : List Byte} (id command : Byte)
    (crc : Half) (hs : s.busy = false) (hlen : len.toNat ≤ s.cfg.maxp) (hdata : Supplies data len bytes) :
    exec (.encode id command len crc data) s =
      .next (ended .ok { ResultRegs.zero with
        frame := enc s.cfg Work.zero.txf (requestPacket id command len crc data) } s) := by
  have hshort : tooLong (accept s).cfg len = false := tooLong_eq_false hlen
  rw [exec_of_idle _ hs, startBody, encodeBody, hshort, (operand_of_supplies hdata).1, finish_ok_eq]
  rfl

/-- Settles O19: one lemma per way of ending; a present operand of `req_len` bytes supplies its data. -/
theorem encodeErrorsInOrder : Obligations.EncodeErrorsInOrder := fun _ id command _ crc hs =>
  ⟨fun hlong data => exec_encode_of_tooLong id command crc data hs hlong,
    fun hpos hlen => exec_encode_of_missing id command crc hs hlen (operandMissing_none hpos),
    fun hmax _ hbytes =>
      ⟨_, exec_encode_of_supplies id command crc hs hmax.le ⟨hbytes.trans hmax.symm, .inl rfl⟩⟩⟩

end Sys2Proof.Machine
end

section
/-! PROOFS. A good reply at `W6` that is neither ACK nor NACK, and the statement of 42_sender.md R131 about it. -/

namespace Sys2Proof.Machine

/-- `W6` with a good frame of another command takes the frame in and goes back to the guard, without `Resend`
(42_sender.md R131). -/
theorem senderW6_otherReply {s : State} {b : List Byte} {rest : List ReadAnswer} (hF : 5 ≤ s.cfg.F)
    (hreads : s.tpReads = .bytes b :: rest) (hgood : GoodFrame s.cfg b) (hack : b.getD 1 0#8 ≠ s.cfg.ackCode)
    (hnack : b.getD 1 0#8 ≠ s.cfg.nackCode) :
    senderW6 s = awaitReply (receiveFrame b (setTpReads rest s)) := by
  rw [senderW6_frame hreads hgood.1, senderW7_good (s := setTpReads rest s) hF hgood, setTpReads_cfg, if_neg hack,
    if_neg hnack]

/-- Settles O38: `receiveFrame` writes only the receive side, to the Packet and the bytes of the frame, and `awaitReply` only
makes the `ClkNow` of the guard. -/
theorem otherReplyIsIgnored : Obligations.OtherReplyIsIgnored := by
  intro s b rest hvalid hquiet hlabel hreads hgood hack hnack
  have hF : 5 ≤ (nextAct s).cfg.F := hvalid.1
  refine ⟨packetOf s.cfg b, Memory.ofBytes b, ?_⟩
  rw [step_w6 hvalid hquiet hlabel, senderW6_otherReply (s := nextAct s) hF hreads hgood hack hnack,
    receiveFrame_of_le (s := setTpReads rest (nextAct s)) hF hgood.1 hgood.2.1]
  rfl

end Sys2Proof.Machine
end

section
/-! PROOFS. A frame with a bad `length` byte at `RD3`, and the statement of 43_receiver.md R154 and R155 about it. -/

namespace Sys2Proof.Machine

theorem step_rd3 {s : State} (h : s.cfg.Valid) (hq : Quiet s) (hl : s.label = .rd3) :
    step s = .next (receiverRD3 (nextAct s)) := by
  rw [step_quiet h hq, advance, nextAct_label, hl]

/-- The end of an operation forgets the frame it received: the working state is cleared (60_exceptions.md R176). -/
theorem ended_receiveFrame (k : Kind) (r : ResultRegs) (b : List Byte) (s : State) :
    ended k r (receiveFrame b s) = ended k r s := rfl

/-- `RD3` with a frame of a bad `length` byte ends in `LengthError`: of the state before, only the answer is used up
(43_receiver.md R154, R155). -/
theorem receiverRD3_badLength {s : State} {b : List Byte} {rest : List ReadAnswer} (hF : 5 ≤ s.cfg.F)
    (hreads : s.tpReads = .bytes b :: rest) (hb : b.length = s.cfg.F)
    (hbad : s.cfg.maxp < (b.getD 2 0#8).toNat ∨ (b.getD 2 0#8).toNat < s.cfg.minLen.toNat) :
    receiverRD3 s = ended .lengthError ResultRegs.zero (setTpReads rest s) := by
  rw [receiverRD3_frame hreads hb, receiverRD4_badLength (s := setTpReads rest s) hF hb hbad,
    finish_error_eq (by decide), ended_receiveFrame]

/-- Settles O47: both length checks come before the checksum and before any reply, so the block raises `LengthError` with
no call made. -/
theorem badLengthIsRejectedInSilence : Obligations.BadLengthIsRejectedInSilence := by
  intro s b rest hvalid hquiet hlabel hreads hb hbad
  have hF : 5 ≤ (nextAct s).cfg.F := hvalid.1
  rw [step_rd3 hvalid hquiet hlabel, receiverRD3_badLength (s := nextAct s) hF hreads hb hbad]
  rfl

end Sys2Proof.Machine
end

section
/-! PROOFS. The reserved command words, and the statement of 60_exceptions.md R182 about what the block refuses. -/

namespace Sys2Proof.Machine

/-- Outside 1 to 5 a word differs from every operation's word, so it selects none (30_encoding.md R71, R75). -/
theorem opcode_ofWord_of_reserved {w : Byte} (h : w.toNat = 0 ∨ 6 ≤ w.toNat) : Opcode.ofWord w = none := by
  have hne : w ≠ 0x01#8 ∧ w ≠ 0x02#8 ∧ w ≠ 0x03#8 ∧ w ≠ 0x04#8 ∧ w ≠ 0x05#8 := by
    refine ⟨?_, ?_, ?_, ?_, ?_⟩ <;> (rintro rfl; simp at h)
  simp [Opcode.ofWord, hne]

theorem decode_of_reserved {r : Request} (h : r.op.toNat = 0 ∨ 6 ≤ r.op.toNat) : decode r = none := by
  rw [decode, opcode_ofWord_of_reserved h]

theorem hostStart_of_reserved {r : Request} (s : State) (h : r.op.toNat = 0 ∨ 6 ≤ r.op.toNat) :
    hostStart r s = .next (reject s) := by
  rw [hostStart, decode_of_reserved h]

/-- A busy block refuses every bundle: a reserved word as such, a legal one because it is busy (60_exceptions.md R182). -/
theorem hostStart_of_busy {s : State} (r : Request) (h : s.busy = true) : hostStart r s = .next (reject s) := by
  cases hd : decode r with
  | none => rw [hostStart, hd]
  | some i => rw [hostStart_some hd (.inl h), exec_of_busy i h]

theorem hostSetDevId_of_busy {s : State} (v : Byte) (h : s.busy = true) : hostSetDevId v s = reject s := if_pos h

/-- A refused act is used up and pulses `cmd_reject`; nothing else changes (60_exceptions.md R182). -/
theorem reject_nextAct {s : State} {a : HostAct} {rest : List HostAct} (h : s.host = a :: rest) :
    reject (nextAct s) = { s with host := rest, cmdReject := true } := by
  rw [reject, nextAct, h, List.tail_cons]

/-- Settles O5: each of the three acts leads to `reject`, and so does `exec` of a busy block. -/
theorem refusalsChangeNothing : Obligations.RefusalsChangeNothing := by
  refine ⟨fun s r rest hvalid hhost hbusy => ?_, fun s r rest hvalid hhost hreserved => ?_,
    fun s v rest hvalid hhost hbusy => ?_, fun i s hbusy => exec_of_busy i hbusy⟩
  · rw [step_start hvalid hhost, hostStart_of_busy (s := nextAct s) r hbusy, reject_nextAct hhost]
  · rw [step_start hvalid hhost, hostStart_of_reserved _ hreserved, reject_nextAct hhost]
  · rw [step_setDevId hvalid hhost, hostSetDevId_of_busy (s := nextAct s) v hbusy, reject_nextAct hhost]

end Sys2Proof.Machine
end

section
/-! PROOFS. What `Dec` gives of a buffer that `Enc` has written into, and the statements of 41_framer.md about
encoding and decoding a Packet. -/

namespace Sys2Proof.Machine

/-! ### Encoding, then decoding -/

/-- Outside the CRC field `Enc` leaves what its header and payload part leaves (41_framer.md R100). -/
theorem read_enc_of_lt {c : Config} {b : Memory} (hb : Memory.wf b) (p : Packet) {i : Nat} (hi : i < c.F - 2) :
    Memory.read (enc c b p) i = Memory.read (encHeader b p) i := by
  rw [read_enc c hb, if_neg (by omega), if_neg (by omega)]

/-- Beyond the payload the header and payload part leaves the old buffer (41_framer.md R102). -/
theorem read_encHeader_of_ge {b : Memory} (hb : Memory.wf b) {p : Packet} {i : Nat} (hi : 3 + p.length.toNat ≤ i) :
    Memory.read (encHeader b p) i = Memory.read b i := by
  rw [read_encHeader hb, if_neg (by omega), if_neg (by omega), if_neg (by omega), if_neg (by omega)]

/-- The CRC field after `Enc`, as `Dec` reads it: `P.crc`, or the old field when `P.crc = 0` (41_framer.md R101). -/
theorem halfOf_enc {c : Config} (hF : 5 ≤ c.F) {b : Memory} (hb : Memory.wf b) {p : Packet}
    (hp : p.length.toNat ≤ c.maxp) :
    halfOf (Memory.read (enc c b p) (c.F - 1)) (Memory.read (enc c b p) (c.F - 2)) =
      if p.crc = 0#16 then halfOf (Memory.read b (c.F - 1)) (Memory.read b (c.F - 2)) else p.crc := by
  unfold Config.maxp at hp
  by_cases hc : p.crc = 0#16
  · rw [if_pos hc, enc, if_pos hc, read_encHeader_of_ge hb (by omega), read_encHeader_of_ge hb (by omega)]
  · rw [if_neg hc, read_enc c hb, if_pos ⟨hc, rfl⟩, read_enc c hb, if_neg (by omega), if_pos ⟨hc, rfl⟩,
      halfOf_high_low]

/-- `Dec` of an encoded buffer gives the Packet back, its CRC the old field of the buffer when `P.crc = 0`
(41_framer.md R101, R112). -/
theorem dec_enc {c : Config} (hF : 5 ≤ c.F) {b : Memory} (hb : Memory.wf b) {p : Packet}
    (hp : p.length.toNat ≤ c.maxp) :
    dec c (enc c b p) = some { p with
      payload := Memory.ofBytes (Memory.readBytes p.payload 0 p.length.toNat)
      crc := if p.crc = 0#16 then halfOf (Memory.read b (c.F - 1)) (Memory.read b (c.F - 2)) else p.crc } := by
  have hp' := hp
  unfold Config.maxp at hp'
  have hid : Memory.read (enc c b p) 0 = p.id := by
    rw [read_enc_of_lt hb p (by omega), read_encHeader hb]; simp
  have hcommand : Memory.read (enc c b p) 1 = p.command := by
    rw [read_enc_of_lt hb p (by omega), read_encHeader hb]; simp
  have hlength : Memory.read (enc c b p) 2 = p.length := by
    rw [read_enc_of_lt hb p (by omega), read_encHeader hb]; simp
  have hpayload : Memory.readBytes (enc c b p) 3 p.length.toNat = Memory.readBytes p.payload 0 p.length.toNat :=
    readBytes_shift fun i hi => by
      rw [read_enc_of_lt hb p (by omega), read_encHeader hb, if_pos (by omega), Nat.add_sub_cancel_left, Nat.zero_add]
  rw [dec_of_le (by rw [hlength]; exact hp), hid, hcommand, hlength, hpayload, halfOf_enc hF hb hp]

/-- Settles O22: in a cleared buffer the old CRC field is 0, so `dec_enc` gives back `P.crc` in both of its cases. -/
theorem packetRoundTrip : Obligations.PacketRoundTrip := by
  intro c p hvalid hp
  have hF : 5 ≤ c.F := hvalid.1
  have hcrc :
      (if p.crc = 0#16 then halfOf (Memory.read [] (c.F - 1)) (Memory.read [] (c.F - 2)) else p.crc) = p.crc := by
    split
    · rename_i hzero; rw [hzero, Memory.read_nil, Memory.read_nil]; decide
    · rfl
  refine ⟨_, dec_enc hF Memory.wf_nil hp, rfl, rfl, rfl, hcrc, fun i hi => ?_, fun i hi => ?_⟩
  · simp only [Memory.read_ofBytes, Memory.readBytes_getD]
    rw [if_pos hi, Nat.zero_add]
  · simp only [Memory.read_ofBytes, Memory.readBytes_getD]
    rw [if_neg (by omega)]

end Sys2Proof.Machine
end

section
/-! PROOFS. The invariant, taken apart by what the block is doing (idle, WRITE before its loop, WRITE in its loop,
READ), what each point of WRITE and READ leaves of it, and the statement that every step keeps it. -/

namespace Sys2Proof.Machine

/-! ### The clauses of the invariant, by what the block is doing -/

/-- `RES` within its capacities. -/
abbrev ResultRegs.Fits (c : Config) (r : ResultRegs) : Prop := Memory.Fits c.F r.frame ∧ Packet.Fits c r.packet

theorem ResultRegs.fits_zero (c : Config) : ResultRegs.zero.Fits c := ⟨Memory.fits_nil _, Packet.fits_zero c⟩

/-- What the invariant says of a block that runs an operation, whichever it is. -/
structure Occupied (s : State) : Prop where
  valid : s.cfg.Valid
  busy : s.busy = true
  done : s.done = false
  res : s.res = ResultRegs.zero
  fsm : s.fsm = s.label.fsm

/-- The transmit side of a WRITE holds its data frame (42_sender.md R122). -/
structure DataSide (c : Config) (devid : Byte) (w : Work) : Prop where
  txf : Memory.Fits c.F w.txf
  txp : w.txp.Fits c
  id : w.txp.id = devid
  frame : frameBytes c w.txf =
    wireFrame c devid w.txp.command (Memory.readBytes w.txp.payload 0 w.txp.length.toNat)

/-- The transmit side of a READ holds the reply frame with the command `code` (43_receiver.md R152, R158). -/
structure ReplySide (c : Config) (devid code : Byte) (w : Work) : Prop where
  txf : Memory.Fits c.F w.txf
  id : w.txp.id = devid
  length : w.txp.length = 0#8
  payload : w.txp.payload = []
  frame : frameBytes c w.txf = wireFrame c devid code []

theorem ReplySide.fits {c : Config} {devid code : Byte} {w : Work} (h : ReplySide c devid code w) : w.txp.Fits c := by
  rw [Packet.Fits, h.length, h.payload]
  exact ⟨Nat.zero_le _, Memory.fits_nil _⟩

/-- The receive side: `RXP` is what `Dec(RXF)` gives (41_framer.md R105). -/
structure ReceiveSide (c : Config) (w : Work) : Prop where
  rxf : Memory.Fits c.F w.rxf
  rxp : w.rxp = (dec c w.rxf).getD Packet.zero

theorem receiveSide_of_zero {c : Config} {w : Work} (hrxf : w.rxf = []) (hrxp : w.rxp = Packet.zero) :
    ReceiveSide c w :=
  ⟨hrxf ▸ Memory.fits_nil _, by rw [hrxf, hrxp, dec_nil]; rfl⟩

/-- The counters outside the wait loop. -/
structure CountersZero (w : Work) : Prop where
  acked : w.acked = false
  cont : w.cont = 0#8
  start : w.start = 0#32
  budget : w.budget = 0#32
  ext : w.ext = false

/-- The counters in the wait loop (10_state.md R22, R24, R25). -/
structure LoopCounters (c : Config) (w : Work) : Prop where
  acked : w.acked = false
  cont : w.cont.toNat ≤ c.maxAttempts + 1
  budget : w.budget.toNat = c.maxAckWait + (if w.ext then c.retryInterval else 0)

variable {s : State}

/-- An idle block meets the invariant when its working state is zero and its results fit. -/
theorem invariant_of_idle (hvalid : s.cfg.Valid) (hres : s.res.Fits s.cfg) (hwork : s.work = Work.zero)
    (hfsm : s.fsm = .idle) (hbusy : s.busy = false) (hlabel : s.label = .none)
    (hstatus : s.status ≠ .ok → s.res = ResultRegs.zero) : Invariant s := by
  refine ⟨hvalid, ?_, ?_, ⟨fun _ => hwork, ?_, hstatus⟩, ?_, ?_, ?_, ?_⟩
  · simp only [BuffersOk, hwork]
    exact ⟨Memory.fits_nil _, Memory.fits_nil _, hres.1, Packet.fits_zero _, Packet.fits_zero _, hres.2⟩
  · simp [ControlOk, hfsm, hbusy, hlabel, Label.fsm]
  · simp [hbusy]
  · simp [LoopOk, hwork, hlabel, Work.zero, Label.inLoop]
  · simp [TransmitOk, hlabel, Label.inWrite]
  · rw [hwork]; exact (receiveSide_of_zero (w := Work.zero) rfl rfl).rxp
  · simp [hlabel]

/-- A busy block meets the invariant when its working state does what the running operation asks of it. -/
theorem Occupied.invariant (ho : Occupied s) (hlabel : s.label ≠ .none) (htxf : Memory.Fits s.cfg.F s.work.txf)
    (htxp : s.work.txp.Fits s.cfg) (hreceive : ReceiveSide s.cfg s.work) (hloop : LoopOk s) (htransmit : TransmitOk s)
    (hchecked : s.label = .rd6 → frameCrcOk s.cfg s.work.rxf = true ∧ s.cfg.minLen ≤ s.work.rxp.length) :
    Invariant s := by
  have hfits : s.res.Fits s.cfg := ho.res ▸ ResultRegs.fits_zero _
  have hrxp : s.work.rxp.Fits s.cfg := hreceive.rxp ▸ Packet.fits_dec_getD _ _
  exact ⟨ho.valid, ⟨htxf, hreceive.rxf, hfits.1, htxp, hrxp, hfits.2⟩,
    ⟨ho.fsm, by simp [ho.busy, hlabel], fun _ => ho.done⟩, ⟨by simp [ho.busy], fun _ => ho.res, fun _ => ho.res⟩, hloop,
    htransmit, hreceive.rxp, hchecked⟩

/-- A block inside WRITE before its wait loop. -/
theorem invariant_of_setUp (ho : Occupied s) (hlabel : s.label = .w3 ∨ s.label = .w4)
    (hdata : DataSide s.cfg s.devid s.work) (hreceive : ReceiveSide s.cfg s.work) (hzero : CountersZero s.work) :
    Invariant s := by
  obtain ⟨hacked, hcont, hstart, hbudget, hext⟩ := hzero
  refine ho.invariant ?_ hdata.txf hdata.txp hreceive ?_ ⟨fun _ => ⟨hdata.id, hdata.frame⟩, ?_, ?_, ?_⟩ ?_
  · rcases hlabel with hl | hl <;> simp [hl]
  · rcases hlabel with hl | hl <;> simp [LoopOk, hl, hacked, hcont, hstart, hbudget, hext, Label.inLoop]
  all_goals rcases hlabel with hl | hl <;> simp [hl]

/-- A block inside the wait loop of WRITE. -/
theorem invariant_of_loop (ho : Occupied s) (hlabel : s.label = .w5 ∨ s.label = .w6 ∨ s.label = .w8)
    (hdata : DataSide s.cfg s.devid s.work) (hreceive : ReceiveSide s.cfg s.work) (hloop : LoopCounters s.cfg s.work)
    (hw6 : s.label = .w6 → s.work.cont.toNat ≤ s.cfg.maxAttempts)
    (hw8 : s.label = .w8 → s.work.cont.toNat < s.cfg.maxAttempts) : Invariant s := by
  refine ho.invariant ?_ hdata.txf hdata.txp hreceive ⟨hloop.acked, hloop.cont, hw6, hw8, fun _ => hloop.budget, ?_⟩
    ⟨fun _ => ⟨hdata.id, hdata.frame⟩, ?_, ?_, ?_⟩ ?_
  all_goals rcases hlabel with hl | hl | hl <;> simp [hl, Label.inLoop]

/-- A block inside READ that holds its NACK frame. -/
theorem invariant_of_nack (ho : Occupied s) (hlabel : s.label = .rd3 ∨ s.label = .rd3Nack ∨ s.label = .rd5Nack)
    (hreply : ReplySide s.cfg s.devid s.cfg.nackCode s.work) (hreceive : ReceiveSide s.cfg s.work)
    (hzero : CountersZero s.work) : Invariant s := by
  obtain ⟨hacked, hcont, hstart, hbudget, hext⟩ := hzero
  refine ho.invariant ?_ hreply.txf hreply.fits hreceive ?_
    ⟨?_, ?_, fun _ => ⟨hreply.id, hreply.length, hreply.payload, hreply.frame⟩, ?_⟩ ?_
  · rcases hlabel with hl | hl | hl <;> simp [hl]
  · rcases hlabel with hl | hl | hl <;> simp [LoopOk, hl, hacked, hcont, hstart, hbudget, hext, Label.inLoop]
  all_goals rcases hlabel with hl | hl | hl <;> simp [hl, Label.inWrite]

/-- A block inside READ that answers a good frame with its ACK frame. -/
theorem invariant_of_ack (ho : Occupied s) (hlabel : s.label = .rd6)
    (hreply : ReplySide s.cfg s.devid s.cfg.ackCode s.work) (hreceive : ReceiveSide s.cfg s.work)
    (hzero : CountersZero s.work) (hcrc : frameCrcOk s.cfg s.work.rxf = true)
    (hmin : s.cfg.minLen ≤ s.work.rxp.length) : Invariant s := by
  obtain ⟨hacked, hcont, hstart, hbudget, hext⟩ := hzero
  refine ho.invariant (by simp [hlabel]) hreply.txf hreply.fits hreceive ?_ ⟨?_, ?_, ?_, fun _ => hreply.frame⟩
    fun _ => ⟨hcrc, hmin⟩
  · simp [LoopOk, hlabel, hacked, hcont, hstart, hbudget, hext, Label.inLoop]
  all_goals simp [hlabel, Label.inWrite]

/-- A block inside READ that has made its `TpFlush`. -/
theorem invariant_of_flushed (ho : Occupied s) (hlabel : s.label = .rd2) (hwork : s.work = Work.zero) :
    Invariant s := by
  have hreceive : ReceiveSide s.cfg s.work := receiveSide_of_zero (by rw [hwork]; rfl) (by rw [hwork]; rfl)
  refine ho.invariant (by simp [hlabel]) ?_ ?_ hreceive ?_ ⟨?_, fun _ => hwork, ?_, ?_⟩ ?_
  · rw [hwork]; exact Memory.fits_nil _
  · rw [hwork]; exact Packet.fits_zero _
  · simp [LoopOk, hlabel, hwork, Work.zero, Label.inLoop]
  all_goals simp [hlabel, Label.inWrite]

/-! ### What the invariant says at each point -/

theorem Invariant.valid (h : Invariant s) : s.cfg.Valid := h.1

theorem Invariant.buffersOk (h : Invariant s) : BuffersOk s := h.2.1

theorem Invariant.controlOk (h : Invariant s) : ControlOk s := h.2.2.1

theorem Invariant.clearedOk (h : Invariant s) : ClearedOk s := h.2.2.2.1

theorem Invariant.loopOk (h : Invariant s) : LoopOk s := h.2.2.2.2.1

theorem Invariant.transmitOk (h : Invariant s) : TransmitOk s := h.2.2.2.2.2.1

theorem Invariant.receiveOk (h : Invariant s) : ReceiveOk s := h.2.2.2.2.2.2

theorem Invariant.label_of_idle (h : Invariant s) (hbusy : s.busy = false) : s.label = .none := by
  obtain ⟨-, hiff, -⟩ := h.controlOk
  by_contra hne
  simp [hiff.2 hne] at hbusy

theorem Invariant.occupied (h : Invariant s) (hlabel : s.label ≠ .none) : Occupied s := by
  obtain ⟨hfsm, hiff, hdone⟩ := h.controlOk
  obtain ⟨-, hres, -⟩ := h.clearedOk
  have hbusy := hiff.2 hlabel
  exact ⟨h.valid, hbusy, hdone hbusy, hres hbusy, hfsm⟩

theorem Invariant.resFits (h : Invariant s) : s.res.Fits s.cfg := by
  obtain ⟨-, -, hframe, -, -, hpacket⟩ := h.buffersOk
  exact ⟨hframe, hpacket⟩

theorem Invariant.receiveSide (h : Invariant s) : ReceiveSide s.cfg s.work := by
  obtain ⟨-, hrxf, -⟩ := h.buffersOk
  exact ⟨hrxf, h.receiveOk.1⟩

theorem Invariant.dataSide (h : Invariant s) (hlabel : s.label.inWrite = true) : DataSide s.cfg s.devid s.work := by
  obtain ⟨htxf, -, -, htxp, -⟩ := h.buffersOk
  obtain ⟨hwrite, -⟩ := h.transmitOk
  obtain ⟨hid, hframe⟩ := hwrite hlabel
  exact ⟨htxf, htxp, hid, hframe⟩

theorem Invariant.replySide (h : Invariant s) (hlabel : s.label = .rd3 ∨ s.label = .rd3Nack ∨ s.label = .rd5Nack) :
    ReplySide s.cfg s.devid s.cfg.nackCode s.work := by
  obtain ⟨htxf, -⟩ := h.buffersOk
  obtain ⟨-, -, hread, -⟩ := h.transmitOk
  obtain ⟨hid, hlength, hpayload, hframe⟩ := hread hlabel
  exact ⟨htxf, hid, hlength, hpayload, hframe⟩

theorem Invariant.countersZero (h : Invariant s) (hlabel : s.label.inLoop = false) : CountersZero s.work := by
  obtain ⟨hacked, -, -, -, -, hzero⟩ := h.loopOk
  obtain ⟨hcont, hstart, hbudget, hext⟩ := hzero hlabel
  exact ⟨hacked, hcont, hstart, hbudget, hext⟩

theorem Invariant.loopCounters (h : Invariant s) (hlabel : s.label.inLoop = true) : LoopCounters s.cfg s.work := by
  obtain ⟨hacked, hcont, -, -, hbudget, -⟩ := h.loopOk
  exact ⟨hacked, hcont, hbudget hlabel⟩

/-! ### What each operation leaves of the invariant -/

/-- The end of an operation meets the invariant; only `Ok` leaves results (60_exceptions.md R176). -/
theorem invariant_finish {k : Kind} (hvalid : s.cfg.Valid) (hres : k = .ok → s.res.Fits s.cfg) :
    Invariant (finish k s) := by
  refine invariant_of_idle hvalid ?_ rfl rfl rfl rfl fun hk => if_neg hk
  rw [finish_res]
  split
  · exact hres ‹_›
  · exact ResultRegs.fits_zero _

/-- An operation that fails ends in a state that meets the invariant. -/
theorem invariant_finish_error {k : Kind} (hk : k ≠ .ok) (hvalid : s.cfg.Valid) : Invariant (finish k s) :=
  invariant_finish hvalid fun h => absurd h hk

/-- A call made by a busy block leaves it busy; `FSM` is as the next point asks. -/
theorem Occupied.calling {l : Label} (ho : Occupied s) (w : Work) (ws : List WriteAnswer) (rs : List ReadAnswer)
    (ts : List Tick) (c : Call) : Occupied (issue c l (setFsm l.fsm (taking w ws rs ts s))) :=
  ⟨ho.valid, ho.busy, ho.done, ho.res, rfl⟩

/-- A call that leaves `FSM` alone leads to a point with the same `FSM`. -/
theorem Occupied.callingOn {l : Label} (ho : Occupied s) (hl : s.label.fsm = l.fsm) (w : Work) (ws : List WriteAnswer)
    (rs : List ReadAnswer) (ts : List Tick) (c : Call) : Occupied (issue c l (taking w ws rs ts s)) :=
  ⟨ho.valid, ho.busy, ho.done, ho.res, ho.fsm.trans hl⟩

/-- A received frame goes through `Dec` into the receive side (41_framer.md R105, R106). -/
theorem receiveSide_receiveFrame {b : List Byte} (hb : b.length = s.cfg.F) :
    ReceiveSide s.cfg (receiveFrame b s).work :=
  ⟨hb ▸ Memory.fits_ofBytes b, rfl⟩

theorem DataSide.congr {c : Config} {devid : Byte} {w w' : Work} (h : DataSide c devid w) (htxp : w'.txp = w.txp)
    (htxf : w'.txf = w.txf) : DataSide c devid w' :=
  ⟨htxf ▸ h.txf, htxp ▸ h.txp, htxp ▸ h.id, by rw [htxp, htxf]; exact h.frame⟩

theorem ReplySide.congr {c : Config} {devid code : Byte} {w w' : Work} (h : ReplySide c devid code w)
    (htxp : w'.txp = w.txp) (htxf : w'.txf = w.txf) : ReplySide c devid code w' :=
  ⟨htxf ▸ h.txf, htxp ▸ h.id, htxp ▸ h.length, htxp ▸ h.payload, htxf ▸ h.frame⟩

/-- `CONT + 1` does not wrap: `MAX_ATTEMPTS <= 254` (10_state.md R22). -/
theorem toNat_cont_succ {c : Config} {b : Byte} (hv : c.Valid) (hb : b.toNat ≤ c.maxAttempts) :
    (b + 1#8).toNat = b.toNat + 1 := by
  obtain ⟨-, -, -, hattempts, -⟩ := hv
  rw [BitVec.toNat_add, BitVec.toNat_ofNat, Nat.mod_eq_of_lt (by omega)]

theorem LoopCounters.count {c : Config} {w : Work} (h : LoopCounters c w) (hv : c.Valid)
    (hc : w.cont.toNat ≤ c.maxAttempts) : LoopCounters c { w with cont := w.cont + 1#8 } :=
  ⟨h.acked, by rw [toNat_cont_succ hv hc]; omega, h.budget⟩

/-- The working state after a valid NACK, said once for both values of `EXT` (42_sender.md R130). -/
def extended (c : Config) (w : Work) : Work :=
  { w with
    budget := if w.ext then w.budget else w.budget + BitVec.ofNat tickWidth c.retryInterval
    ext := true
    acked := false }

theorem extendBudget_eq (s : State) : extendBudget s = setWork (extended s.cfg s.work) s := by
  cases hext : s.work.ext with
  | true => simp [extendBudget, extended, hext]
  | false => simp [extendBudget, extended, hext]

/-- `BUDGET` is extended once, and the extended value stays within its width (00_scope.md R7, 10_state.md R24). -/
theorem toNat_budget_extended {c : Config} {w : Work} (hv : c.Valid)
    (h : w.budget.toNat = c.maxAckWait + (if w.ext then c.retryInterval else 0)) :
    (extended c w).budget.toNat = c.maxAckWait + c.retryInterval := by
  obtain ⟨-, -, -, -, hwidth, -⟩ := hv
  unfold extended
  cases hext : w.ext with
  | true => simpa [hext] using h
  | false =>
    have hbudget : w.budget.toNat = c.maxAckWait := by simpa [hext] using h
    show (w.budget + BitVec.ofNat tickWidth c.retryInterval).toNat = c.maxAckWait + c.retryInterval
    rw [BitVec.toNat_add, hbudget, BitVec.toNat_ofNat]
    simp only [tickWidth] at *
    omega

theorem LoopCounters.extended {c : Config} {w : Work} (h : LoopCounters c w) (hv : c.Valid) :
    LoopCounters c (extended c w) :=
  ⟨rfl, h.cont, toNat_budget_extended hv h.budget⟩

/-- `Resend` meets the invariant, whether it transmits again or only counts (42_sender.md R132). -/
theorem invariant_resend (ho : Occupied s) (hlabel : s.label = .w6) (hdata : DataSide s.cfg s.devid s.work)
    (hreceive : ReceiveSide s.cfg s.work) (hloop : LoopCounters s.cfg s.work)
    (hcont : s.work.cont.toNat ≤ s.cfg.maxAttempts) : Invariant (resend s) := by
  by_cases hlt : s.work.cont.toNat < s.cfg.maxAttempts
  · rw [resend, if_pos hlt]
    exact invariant_of_loop (ho.calling s.work s.tpWrites s.tpReads s.ticks _) (.inr (.inr rfl)) hdata hreceive hloop
      nofun fun _ => hlt
  · rw [resend, if_neg hlt]
    exact invariant_of_loop (ho.callingOn (by rw [hlabel]; rfl) _ s.tpWrites s.tpReads s.ticks _) (.inl rfl)
      (hdata.congr rfl rfl) ⟨hreceive.rxf, hreceive.rxp⟩ (hloop.count ho.valid hcont) nofun nofun

/-- An awaited `TpWrite` keeps the invariant when its `ok` does. -/
theorem Invariant.onWritten {k : State → State} (h : Invariant s)
    (hk : ∀ rest, Invariant (k (setTpWrites rest s))) : Invariant (onWritten k s) := by
  rcases onWritten_cases k s with ⟨-, e⟩ | ⟨rest, -, e⟩ | ⟨rest, -, e⟩
  · rw [e]; exact h
  · rw [e]; exact hk rest
  · rw [e]; exact invariant_finish_error (by decide) h.valid

theorem Invariant.senderW3 (h : Invariant s) (hl : s.label = .w3) : Invariant (senderW3 s) :=
  h.onWritten fun rest =>
    invariant_of_setUp ((h.occupied (by simp [hl])).calling s.work rest s.tpReads s.ticks _) (.inr rfl)
      (h.dataSide (by rw [hl]; rfl)) h.receiveSide (h.countersZero (by rw [hl]; rfl))

theorem Invariant.senderW4 (h : Invariant s) (hl : s.label = .w4) : Invariant (senderW4 s) := by
  have hdata := h.dataSide (by rw [hl]; rfl)
  have hreceive := h.receiveSide
  rcases ht : s.ticks with _ | ⟨now, rest⟩
  · rw [Machine.senderW4, onTick_waiting _ ht]; exact h
  · rw [Machine.senderW4, onTick_cons _ ht]
    exact invariant_of_loop ((h.occupied (by simp [hl])).callingOn (by rw [hl]; rfl) _ s.tpWrites s.tpReads rest _)
      (.inl rfl) (hdata.congr rfl rfl) ⟨hreceive.rxf, hreceive.rxp⟩
      ⟨rfl, Nat.zero_le _, toNat_maxAckWait h.valid⟩ nofun nofun

theorem Invariant.senderW5 (h : Invariant s) (hl : s.label = .w5) : Invariant (senderW5 s) := by
  have ho := h.occupied (by simp [hl])
  have hdata := h.dataSide (by rw [hl]; rfl)
  have hloop := h.loopCounters (by rw [hl]; rfl)
  rcases ht : s.ticks with _ | ⟨now, rest⟩
  · rw [Machine.senderW5, onTick_waiting _ ht]; exact h
  · rw [senderW5_tick ht]
    split_ifs with hguard
    · exact invariant_finish_error (by decide) h.valid
    · rw [guardFails_iff, not_or] at hguard
      exact invariant_of_loop (ho.callingOn (by rw [hl]; rfl) s.work s.tpWrites s.tpReads rest _) (.inr (.inl rfl))
        hdata h.receiveSide hloop (fun _ => Nat.not_lt.1 hguard.1) nofun
    · exact invariant_of_loop (ho.callingOn (by rw [hl]) s.work s.tpWrites s.tpReads rest _) (.inl rfl)
        hdata h.receiveSide hloop nofun nofun

theorem Invariant.senderW6 (h : Invariant s) (hl : s.label = .w6) : Invariant (senderW6 s) := by
  have hF : 5 ≤ s.cfg.F := h.valid.1
  have ho := h.occupied (by simp [hl])
  have hdata := h.dataSide (by rw [hl]; rfl)
  have hloop := h.loopCounters (by rw [hl]; rfl)
  obtain ⟨-, -, hcont, -⟩ := h.loopOk
  rcases hr : s.tpReads with _ | ⟨a, rest⟩
  · rw [Machine.senderW6, onReadAnswer_waiting _ hr]; exact h
  by_cases ha : ∀ b, a = .bytes b → b.length ≠ s.cfg.F
  · rw [senderW6_noFrame hr ha]
    exact invariant_of_loop (ho.callingOn (by rw [hl]; rfl) s.work s.tpWrites rest s.ticks _) (.inl rfl) hdata
      h.receiveSide hloop nofun nofun
  push Not at ha
  obtain ⟨b, rfl, hb⟩ := ha
  have hreceive : ReceiveSide s.cfg (receiveFrame b (setTpReads rest s)).work := receiveSide_receiveFrame hb
  rw [senderW6_frame hr hb]
  by_cases hgood : GoodFrame s.cfg b
  · rw [senderW7_good (s := setTpReads rest s) hF hgood]
    split_ifs
    · exact invariant_finish h.valid fun _ => h.resFits
    · rw [extendBudget_eq]
      exact invariant_resend ⟨ho.valid, ho.busy, ho.done, ho.res, ho.fsm⟩ hl
        (hdata.congr rfl rfl) ⟨hreceive.rxf, hreceive.rxp⟩
        (LoopCounters.extended ⟨hloop.acked, hloop.cont, hloop.budget⟩ h.valid) (hcont hl)
    · exact invariant_of_loop (ho.callingOn (by rw [hl]; rfl) _ s.tpWrites rest s.ticks _) (.inl rfl)
        (hdata.congr rfl rfl) hreceive ⟨hloop.acked, hloop.cont, hloop.budget⟩ nofun nofun
  · rw [senderW7_noise (s := setTpReads rest s) hF hb hgood]
    exact invariant_resend ⟨ho.valid, ho.busy, ho.done, ho.res, ho.fsm⟩ hl
      (hdata.congr rfl rfl) hreceive ⟨hloop.acked, hloop.cont, hloop.budget⟩ (hcont hl)

theorem Invariant.senderW8 (h : Invariant s) (hl : s.label = .w8) : Invariant (senderW8 s) := by
  have hdata := h.dataSide (by rw [hl]; rfl)
  have hreceive := h.receiveSide
  obtain ⟨-, -, -, hcont, -⟩ := h.loopOk
  have hloop := (h.loopCounters (by rw [hl]; rfl)).count h.valid (hcont hl).le
  exact h.onWritten fun rest =>
    invariant_of_loop ((h.occupied (by simp [hl])).calling (l := .w5) _ rest s.tpReads s.ticks _) (.inl rfl)
      (hdata.congr rfl rfl) ⟨hreceive.rxf, hreceive.rxp⟩ hloop nofun nofun

/-- A reply frame built in a cleared transmit side (43_receiver.md R152). -/
theorem replySide_buildFrame {c : Config} (hF : 5 ≤ c.F) (devid code : Byte) {w : Work}
    (htxp : w.txp = replyPacket devid code) (htxf : w.txf = []) : ReplySide c devid code (buildFrame c w) := by
  have hlength : w.txp.length = 0#8 := by rw [htxp]; rfl
  refine ⟨Memory.Fits.buildFrame hF (htxf ▸ Memory.fits_nil _) (by rw [hlength]; exact Nat.zero_le _), ?_, hlength, ?_,
    frameBytes_reply hF devid code htxp htxf⟩
  · rw [buildFrame_txp_id, htxp]; rfl
  · rw [buildFrame_txp_payload, htxp]; rfl

/-- A reply frame built over another one (43_receiver.md R158). -/
theorem ReplySide.rebuild {c : Config} {devid old : Byte} {w : Work} (h : ReplySide c devid old w) (hF : 5 ≤ c.F)
    (new : Byte) : ReplySide c devid new (buildFrame c { w with txp := { w.txp with command := new } }) :=
  ⟨Memory.Fits.buildFrame hF h.txf (by simp only [h.length]; exact Nat.zero_le _), h.id, h.length, h.payload,
    frameBytes_reply_over hF h.txf h.frame h.id rfl h.length h.payload⟩

theorem Invariant.receiverRD2 (h : Invariant s) (hl : s.label = .rd2) : Invariant (receiverRD2 s) := by
  have hF : 5 ≤ s.cfg.F := h.valid.1
  obtain ⟨-, hflushed, -, -⟩ := h.transmitOk
  have hwork := hflushed hl
  have hzero := h.countersZero (by rw [hl]; rfl)
  have hreceive := h.receiveSide
  exact invariant_of_nack ((h.occupied (by simp [hl])).calling (l := .rd3) _ s.tpWrites s.tpReads s.ticks _) (.inl rfl)
    (replySide_buildFrame hF s.devid s.cfg.nackCode rfl (by rw [hwork]; rfl)) ⟨hreceive.rxf, hreceive.rxp⟩
    ⟨hzero.acked, hzero.cont, hzero.start, hzero.budget, hzero.ext⟩

theorem Invariant.receiverRD3 (h : Invariant s) (hl : s.label = .rd3) : Invariant (receiverRD3 s) := by
  have hF : 5 ≤ s.cfg.F := h.valid.1
  have ho := h.occupied (by simp [hl])
  have hreply := h.replySide (.inl hl)
  have hzero := h.countersZero (by rw [hl]; rfl)
  rcases hr : s.tpReads with _ | ⟨a, rest⟩
  · rw [Machine.receiverRD3, onReadAnswer_waiting _ hr]; exact h
  by_cases ha : ∀ b, a = .bytes b → b.length ≠ s.cfg.F
  · rw [receiverRD3_noFrame hr ha]
    exact invariant_of_nack (ho.callingOn (by rw [hl]; rfl) s.work s.tpWrites rest s.ticks _) (.inr (.inl rfl)) hreply
      h.receiveSide hzero
  push Not at ha
  obtain ⟨b, rfl, hb⟩ := ha
  have hreceive : ReceiveSide s.cfg (receiveFrame b (setTpReads rest s)).work := receiveSide_receiveFrame hb
  by_cases hbad : s.cfg.maxp < (b.getD 2 0#8).toNat ∨ (b.getD 2 0#8).toNat < s.cfg.minLen.toNat
  · rw [receiverRD3_badLength hF hr hb hbad, ← finish_error_eq (by decide)]
    exact invariant_finish_error (by decide) h.valid
  push Not at hbad
  obtain ⟨hmax, hmin⟩ := hbad
  rw [receiverRD3_frame hr hb, receiverRD4_goodLength (s := setTpReads rest s) hF hb hmax hmin]
  split_ifs with hcrc
  · have hlength : (receiveFrame b (setTpReads rest s)).work.rxp.length = b.getD 2 0#8 := by
      rw [receiveFrame_of_le (s := setTpReads rest s) hF hb hmax]; rfl
    exact invariant_of_ack (ho.callingOn (by rw [hl]; rfl) _ s.tpWrites rest s.ticks _) rfl
      ((hreply.congr (w' := (receiveFrame b (setTpReads rest s)).work) rfl rfl).rebuild hF s.cfg.ackCode)
      ⟨hreceive.rxf, hreceive.rxp⟩ ⟨hzero.acked, hzero.cont, hzero.start, hzero.budget, hzero.ext⟩
      ((frameCrcOk_ofBytes hF hb).2 ⟨hb, hmax, hcrc⟩) (hlength ▸ hmin)
  · exact invariant_of_nack (ho.callingOn (by rw [hl]; rfl) _ s.tpWrites rest s.ticks _) (.inr (.inr rfl))
      (hreply.congr rfl rfl) hreceive
      ⟨hzero.acked, hzero.cont, hzero.start, hzero.budget, hzero.ext⟩

theorem Invariant.receiverRD6 (h : Invariant s) : Invariant (receiverRD6 s) := by
  obtain ⟨-, -, hframe, -, hrxp, -⟩ := h.buffersOk
  exact h.onWritten fun _ => invariant_finish h.valid fun _ => ⟨hframe, hrxp⟩

/-- One step of the running operation keeps the invariant, at each of its points. -/
theorem Invariant.advance (h : Invariant s) : Invariant (advance s) := by
  unfold Machine.advance
  cases hl : s.label with
  | none => exact h
  | w3 => exact h.senderW3 hl
  | w4 => exact h.senderW4 hl
  | w5 => exact h.senderW5 hl
  | w6 => exact h.senderW6 hl
  | w8 => exact h.senderW8 hl
  | rd2 => exact h.receiverRD2 hl
  | rd3 => exact h.receiverRD3 hl
  | rd3Nack => exact h.onWritten fun _ => invariant_finish_error (by decide) h.valid
  | rd5Nack => exact h.onWritten fun _ => invariant_finish_error (by decide) h.valid
  | rd6 => exact h.receiverRD6

/-! ### Acceptance -/

theorem length_operandBytes_le (len : Half) (data : Operand) : (operandBytes len data).length ≤ len.toNat :=
  List.length_take_le _ _

/-- `W2` leaves the data frame of the request in a cleared transmit side (42_sender.md R122). -/
theorem dataSide_writeBuild {command : Byte} {len : Half} {data : Operand} (hvalid : s.cfg.Valid)
    (hlen : len.toNat ≤ s.cfg.maxp) (hwork : s.work = Work.zero) :
    DataSide s.cfg s.devid (writeBuild command len data s).work := by
  have hF : 5 ≤ s.cfg.F := hvalid.1
  have hlength := requestPacket_length hvalid s.devid command 0#16 data hlen
  refine ⟨Memory.Fits.buildFrame hF (by rw [hwork]; exact Memory.fits_nil _) (hlength.trans_le hlen),
    ⟨hlength.trans_le hlen, ?_⟩, rfl, ?_⟩
  · exact (Memory.fits_ofBytes _).mono ((length_operandBytes_le len data).trans hlength.ge)
  · exact frameBytes_buildFrame hF (by rw [hwork]; rfl) (hlength.trans_le hlen)

/-- An accepted command of an idle block with `FSM` idle leads to a state that meets the invariant. -/
theorem invariant_startBody (i : Instr) (hvalid : s.cfg.Valid) (hfsm : s.fsm = .idle) :
    Invariant (startBody i (accept s)) := by
  have hF : 5 ≤ (accept s).cfg.F := hvalid.1
  have hzero : (accept s).res.Fits (accept s).cfg := ResultRegs.fits_zero _
  cases i with
  | crc16 len data =>
    simp only [startBody, crc16Body]
    split_ifs
    · exact invariant_finish_error (by decide) hvalid
    · exact invariant_finish hvalid fun _ => hzero
  | encode id command len crc data =>
    simp only [startBody, encodeBody]
    split_ifs with hlong
    · exact invariant_finish_error (by decide) hvalid
    · exact invariant_finish_error (by decide) hvalid
    · have hlen : len.toNat ≤ s.cfg.maxp := Nat.not_lt.1 fun h => hlong (tooLong_eq_true h)
      exact invariant_finish hvalid fun _ => ⟨Memory.Fits.enc hF (Memory.fits_nil _)
        ((requestPacket_length hvalid id command crc data hlen).trans_le hlen), hzero.2⟩
  | decode frame =>
    cases frame with
    | none => exact invariant_finish_error (by decide) hvalid
    | some b =>
      simp only [startBody, decodeBody]
      split
      · exact invariant_finish_error (by decide) hvalid
      · exact invariant_finish hvalid fun _ => ⟨hzero.1, Packet.fits_dec_getD _ _⟩
  | write command len data =>
    simp only [startBody, writeBody]
    split_ifs with hlong
    · exact invariant_finish_error (by decide) hvalid
    · exact invariant_finish_error (by decide) hvalid
    · have hlen : len.toNat ≤ s.cfg.maxp := Nat.not_lt.1 fun h => hlong (tooLong_eq_true h)
      have hdata : DataSide s.cfg s.devid (writeBuild command len data (accept s)).work :=
        dataSide_writeBuild (s := accept s) hvalid hlen rfl
      exact invariant_of_setUp ⟨hvalid, rfl, rfl, rfl, rfl⟩ (.inl rfl) hdata
        (receiveSide_of_zero rfl rfl) ⟨rfl, rfl, rfl, rfl, rfl⟩
  | read => exact invariant_of_flushed ⟨hvalid, rfl, rfl, rfl, hfsm⟩ rfl rfl

theorem Invariant.fsm_of_idle (h : Invariant s) (hbusy : s.busy = false) : s.fsm = .idle := by
  obtain ⟨hfsm, -, -⟩ := h.controlOk
  rw [hfsm, h.label_of_idle hbusy]
  rfl

theorem Invariant.exec {i : Instr} {t : State} (h : Invariant s) (he : exec i s = .next t) : Invariant t := by
  rcases exec_cases he with ⟨-, rfl⟩ | ⟨hbusy, rfl⟩
  · exact h
  · exact invariant_startBody i h.valid (h.fsm_of_idle hbusy)

/-! ### The host's other acts -/

theorem Invariant.hostSetDevId (h : Invariant s) (v : Byte) : Invariant (hostSetDevId v s) := by
  unfold Machine.hostSetDevId
  split
  · exact h
  · rename_i hbusy
    have hidle : s.busy = false := Bool.eq_false_iff.2 hbusy
    obtain ⟨hwork, -, hstatus⟩ := h.clearedOk
    exact invariant_of_idle h.valid h.resFits (hwork hidle) (h.fsm_of_idle hidle) hidle (h.label_of_idle hidle) hstatus

theorem invariant_hostReset (hvalid : s.cfg.Valid) : Invariant (hostReset s) :=
  invariant_of_idle hvalid (ResultRegs.fits_zero _) rfl rfl rfl rfl fun _ => rfl

/-- Taking the host's act off the list changes nothing the invariant speaks of. -/
theorem Invariant.nextAct (h : Invariant s) : Invariant (nextAct s) := h

/-- The invariant holds of every state a step from one that meets it answers. -/
theorem Invariant.step {t : State} (h : Invariant s) (ht : step s = .next t) : Invariant t := by
  obtain ⟨-, ⟨-, rfl⟩ | ⟨r, rest, -, rfl | ⟨i, -, he⟩⟩ | ⟨v, rest, -, rfl⟩ | ⟨rest, -, rfl⟩⟩ := step_cases ht
  · exact h.nextAct.advance
  · exact h
  · exact h.nextAct.exec he
  · exact h.nextAct.hostSetDevId v
  · exact invariant_hostReset h.valid

end Sys2Proof.Machine
end

section
/-! PROOFS. The statements about the invariant. -/

namespace Sys2Proof.Machine

/-- Settles O54: the reset state is idle with zero results and working state. -/
theorem resetMeetsInvariant : Obligations.ResetMeetsInvariant := by
  have hreset : ∀ c : Config, c.Valid → Invariant (State.resetOf c) := fun c hvalid =>
    invariant_of_idle hvalid (ResultRegs.fits_zero c) rfl rfl rfl rfl fun _ => rfl
  exact ⟨hreset, hreset Config.default (by decide)⟩

/-- Settles O55: the invariant is cut by what the block is doing, and each act of the host and each point of an
operation keeps its part (`Invariant.step`). -/
theorem stepKeepsInvariant : Obligations.StepKeepsInvariant := fun _ _ h ht => h.step ht

end Sys2Proof.Machine
end

section
/-! PROOFS. The checksum as a fold: its injectivity for a constant with bit 15 set, and the statements of 40_crc16.md.
-/

namespace Sys2Proof.Machine

/-! ### A byte step loses nothing -/

/-- Bit 15 after a bit step shows the bit shifted out: the shift clears it and the XOR sets it (40_crc16.md R92). -/
theorem getLsbD_crcBit_top {poly : Half} (hpoly : poly.getLsbD 15 = true) (c : Half) :
    (crcBit poly c).getLsbD 15 = c.getLsbD 0 := by
  unfold crcBit
  split
  · rename_i hbit; rw [hbit]; simp [hpoly]
  · rename_i hbit; simpa using hbit

/-- Shifting out a known bit loses nothing. -/
theorem eq_of_ushiftRight_one_eq {c c' : Half} (hbit : c.getLsbD 0 = c'.getLsbD 0) (hshift : c >>> 1 = c' >>> 1) :
    c = c' := by
  apply BitVec.eq_of_getLsbD_eq
  intro i _
  cases i with
  | zero => exact hbit
  | succ i => simpa [Nat.add_comm] using congrArg (·.getLsbD i) hshift

theorem crcBit_injective {poly : Half} (hpoly : poly.getLsbD 15 = true) : Function.Injective (crcBit poly) := by
  intro c c' h
  have hbit : c.getLsbD 0 = c'.getLsbD 0 := by
    rw [← getLsbD_crcBit_top hpoly c, ← getLsbD_crcBit_top hpoly c', h]
  refine eq_of_ushiftRight_one_eq hbit ?_
  unfold crcBit at h
  rw [hbit] at h
  split at h
  · exact (BitVec.xor_left_inj _).1 h
  · exact h

theorem crcBits_injective {poly : Half} (hpoly : poly.getLsbD 15 = true) (n : Nat) :
    Function.Injective (crcBits poly n) := by
  rw [show crcBits poly n = (crcBit poly)^[n] from funext (crcBits_eq_iterate poly n)]
  exact (crcBit_injective hpoly).iterate n

/-- From one value, different bytes lead to different values. -/
theorem crcStep_injective_byte {poly : Half} (hpoly : poly.getLsbD 15 = true) (c : Half) :
    Function.Injective (crcStep poly c) := by
  intro b b' h
  have hwide : b.setWidth 16 = b'.setWidth 16 := (BitVec.xor_right_inj _).1 (crcBits_injective hpoly 8 h)
  simpa using congrArg (BitVec.setWidth 8) hwide

/-- Under one byte, different values stay different. -/
theorem crcStep_injective_value {poly : Half} (hpoly : poly.getLsbD 15 = true) (b : Byte) :
    Function.Injective fun c => crcStep poly c b :=
  fun _ _ h => (BitVec.xor_left_inj _).1 (crcBits_injective hpoly 8 h)

theorem foldl_crcStep_injective {poly : Half} (hpoly : poly.getLsbD 15 = true) (q : List Byte) :
    Function.Injective fun c => q.foldl (crcStep poly) c := by
  induction q with
  | nil => exact fun _ _ h => h
  | cons b q ih => exact ih.comp (crcStep_injective_value hpoly b)

theorem crc16_append (poly : Half) (p q : List Byte) : crc16 poly (p ++ q) = q.foldl (crcStep poly) (crc16 poly p) :=
  List.foldl_append

/-- Settles O14: the bytes before are folded to one value, the changed byte leads to two different ones, and the bytes
after keep them apart. -/
theorem crcDetectsOneChangedByte : Obligations.CrcDetectsOneChangedByte := by
  intro poly hpoly p q b b' hne h
  rw [crc16_append, crc16_append, List.foldl_cons, List.foldl_cons] at h
  exact hne (crcStep_injective_byte hpoly _ (foldl_crcStep_injective hpoly q h))

/-- Settles O12: the checksum is a left fold. -/
theorem crcEmptyAndIncremental : Obligations.CrcEmptyAndIncremental := fun poly => ⟨rfl, crc16_append poly⟩

/-- Settles O15: a present operand of `req_len` bytes supplies its data. -/
theorem crc16GivesChecksum : Obligations.Crc16GivesChecksum := fun _ _ _ hs hlen =>
  exec_crc16_of_supplies hs ⟨hlen, .inl rfl⟩

end Sys2Proof.Machine
end

section
/-! PROOFS. What the framer leaves byte for byte, the ways DECODE ends, and the statements of 41_framer.md. -/

namespace Sys2Proof.Machine

/-! ### Buffers as byte sequences -/

/-- A filled buffer reads as its bytes, then zeros. -/
theorem Memory.readBytes_ofBytes_pad {bs : List Byte} {n : Nat} (h : bs.length ≤ n) :
    Memory.readBytes (Memory.ofBytes bs) 0 n = bs ++ List.replicate (n - bs.length) 0#8 := by
  obtain ⟨k, rfl⟩ := Nat.exists_eq_add_of_le h
  rw [Memory.readBytes_add, Memory.readBytes_ofBytes, Nat.zero_add, Nat.add_sub_cancel_left]
  congr 1
  refine Memory.readBytes_eq_zero fun i hi _ => ?_
  rw [Memory.read_ofBytes, List.getD_eq_default _ _ hi]

/-- A canonical buffer is the one filled with its own bytes. -/
theorem Memory.ofBytes_readBytes {n : Nat} {m : Memory} (h : Memory.Fits n m) :
    Memory.ofBytes (Memory.readBytes m 0 n) = m := by
  obtain ⟨hwf, hwithin⟩ := h
  refine Memory.ext_read (Memory.wf_ofBytes _) hwf fun i => ?_
  rw [Memory.read_ofBytes, Memory.readBytes_getD, Nat.zero_add]
  split
  · rfl
  · exact (Memory.read_of_within hwithin (Nat.le_of_not_lt ‹_›)).symm

/-- Two frame buffers with the same `F` bytes are the same data. -/
theorem Memory.ext_frameBytes {c : Config} {m m' : Memory} (h : Memory.Fits c.F m) (h' : Memory.Fits c.F m')
    (hbytes : frameBytes c m = frameBytes c m') : m = m' := by
  rw [← Memory.ofBytes_readBytes h, ← Memory.ofBytes_readBytes h']
  exact congrArg Memory.ofBytes hbytes

/-! ### The operations ENCODE and DECODE -/

/-- Settles O18: the request's Packet is encoded into a cleared buffer (`frameBytes_enc_nil`). -/
theorem encodeGivesFrame : Obligations.EncodeGivesFrame := by
  intro s id command len crc data bytes hvalid hbusy hdata hlen
  have hF : 5 ≤ s.cfg.F := hvalid.1
  have hlength := requestPacket_length hvalid id command crc data hlen
  have hfits := hlength.trans_le hlen
  refine ⟨_, exec_encode_of_supplies id command crc hbusy hlen hdata, Memory.Fits.enc hF (Memory.fits_nil _) hfits, ?_⟩
  have hframe := frameBytes_enc_nil hF hfits
  rw [hlength, requestPacket_payload id command crc hdata] at hframe
  exact hframe

/-- DECODE of `F` bytes that `Dec` takes ends with their Packet (41_framer.md R108). -/
theorem exec_decode_of_some {s : State} {b : List Byte} {p : Packet} (hbusy : s.busy = false) (hb : b.length = s.cfg.F)
    (hdec : dec s.cfg (Memory.ofBytes b) = some p) :
    exec (.decode (some b)) s = .next (ended .ok { ResultRegs.zero with packet := p } s) := by
  have htake : b.take (accept s).cfg.F = b := List.take_of_length_le hb.le
  rw [exec_of_idle _ hbusy, startBody, decodeBody, htake]
  simp only [receiveFrame, setWork_work, setWork_cfg, accept_cfg, hdec]
  rfl

/-- DECODE of `F` bytes that `Dec` does not take raises `LengthError` (41_framer.md R106, R108). -/
theorem exec_decode_of_none {s : State} {b : List Byte} (hbusy : s.busy = false) (hb : b.length = s.cfg.F)
    (hdec : dec s.cfg (Memory.ofBytes b) = none) :
    exec (.decode (some b)) s = .next (ended .lengthError ResultRegs.zero s) := by
  have htake : b.take (accept s).cfg.F = b := List.take_of_length_le hb.le
  rw [exec_of_idle _ hbusy, startBody, decodeBody, htake]
  simp only [receiveFrame, setWork_work, setWork_cfg, accept_cfg, hdec]
  rfl

/-- Settles O21: an absent frame is refused before any byte is read, and `Dec` refuses a `length` byte above `MAXP`. -/
theorem decodeErrors : Obligations.DecodeErrors := fun _ hbusy =>
  ⟨exec_of_idle (.decode none) hbusy, fun _ _ hb hlong => exec_decode_of_none hbusy hb (dec_ofBytes_none hlong)⟩

/-- A frame holds all the payload bytes a legal `length` byte counts (41_framer.md R105). -/
theorem length_framePayload {c : Config} {b : List Byte} (hF : 5 ≤ c.F) (hb : b.length = c.F)
    (hl : (b.getD 2 0#8).toNat ≤ c.maxp) : ((b.drop 3).take (b.getD 2 0#8).toNat).length = (b.getD 2 0#8).toNat := by
  unfold Config.maxp at hl
  rw [List.length_take, List.length_drop]; omega

/-- The payload of a decoded frame, zero from `length` on (41_framer.md R107). -/
theorem readBytes_packetOf_payload {c : Config} {b : List Byte} (hF : 5 ≤ c.F) (hb : b.length = c.F)
    (hl : (b.getD 2 0#8).toNat ≤ c.maxp) :
    Memory.readBytes (packetOf c b).payload 0 c.maxp =
      (b.drop 3).take (b.getD 2 0#8).toNat ++ List.replicate (c.maxp - (b.getD 2 0#8).toNat) 0#8 := by
  have hlength := length_framePayload hF hb hl
  have hpad := Memory.readBytes_ofBytes_pad (hlength.trans_le hl)
  rwa [hlength] at hpad

/-- Settles O20: `Dec` gives `packetOf`, whose fields are the bytes of the frame. -/
theorem decodeGivesPacket : Obligations.DecodeGivesPacket := by
  intro s b hvalid hbusy hb hl
  have hF : 5 ≤ s.cfg.F := hvalid.1
  have hdec := dec_ofBytes hF hb hl
  obtain ⟨hmax, hpayload⟩ := Packet.fits_of_dec hdec
  exact ⟨_, exec_decode_of_some hbusy hb hdec, rfl, rfl, rfl, halfOf_toNat _ _, hpayload.mono hmax,
    readBytes_packetOf_payload hF hb hl⟩

/-- Settles O23: the frame ENCODE leaves fits its buffer, so DECODE of its bytes is `Dec` of the buffer, which gives
the Packet back (`dec_enc`). -/
theorem encodeThenDecode : Obligations.EncodeThenDecode := by
  intro s id command len crc data bytes hvalid hbusy hdata hlen
  have hF : 5 ≤ s.cfg.F := hvalid.1
  have hlength := requestPacket_length hvalid id command crc data hlen
  obtain ⟨q, hdec, hid, hcommand, hqlength, hcrc, hread, -⟩ :=
    packetRoundTrip s.cfg (requestPacket id command len crc data) hvalid (hlength.trans_le hlen)
  have hfits : Memory.Fits s.cfg.F (enc s.cfg [] (requestPacket id command len crc data)) :=
    Memory.Fits.enc hF (Memory.fits_nil _) (hlength.trans_le hlen)
  refine ⟨_, _, exec_encode_of_supplies id command crc hbusy hlen hdata,
    exec_decode_of_some rfl (Memory.length_readBytes _ _ _) ((congrArg _ (Memory.ofBytes_readBytes hfits)).trans hdec),
    rfl, hid, hcommand, (congrArg BitVec.toNat hqlength).trans hlength, hcrc, ?_⟩
  rw [← requestPacket_payload id command crc hdata]
  exact Memory.readBytes_congr fun i _ hi => hread i (by rw [hlength]; omega)

/-! ### `Enc` and `BuildFrame` -/

/-- Settles O24: padding lies beyond the payload and before the CRC field, which `Enc` writes only when `P.crc` is not
0. -/
theorem encLeavesPaddingAndZeroCrc : Obligations.EncLeavesPaddingAndZeroCrc := by
  intro c b p hvalid hb hp
  have hF : 5 ≤ c.F := hvalid.1
  unfold Config.maxp at hp
  refine ⟨fun a ha hle => ?_, fun hcrc => ⟨?_, ?_⟩, fun hcrc => ⟨?_, ?_⟩⟩
  · rw [read_enc_of_lt hb p (by omega), read_encHeader_of_ge hb ha]
  · rw [enc, if_pos hcrc, read_encHeader_of_ge hb (by omega)]
  · rw [enc, if_pos hcrc, read_encHeader_of_ge hb (by omega)]
  · rw [read_enc c hb, if_neg (by omega), if_pos ⟨hcrc, rfl⟩, lowByte_toNat]
  · rw [read_enc c hb, if_pos ⟨hcrc, rfl⟩, highByte_toNat]

/-- The `length` byte of a built frame (41_framer.md R110). -/
theorem read_buildFrame_length {c : Config} (hF : 5 ≤ c.F) {w : Work} (h : Memory.wf w.txf)
    (hp : w.txp.length.toNat ≤ c.maxp) : Memory.read (buildFrame c w).txf 2 = w.txp.length := by
  rw [read_buildFrame hF h hp, if_neg (by omega), if_neg (by omega), read_encHeader h]
  simp

/-- Settles O25: `Dec` reads from a built frame the very checksum `BuildFrame` took, which is that of the finished
frame. -/
theorem builtFramePassesCheck : Obligations.BuiltFramePassesCheck := by
  intro c w hvalid h hp
  have hF : 5 ≤ c.F := hvalid.1
  have hhigh : Memory.read (buildFrame c w).txf (c.F - 1) = highByte (frameCrc c (unsummed c w)) := by
    rw [read_buildFrame hF h hp, if_pos rfl]
  have hlow : Memory.read (buildFrame c w).txf (c.F - 2) = lowByte (frameCrc c (unsummed c w)) := by
    rw [read_buildFrame hF h hp, if_neg (by omega), if_pos rfl]
  rw [frameCrcOk, dec_of_le (by rw [read_buildFrame_length hF h hp]; exact hp)]
  simp only
  rw [hhigh, hlow, halfOf_high_low, frameCrc_buildFrame hF h hp, beq_self_eq_true]

/-- Settles O26: both ACK frames show the bytes of `wireFrame`, the one built over the NACK frame by
`ReplySide.rebuild`. -/
theorem ackOverNackIsFresh : Obligations.AckOverNackIsFresh := by
  intro c devid hvalid
  have hF : 5 ≤ c.F := hvalid.1
  have hnack : ReplySide c devid c.nackCode (buildFrame c { Work.zero with txp := replyPacket devid c.nackCode }) :=
    replySide_buildFrame hF devid c.nackCode rfl rfl
  have hover := hnack.rebuild hF c.ackCode
  have hfresh : ReplySide c devid c.ackCode (buildFrame c { Work.zero with txp := replyPacket devid c.ackCode }) :=
    replySide_buildFrame hF devid c.ackCode rfl rfl
  exact ⟨_, _, rfl, rfl, Memory.ext_frameBytes hover.txf hfresh.txf (hover.frame.trans hfresh.frame.symm), hover.frame⟩

end Sys2Proof.Machine
end

section
/-! PROOFS. The host port, step by step, and the statements about reset, parameters, the host's acts, the registers it
reads, and the command words. -/

namespace Sys2Proof.Machine

/-! ### The host's acts -/

/-- Taking the head of the host's acts off. -/
theorem nextAct_of_cons {s : State} {a : HostAct} {rest : List HostAct} (h : s.host = a :: rest) :
    nextAct s = { s with host := rest, cmdReject := false } := by
  rw [nextAct, h, List.tail_cons]

/-- Settles O2: `hostReset` is the reset state with the environment's side as it was. -/
theorem rstAbandonsAnyOperation : Obligations.RstAbandonsAnyOperation := by
  intro s rest hvalid hhost
  rw [step_rst hvalid hhost, nextAct_of_cons hhost]
  rfl

/-- Settles O3: `Config.Valid` is the conjunction of the constraints, and a step checks it first. -/
theorem brokenParametersAreRefused : Obligations.BrokenParametersAreRefused := fun _ hbroken => if_neg hbroken

/-- A step with a `start` whose bundle decodes to `i` runs `i` (60_exceptions.md R181). -/
theorem step_start_some {s : State} {r : Request} {rest : List HostAct} {i : Instr} (hvalid : s.cfg.Valid)
    (hhost : s.host = .start r :: rest) (hdecode : decode r = some i) (hwf : s.busy = true ∨ i.wf s.cfg = true) :
    step s = exec i { s with host := rest, cmdReject := false } := by
  rw [step_start hvalid hhost, hostStart_some (s := nextAct s) hdecode hwf, nextAct_of_cons hhost]

/-- A table word that decodes is below 256, so presenting it loses no bit (30_encoding.md R71). -/
theorem decode_tableRequest {w : Nat} {i : Instr} (h : decodeTableWord 8 w = some i) :
    decode (tableRequest (w % 2 ^ 8)) = some i := by
  unfold decodeTableWord at h
  split at h
  · rename_i hw
    rwa [Nat.mod_eq_of_lt (show w < 2 ^ 8 from hw.2)]
  · cases h

/-- Settles O4: both clauses present a bundle that decodes to `i`. -/
theorem stepRunsDecodedInstruction : Obligations.StepRunsDecodedInstruction :=
  ⟨fun _ _ _ _ hvalid hhost hdecode hwf => step_start_some hvalid hhost hdecode hwf,
    fun s w _ hvalid hdecode hwf =>
      step_start_some (s := s.withFetchWord 8 w) hvalid rfl (decode_tableRequest hdecode) (.inr hwf)⟩

/-- Settles O6: an idle block takes the written value. -/
theorem hostWritesDevIdWhileIdle : Obligations.HostWritesDevIdWhileIdle := by
  intro s v rest hvalid hhost hbusy
  rw [step_setDevId hvalid hhost, hostSetDevId, if_neg (by simp [hbusy]), nextAct_of_cons hhost]

/-- A running operation goes on waiting where its answer has not come. -/
theorem advance_waiting {s : State}
    (h : s.label = .none ∨ (s.label ∈ [Label.w3, .w8, .rd3Nack, .rd5Nack, .rd6] ∧ s.tpWrites = []) ∨
      (s.label ∈ [Label.w6, .rd3] ∧ s.tpReads = []) ∨ (s.label ∈ [Label.w4, .w5] ∧ s.ticks = [])) : advance s = s := by
  simp only [List.mem_cons, List.not_mem_nil, or_false] at h
  unfold advance
  rcases h with hl | ⟨hl, hw⟩ | ⟨hl, hr⟩ | ⟨hl, ht⟩
  · rw [hl]
  · rcases hl with hl | hl | hl | hl | hl <;> rw [hl] <;> exact onWritten_waiting _ hw
  · rcases hl with hl | hl <;> rw [hl] <;> exact onReadAnswer_waiting _ hr
  · rcases hl with hl | hl <;> rw [hl] <;> exact onTick_waiting _ ht

/-- Settles O7: a step in which the host does nothing is `advance`, which changes nothing without an answer. -/
theorem waitingChangesNothing : Obligations.WaitingChangesNothing := by
  intro s hvalid hquiet hwait
  rw [step_quiet hvalid hquiet, advance_waiting (s := nextAct s) hwait]
  rfl

/-! ### Registers -/

theorem flagsReg_fields (s : State) :
    s.flagsReg.getLsbD 0 = s.busy ∧ s.flagsReg.getLsbD 1 = s.done ∧
    s.flagsReg.extractLsb' 2 2 = s.fsm.code ∧ s.flagsReg.extractLsb' 4 4 = 0#4 := by
  unfold State.flagsReg
  generalize s.fsm.code = code
  revert code
  cases s.busy <;> cases s.done <;> decide

theorem statusReg_fields (s : State) :
    s.statusReg.extractLsb' 0 3 = s.status.code ∧ s.statusReg.extractLsb' 3 5 = 0#5 := by
  unfold State.statusReg
  generalize s.status.code = code
  revert code
  decide

theorem sflagsReg_fields (s : State) :
    s.sflagsReg.getLsbD 0 = s.work.acked ∧ s.sflagsReg.getLsbD 1 = s.work.ext ∧ s.sflagsReg.extractLsb' 2 6 = 0#6 := by
  unfold State.sflagsReg
  cases s.work.acked <;> cases s.work.ext <;> decide

/-- Settles O8: the three packed registers by their fields; the codes and the readable registers are as they are
written. -/
theorem registerFieldsAndCodes : Obligations.RegisterFieldsAndCodes := by
  refine ⟨fun s => ?_, rfl, rfl⟩
  obtain ⟨hbusy, hdone, hfsm, hzero⟩ := flagsReg_fields s
  obtain ⟨hkind, hkzero⟩ := statusReg_fields s
  obtain ⟨hacked, hext, hszero⟩ := sflagsReg_fields s
  exact ⟨hbusy, hdone, hfsm, hzero, hkind, hkzero, hacked, hext, hszero, rfl, rfl, rfl, rfl, rfl, rfl, rfl, rfl⟩

/-! ### Command words -/

/-- Settles O9: the eight words are literal. -/
theorem commandWordsOfTheTable : Obligations.CommandWordsOfTheTable := by
  unfold Obligations.CommandWordsOfTheTable
  decide

theorem opcode_ofWord_eq_none_iff (w : Byte) : Opcode.ofWord w = none ↔
    (w.extractLsb' 3 5 ≠ 0#5 ∨ w.extractLsb' 0 3 = 0#3 ∨ w.extractLsb' 0 3 = 6#3 ∨ w.extractLsb' 0 3 = 7#3) := by
  revert w
  decide

/-- The other fields of a bundle do not decide whether it is refused (30_encoding.md R75). -/
theorem decode_eq_none_iff (r : Request) : decode r = none ↔ Opcode.ofWord r.op = none := by
  unfold decode
  cases Opcode.ofWord r.op with
  | none => simp
  | some o => cases o <;> simp

/-- Settles O10: only the command word decides, and all 256 of them are checked. -/
theorem reservedWordsExactly : Obligations.ReservedWordsExactly := fun r =>
  (decode_eq_none_iff r).trans (opcode_ofWord_eq_none_iff r.op)

theorem decode_encode (i : Instr) : decode (encode i) = some i := by
  cases i with
  | crc16 len data => exact Sys2Proof.Laws.RoundTrip.crc16 len data
  | encode id command len crc data => exact Sys2Proof.Laws.RoundTrip.encode id command len crc data
  | decode frame => exact Sys2Proof.Laws.RoundTrip.decode frame
  | write command len data => exact Sys2Proof.Laws.RoundTrip.write command len data
  | read => exact Sys2Proof.Laws.RoundTrip.read

/-- An operation is selected by its own word only. -/
theorem opcode_ofWord_eq_some {w : Byte} {o : Opcode} (h : Opcode.ofWord w = some o) : w = o.word := by
  unfold Opcode.ofWord at h
  split_ifs at h with h1 h2 h3 h4 h5 <;> cases h <;> assumption

/-- The operand of a bundle, presented again, keeps `req_present`, and the data where it is present (30_encoding.md
R72). -/
theorem withOperand_of_operand (r r' : Request) :
    (Request.withOperand r.operand r').present = r.present ∧
      (r.present = true → (Request.withOperand r.operand r').data = r.data) := by
  unfold Request.operand Request.withOperand
  cases r.present <;> simp

/-- Settles O11: the round trip by instruction; the bundle of a decoded instruction has the word of its operation, the
fields the operation reads, the bundle's operand, and 0 elsewhere. -/
theorem decodeEncodeRoundTrip : Obligations.DecodeEncodeRoundTrip := by
  refine ⟨decode_encode, fun r i h => ?_⟩
  unfold decode at h
  cases ho : Opcode.ofWord r.op with
  | none => rw [ho] at h; cases h
  | some o =>
    have hword := (opcode_ofWord_eq_some ho).symm
    rw [ho] at h
    cases o with
    | crc16 =>
      obtain rfl := Option.some.inj h
      exact ⟨hword, .inr rfl, .inr rfl, .inl rfl, .inr rfl, .inr (withOperand_of_operand r _)⟩
    | encode =>
      obtain rfl := Option.some.inj h
      exact ⟨hword, .inl rfl, .inl rfl, .inl rfl, .inl rfl, .inr (withOperand_of_operand r _)⟩
    | decode =>
      obtain rfl := Option.some.inj h
      exact ⟨hword, .inr rfl, .inr rfl, .inr rfl, .inr rfl, .inr (withOperand_of_operand r _)⟩
    | write =>
      obtain rfl := Option.some.inj h
      exact ⟨hword, .inr rfl, .inl rfl, .inl rfl, .inr rfl, .inr (withOperand_of_operand r _)⟩
    | read =>
      obtain rfl := Option.some.inj h
      exact ⟨hword, .inr rfl, .inr rfl, .inr rfl, .inr rfl, .inl rfl⟩

/-! ### Acceptance and completion -/

/-- Settles O27: the cleared records are literal zeros. -/
theorem acceptClearsWorkingState : Obligations.AcceptClearsWorkingState := fun _ => rfl

/-- Settles O28: `finish` is written field by field. -/
theorem finishEndsOperation : Obligations.FinishEndsOperation := fun _ _ => rfl

end Sys2Proof.Machine
end

section
/-! PROOFS. Safety of every step: what it can do to the parameters, `STATUS`, `DEVID`, the calls and `FSM`. -/

namespace Sys2Proof.Machine

/-- What a step can do, down to the forms of a running and of an accepted operation. -/
inductive Moves (s : State) : State → Prop where
  | goesOn {t : State} : Advances (nextAct s) t → Moves s t
  | refuses : Moves s (reject (nextAct s))
  | starts {i : Instr} {t : State} : s.busy = false → Starts (nextAct s) i t → Moves s t
  | writesDevId {v : Byte} {rest : List HostAct} : s.host = .setDevId v :: rest → s.busy = false →
      Moves s { nextAct s with devid := v }
  | resets {rest : List HostAct} : s.host = .rst :: rest → Moves s (hostReset (nextAct s))

theorem moves_of_step {s t : State} (h : step s = .next t) : Moves s t := by
  obtain ⟨hvalid, ⟨-, rfl⟩ | ⟨r, rest, -, rfl | ⟨i, -, he⟩⟩ | ⟨v, rest, hhost, rfl⟩ | ⟨rest, hhost, rfl⟩⟩ :=
    step_cases h
  · have hF : 5 ≤ (nextAct s).cfg.F := hvalid.1
    exact .goesOn (advance_cases hF)
  · exact .refuses
  · rcases exec_cases he with ⟨-, rfl⟩ | ⟨hbusy, rfl⟩
    · exact .refuses
    · exact .starts hbusy (start_cases i (nextAct s))
  · unfold hostSetDevId
    split
    · exact .refuses
    · rename_i hbusy
      exact .writesDevId hhost (Bool.eq_false_iff.2 hbusy)
  · exact .resets hhost

/-- A step in which the host waits is one of the running operation. -/
theorem advances_of_step {s t : State} (hwait : AllWait s.host) (h : step s = .next t) : Advances (nextAct s) t := by
  have hvalid := valid_of_step h
  have hF : 5 ≤ (nextAct s).cfg.F := hvalid.1
  rw [step_quiet hvalid (quiet_of_allWait hwait)] at h
  obtain rfl := Host.Outcome.next.inj h
  exact advance_cases hF

/-- A step of an idle block with a `start` that answers a next state starts the decoded instruction. -/
theorem starts_of_step {s u : State} {r : Request} {acts : List HostAct} {i : Instr} (hbusy : s.busy = false)
    (hhost : s.host = .start r :: acts) (hdecode : decode r = some i) (hu : step s = .next u) :
    Starts (nextAct s) i u := by
  rw [step_start (valid_of_step hu) hhost, hostStart, hdecode] at hu
  simp only at hu
  split at hu
  · rw [exec_of_idle (s := nextAct s) i hbusy] at hu
    obtain rfl := Host.Outcome.next.inj hu
    exact start_cases i (nextAct s)
  · cases hu

/-! ### What running and accepted operations leave alone -/

theorem Advances.cfg {s t : State} (h : Advances s t) : t.cfg = s.cfg := by cases h <;> rfl

theorem Advances.devid {s t : State} (h : Advances s t) : t.devid = s.devid := by cases h <;> rfl

theorem Advances.host {s t : State} (h : Advances s t) : t.host = s.host := by cases h <;> rfl

theorem Advances.cmdReject {s t : State} (h : Advances s t) : t.cmdReject = s.cmdReject := by cases h <;> rfl

theorem Starts.cfg {s t : State} {i : Instr} (h : Starts s i t) : t.cfg = s.cfg := by cases h <;> rfl

theorem Starts.devid {s t : State} {i : Instr} (h : Starts s i t) : t.devid = s.devid := by cases h <;> rfl

theorem Starts.host {s t : State} {i : Instr} (h : Starts s i t) : t.host = s.host := by cases h <;> rfl

theorem Starts.cmdReject {s t : State} {i : Instr} (h : Starts s i t) : t.cmdReject = s.cmdReject := by cases h <;> rfl

/-- The state an operation ends in (60_exceptions.md R176). -/
abbrev Completed (t : State) : Prop := t.busy = false ∧ t.done = true ∧ t.fsm = .idle ∧ t.work = Work.zero

theorem completed_finish (k : Kind) (s : State) : Completed (finish k s) := ⟨rfl, rfl, rfl, rfl⟩

theorem Advances.status {s t : State} (h : Advances s t) : t.status = s.status ∨ Completed t := by
  cases h with
  | waits => exact .inl rfl
  | ends => exact .inr (completed_finish _ _)
  | calls => exact .inl rfl

theorem Starts.status {s t : State} {i : Instr} (h : Starts s i t) : t.status = s.status ∨ Completed t := by
  cases h with
  | ends => exact .inr (completed_finish _ _)
  | transmits => exact .inl rfl
  | flushes => exact .inl rfl

theorem Advances.calls_eq {s t : State} (h : Advances s t) : ∃ new, t.calls = s.calls ++ new ∧ new.length ≤ 1 := by
  cases h with
  | waits => exact ⟨[], (List.append_nil _).symm, Nat.zero_le _⟩
  | ends => exact ⟨[], (List.append_nil _).symm, Nat.zero_le _⟩
  | calls _ _ _ _ c => exact ⟨[c], rfl, Nat.le_refl _⟩

theorem Starts.calls_eq {s t : State} {i : Instr} (h : Starts s i t) :
    ∃ new, t.calls = s.calls ++ new ∧ new.length ≤ 1 := by
  cases h with
  | ends => exact ⟨[], (List.append_nil _).symm, Nat.zero_le _⟩
  | transmits => exact ⟨[_], rfl, Nat.le_refl _⟩
  | flushes => exact ⟨[_], rfl, Nat.le_refl _⟩

/-! ### The statements over every state -/

/-- Settles O58: no form of a step writes `cfg`. -/
theorem parametersNeverChange : Obligations.ParametersNeverChange := by
  intro s t h
  cases moves_of_step h with
  | goesOn ha => exact ha.cfg
  | refuses => rfl
  | starts _ hs => exact hs.cfg
  | writesDevId => rfl
  | resets => rfl

/-- Settles O57: of the five forms of a step only the host's write and `rst` write `DEVID`. -/
theorem devIdChangesOnlyByHost : Obligations.DevIdChangesOnlyByHost := by
  intro s t h hne
  cases moves_of_step h with
  | goesOn ha => exact absurd ha.devid hne
  | refuses => exact absurd rfl hne
  | starts _ hs => exact absurd hs.devid hne
  | writesDevId hhost hbusy => exact .inl ⟨_, _, hhost, hbusy, rfl⟩
  | resets hhost => exact .inr ⟨⟨_, hhost⟩, rfl⟩

/-- Settles O56: a running or accepted operation writes `STATUS` only where it completes. -/
theorem statusChangesOnlyAtCompletion : Obligations.StatusChangesOnlyAtCompletion := by
  intro s t h hne
  cases moves_of_step h with
  | goesOn ha => exact .inl (ha.status.resolve_left hne)
  | refuses => exact absurd rfl hne
  | starts _ hs => exact .inl (hs.status.resolve_left hne)
  | writesDevId => exact absurd rfl hne
  | resets hhost => exact .inr ⟨⟨_, hhost⟩, rfl⟩

/-- Settles O59: an operation makes at most one call a step, and only a refusal, which makes none, raises
`cmd_reject`. -/
theorem atMostOneCallPerStep : Obligations.AtMostOneCallPerStep := by
  intro s t h
  have hnone : s.calls = s.calls ++ [] := (List.append_nil _).symm
  cases moves_of_step h with
  | goesOn ha =>
    obtain ⟨new, hcalls, hlength⟩ := ha.calls_eq
    exact ⟨new, hcalls, hlength, fun hreject => by simp [ha.cmdReject] at hreject⟩
  | refuses => exact ⟨[], hnone, Nat.zero_le _, fun _ => rfl⟩
  | starts _ hs =>
    obtain ⟨new, hcalls, hlength⟩ := hs.calls_eq
    exact ⟨new, hcalls, hlength, fun hreject => by simp [hs.cmdReject] at hreject⟩
  | writesDevId => exact ⟨[], hnone, Nat.zero_le _, fun _ => rfl⟩
  | resets => exact ⟨[], hnone, Nat.zero_le _, fun _ => rfl⟩

/-! ### The transitions of `FSM` -/

/-- The transitions of `FSM` (42_sender.md R140, 43_receiver.md R162). -/
abbrev FsmTransition (f f' : Fsm) : Prop :=
  (f, f') ∈ [(Fsm.idle, Fsm.txSent), (.txSent, .txAwait), (.txSent, .idle), (.txAwait, .txSent),
    (.txAwait, .idle), (.idle, .rxAwait), (.rxAwait, .idle)]

theorem fsmTransition_to_idle {f : Fsm} (h : f ≠ .idle) : FsmTransition f .idle := by
  cases f with
  | idle => exact absurd rfl h
  | txSent => decide
  | txAwait => decide
  | rxAwait => decide

/-- A call changes `FSM` from the value its point asks for. -/
theorem NextCall.fsmTransition {s : State} {w : Work} {c : Call} {l : Label} {f : Fsm} (h : NextCall s w c l f)
    (hfsm : s.fsm = s.label.fsm) (hne : f ≠ s.fsm) : FsmTransition s.fsm f := by
  rw [hfsm]
  cases h with
  | firstSent hl => rw [hl]; decide
  | resent hl => rw [hl]; decide
  | resendCounted hl => rw [hl]; decide
  | receives hl => rw [hl]; decide
  | loopSetUp | gateShut | gateOpen | ignored | counted | noFrame | badChecksum | goodFrame => exact absurd rfl hne

/-- Settles O60: an operation starts from `FSM` idle and ends there, and each call leads on from the value of its
point. -/
theorem fsmTransitions : Obligations.FsmTransitions := by
  intro s t hinv h hrst hne
  have hfsm : s.fsm = s.label.fsm := hinv.controlOk.1
  cases moves_of_step h with
  | goesOn ha =>
    cases ha with
    | waits => exact absurd rfl hne
    | ends => exact fsmTransition_to_idle hne.symm
    | calls _ _ _ _ _ _ _ hcall => exact hcall.fsmTransition (s := nextAct s) hfsm hne
  | refuses => exact absurd rfl hne
  | starts hbusy hs =>
    have hidle := hinv.fsm_of_idle hbusy
    cases hs with
    | ends => exact absurd hidle.symm hne
    | transmits => rw [hidle]; exact List.mem_cons_self
    | flushes => exact absurd rfl hne
  | writesDevId => exact absurd rfl hne
  | resets hhost => exact absurd hhost (hrst _)

end Sys2Proof.Machine
end

section
/-! PROOFS. WRITE: its acceptance and what each of its points does with the answer it waits for, and the statements of
42_sender.md about single steps. -/

namespace Sys2Proof.Machine

/-! ### Acceptance -/

/-- WRITE checks the length before it looks at the operand (42_sender.md R121). -/
theorem exec_write_of_tooLong {s : State} {len : Half} (command : Byte) (data : Operand) (hs : s.busy = false)
    (hlen : s.cfg.maxp < len.toNat) :
    exec (.write command len data) s = .next (ended .lengthError ResultRegs.zero s) := by
  have hlong : tooLong (accept s).cfg len = true := tooLong_eq_true hlen
  rw [exec_of_idle _ hs, startBody, writeBody, if_pos hlong, finish_error_eq (by decide), ended_accept]

/-- WRITE of a legal length whose operand is missing raises `InvalidArgument` (42_sender.md R121). -/
theorem exec_write_of_missing {s : State} {len : Half} {data : Operand} (command : Byte) (hs : s.busy = false)
    (hlen : len.toNat ≤ s.cfg.maxp) (hdata : operandMissing len data = true) :
    exec (.write command len data) s = .next (ended .invalidArgument ResultRegs.zero s) := by
  have hshort : ¬tooLong (accept s).cfg len = true := by simp [tooLong_eq_false hlen]
  rw [exec_of_idle _ hs, startBody, writeBody, if_neg hshort, if_pos hdata, finish_error_eq (by decide), ended_accept]

/-- Settles O31: one lemma per way of ending. -/
theorem writeArgumentErrors : Obligations.WriteArgumentErrors := fun _ command _ hs =>
  ⟨fun hlong data => exec_write_of_tooLong command data hs hlong,
    fun hpos hlen => exec_write_of_missing command hs hlen (operandMissing_none hpos)⟩

/-- The state in which a WRITE with the working state `w` waits for its first `TpWrite` (42_sender.md R123). -/
def transmitting (w : Work) (s : State) : State :=
  { s with
    busy := true
    done := false
    res := ResultRegs.zero
    work := w
    fsm := .txSent
    label := .w3
    calls := s.calls ++ [.tpWrite (frameBytes s.cfg w.txf)] }

/-- WRITE of a legal length with its data builds its frame and transmits it (42_sender.md R122, R123). -/
theorem exec_write_of_supplies {s : State} {len : Half} {data : Operand} {bytes : List Byte} (command : Byte)
    (hs : s.busy = false) (hlen : len.toNat ≤ s.cfg.maxp) (hdata : Supplies data len bytes) :
    exec (.write command len data) s = .next (transmitting (writeBuild command len data (accept s)).work s) := by
  have hshort : ¬tooLong (accept s).cfg len = true := by simp [tooLong_eq_false hlen]
  have hpresent : ¬operandMissing len data = true := by simp [(operand_of_supplies hdata).1]
  rw [exec_of_idle _ hs, startBody, writeBody, if_neg hshort, if_neg hpresent]
  rfl

/-- The frame of `W2` is the data frame of the request (30_encoding.md R67). -/
theorem frameBytes_writeBuild {s : State} {len : Half} {data : Operand} {bytes : List Byte} (command : Byte)
    (hvalid : s.cfg.Valid) (hlen : len.toNat ≤ s.cfg.maxp) (hdata : Supplies data len bytes) :
    frameBytes s.cfg (writeBuild command len data (accept s)).work.txf = wireFrame s.cfg s.devid command bytes := by
  have hlength := requestPacket_length hvalid s.devid command 0#16 data hlen
  have hframe := (dataSide_writeBuild (s := accept s) (command := command) (data := data) hvalid hlen rfl).frame
  refine hframe.trans ?_
  show wireFrame s.cfg s.devid command (Memory.readBytes (requestPacket s.devid command len 0#16 data).payload 0
    (requestPacket s.devid command len 0#16 data).length.toNat) = _
  rw [hlength, requestPacket_payload s.devid command 0#16 hdata]

/-- Settles O30: `W2` fills the transmit side of a cleared working state, and `W3` hands over its frame. -/
theorem writeTransmitsDataFrame : Obligations.WriteTransmitsDataFrame := by
  intro s command len data bytes hvalid hbusy hdata hlen
  have hframe := frameBytes_writeBuild command hvalid hlen hdata
  refine ⟨(writeBuild command len data (accept s)).work, ?_, hframe, rfl, rfl,
    requestPacket_length hvalid s.devid command 0#16 data hlen, requestPacket_payload s.devid command 0#16 hdata,
    rfl, rfl, rfl, rfl, rfl, rfl, rfl⟩
  rw [exec_write_of_supplies command hbusy hlen hdata, transmitting, hframe]

/-! ### The points of WRITE -/

theorem step_w3 {s : State} (h : s.cfg.Valid) (hq : Quiet s) (hl : s.label = .w3) :
    step s = .next (senderW3 (nextAct s)) := by
  rw [step_quiet h hq, advance, nextAct_label, hl]

theorem step_w4 {s : State} (h : s.cfg.Valid) (hq : Quiet s) (hl : s.label = .w4) :
    step s = .next (senderW4 (nextAct s)) := by
  rw [step_quiet h hq, advance, nextAct_label, hl]

/-- `IoError` of an awaited `TpWrite` ends the operation; of the state before, only the answer is used up
(60_exceptions.md R177). -/
theorem onWritten_nextAct_ioError {s : State} {rest : List WriteAnswer} (k : State → State)
    (h : s.tpWrites = .ioError :: rest) : onWritten k (nextAct s) = ended .ioError ResultRegs.zero
      { s with host := s.host.tail, cmdReject := false, tpWrites := rest } := by
  rw [onWritten_ioError (s := nextAct s) k h, finish_error_eq (by decide)]
  rfl

/-- Settles O32: `W3` goes on only with `ok`. -/
theorem firstTransmissionAnswered : Obligations.FirstTransmissionAnswered := by
  intro s rest hvalid hquiet hlabel
  refine ⟨fun hok => ?_, fun hio => ?_⟩
  · rw [step_w3 hvalid hquiet hlabel, senderW3, onWritten_ok (s := nextAct s) _ hok]
    rfl
  · rw [step_w3 hvalid hquiet hlabel, senderW3, onWritten_nextAct_ioError _ hio]

/-- Settles O33: `W4` with its clock answer. -/
theorem waitLoopSetUp : Obligations.WaitLoopSetUp := by
  intro s now rest hvalid hquiet hlabel hticks
  rw [step_w4 hvalid hquiet hlabel, senderW4, onTick_cons (s := nextAct s) _ hticks]
  rfl

/-- `W5` where the guard fails (42_sender.md R125, R133). -/
theorem senderW5_of_fails {s : State} {now : Tick} {rest : List Tick} (h : s.ticks = now :: rest)
    (hfails : s.cfg.maxAttempts < s.work.cont.toNat ∨ s.work.budget.toNat < (elapsed now s).toNat) :
    senderW5 s = ended .ackTimeout ResultRegs.zero (setTicks rest s) := by
  rw [senderW5_tick h, if_pos ((guardFails_iff now (setTicks rest s)).2 hfails), finish_error_eq (by decide)]

/-- `W5` where the guard passes and the gate is open (42_sender.md R126). -/
theorem senderW5_of_open {s : State} {now : Tick} {rest : List Tick} (h : s.ticks = now :: rest)
    (hpasses : ¬(s.cfg.maxAttempts < s.work.cont.toNat ∨ s.work.budget.toNat < (elapsed now s).toNat))
    (hopen : s.work.cont.toNat * s.cfg.retryInterval ≤ (elapsed now s).toNat) :
    senderW5 s = issue (.tpRead s.cfg.F s.cfg.pollTimeout) .w6 (setTicks rest s) := by
  rw [senderW5_tick h, if_neg fun hfails => hpasses ((guardFails_iff now (setTicks rest s)).1 hfails),
    if_pos ((gateOpen_iff now (setTicks rest s)).2 hopen)]

/-- `W5` where the guard passes and the gate is shut (42_sender.md R126). -/
theorem senderW5_of_shut {s : State} {now : Tick} {rest : List Tick} (h : s.ticks = now :: rest)
    (hpasses : ¬(s.cfg.maxAttempts < s.work.cont.toNat ∨ s.work.budget.toNat < (elapsed now s).toNat))
    (hshut : (elapsed now s).toNat < s.work.cont.toNat * s.cfg.retryInterval) :
    senderW5 s = awaitReply (setTicks rest s) := by
  rw [senderW5_tick h, if_neg fun hfails => hpasses ((guardFails_iff now (setTicks rest s)).1 hfails),
    if_neg fun hopen => Nat.not_le.2 hshut ((gateOpen_iff now (setTicks rest s)).1 hopen)]

/-- Settles O34: one lemma per way through `W5`, with `el` by `elapsed_toNat`. -/
theorem loopGuardAndReadGate : Obligations.LoopGuardAndReadGate := by
  intro s now rest hvalid hquiet hlabel hticks
  have hstep := step_w5 hvalid hquiet hlabel
  refine ⟨(elapsed now s).toNat, _, elapsed_toNat now s, rfl, fun hfails => ?_,
    fun hpasses => ⟨fun hopen => ?_, fun hshut => ?_⟩⟩
  · rw [hstep, senderW5_of_fails (s := nextAct s) hticks hfails]
    rfl
  · rw [hstep, senderW5_of_open (s := nextAct s) hticks hpasses hopen]
    rfl
  · rw [hstep, senderW5_of_shut (s := nextAct s) hticks hpasses hshut]
    rfl

/-- `W6` with a good ACK frame (42_sender.md R129). -/
theorem senderW6_ackReply {s : State} {b : List Byte} {rest : List ReadAnswer} (hF : 5 ≤ s.cfg.F)
    (hreads : s.tpReads = .bytes b :: rest) (hgood : GoodFrame s.cfg b) (hack : b.getD 1 0#8 = s.cfg.ackCode) :
    senderW6 s = ended .ok s.res (setTpReads rest s) := by
  rw [senderW6_frame hreads hgood.1, senderW7_good (s := setTpReads rest s) hF hgood, setTpReads_cfg, if_pos hack]
  rfl

/-- `W6` with a good NACK frame (42_sender.md R130, R132). -/
theorem senderW6_nackReply {s : State} {b : List Byte} {rest : List ReadAnswer} (hvalid : s.cfg.Valid)
    (hreads : s.tpReads = .bytes b :: rest) (hgood : GoodFrame s.cfg b) (hnack : b.getD 1 0#8 = s.cfg.nackCode) :
    senderW6 s = resent (extended s.cfg (receiveFrame b s).work) (setTpReads rest s) := by
  obtain ⟨hF, -, hcodes, -⟩ := hvalid
  rw [senderW6_frame hreads hgood.1, senderW7_good (s := setTpReads rest s) hF hgood, setTpReads_cfg,
    if_neg (hnack.trans_ne hcodes), if_pos hnack, extendBudget_eq, resend_eq]
  rfl

/-- `W6` with `F` bytes that are noise (42_sender.md R128, R132). -/
theorem senderW6_noise {s : State} {b : List Byte} {rest : List ReadAnswer} (hF : 5 ≤ s.cfg.F)
    (hreads : s.tpReads = .bytes b :: rest) (hb : b.length = s.cfg.F) (hnoise : ¬GoodFrame s.cfg b) :
    senderW6 s = resent (receiveFrame b s).work (setTpReads rest s) := by
  rw [senderW6_frame hreads hb, senderW7_noise (s := setTpReads rest s) hF hb hnoise, resend_eq]
  rfl

/-- Settles O35: `finish(Ok)` keeps `RES`, and `ACKED`, set before it, is cleared with the working state. -/
theorem ackReplySucceeds : Obligations.AckReplySucceeds := by
  intro s b rest hvalid hquiet hlabel hreads hgood hack
  have hF : 5 ≤ (nextAct s).cfg.F := hvalid.1
  rw [step_w6 hvalid hquiet hlabel, senderW6_ackReply (s := nextAct s) hF hreads hgood hack]
  rfl

/-- Settles O36: the working state that `Resend` starts from is `extended`. -/
theorem nackReplyExtendsOnceAndResends : Obligations.NackReplyExtendsOnceAndResends := by
  intro s b rest hvalid hquiet hlabel hreads hgood hnack
  refine ⟨extended s.cfg (receiveFrame b s).work, ?_, rfl, rfl, frameBytes_ofBytes hgood.1, rfl, rfl, rfl, rfl, rfl⟩
  rw [step_w6 hvalid hquiet hlabel, senderW6_nackReply (s := nextAct s) hvalid hreads hgood hnack]
  rfl

/-- Settles O37: the working state that `Resend` starts from differs in the receive side only. -/
theorem noiseReplyResends : Obligations.NoiseReplyResends := by
  intro s b rest hvalid hquiet hlabel hreads hb hnoise
  have hF : 5 ≤ (nextAct s).cfg.F := hvalid.1
  refine ⟨(receiveFrame b s).work, ?_, rfl, rfl, frameBytes_ofBytes hb, rfl, rfl, rfl, rfl, rfl⟩
  rw [step_w6 hvalid hquiet hlabel, senderW6_noise (s := nextAct s) hF hreads hb hnoise]
  rfl

/-- Settles O39: such an answer is no frame, so `W6` goes back to the guard. -/
theorem noFrameChangesNothing : Obligations.NoFrameChangesNothing := by
  intro s a rest hvalid hquiet hlabel hreads hnone
  rw [step_w6 hvalid hquiet hlabel, senderW6_noFrame (s := nextAct s) hreads hnone]
  rfl

/-- Settles O40: `W8` counts only with `ok`. -/
theorem resendAnswered : Obligations.ResendAnswered := by
  intro s rest hvalid hquiet hlabel
  refine ⟨fun hok => ?_, fun hio => ?_⟩
  · rw [step_w8 hvalid hquiet hlabel, senderW8, onWritten_ok (s := nextAct s) _ hok]
    rfl
  · rw [step_w8 hvalid hquiet hlabel, senderW8, onWritten_nextAct_ioError _ hio]

end Sys2Proof.Machine
end

section
/-! PROOFS. READ: its acceptance and what each of its points does with the answer it waits for, and the statements of
43_receiver.md about single steps. -/

namespace Sys2Proof.Machine

theorem step_rd2 {s : State} (h : s.cfg.Valid) (hq : Quiet s) (hl : s.label = .rd2) :
    step s = .next (receiverRD2 (nextAct s)) := by
  rw [step_quiet h hq, advance, nextAct_label, hl]

theorem step_rd3Nack {s : State} (h : s.cfg.Valid) (hq : Quiet s) (hl : s.label = .rd3Nack) :
    step s = .next (onWritten (finish .noData) (nextAct s)) := by
  rw [step_quiet h hq, advance, nextAct_label, hl]
  rfl

theorem step_rd5Nack {s : State} (h : s.cfg.Valid) (hq : Quiet s) (hl : s.label = .rd5Nack) :
    step s = .next (onWritten (finish .crcError) (nextAct s)) := by
  rw [step_quiet h hq, advance, nextAct_label, hl]
  rfl

theorem step_rd6 {s : State} (h : s.cfg.Valid) (hq : Quiet s) (hl : s.label = .rd6) :
    step s = .next (receiverRD6 (nextAct s)) := by
  rw [step_quiet h hq, advance, nextAct_label, hl]

/-- Settles O44: acceptance, then the one call of `RD1`. -/
theorem readFlushesFirst : Obligations.ReadFlushesFirst := fun _ hs => exec_of_idle .read hs

/-- `RD2` in a cleared working state: the NACK frame, and its checksum in `TXP` (43_receiver.md R152). -/
theorem buildFrame_reply_crc {c : Config} (hF : 5 ≤ c.F) (devid command : Byte) :
    (buildFrame c { Work.zero with txp := replyPacket devid command }).txp.crc =
      crc16 c.crcPoly (wireSpan c devid command []) :=
  buildFrame_crc hF Memory.wf_nil (Nat.zero_le _) (Nat.zero_le _) (frameBytes_reply hF devid command rfl rfl)

/-- Settles O45: the invariant says that the working state is zero at `RD2`, so the NACK frame is built in a cleared
buffer. -/
theorem nackIsBuiltBeforeReading : Obligations.NackIsBuiltBeforeReading := by
  intro s hinv hquiet hlabel
  have hF : 5 ≤ s.cfg.F := hinv.valid.1
  obtain ⟨-, hflushed, -, -⟩ := hinv.transmitOk
  have hreply := replySide_buildFrame hF s.devid s.cfg.nackCode
    (w := { Work.zero with txp := replyPacket s.devid s.cfg.nackCode }) rfl rfl
  refine ⟨buildFrame s.cfg { Work.zero with txp := replyPacket s.devid s.cfg.nackCode }, ?_, hreply.frame, hreply.txf,
    rfl, rfl, rfl, rfl, buildFrame_reply_crc hF s.devid s.cfg.nackCode, rfl, rfl, rfl, rfl, rfl, rfl, rfl⟩
  rw [step_rd2 hinv.valid hquiet hlabel, receiverRD2, nextAct_work, hflushed hlabel]
  rfl

/-- The end of a READ once its NACK frame is answered, with kind `k` where the transport took it (43_receiver.md
R163). -/
theorem onWritten_finish_nextAct {s : State} {a : WriteAnswer} {rest : List WriteAnswer} {k : Kind} (hk : k ≠ .ok)
    (h : s.tpWrites = a :: rest) : onWritten (finish k) (nextAct s) =
      ended (if a = .ok then k else .ioError) ResultRegs.zero
        { s with host := s.host.tail, cmdReject := false, tpWrites := rest } := by
  cases a with
  | ok =>
    rw [onWritten_ok (s := nextAct s) _ h, finish_error_eq hk]
    rfl
  | ioError => exact onWritten_nextAct_ioError _ h

/-- Settles O46: no frame at `RD3` hands over the NACK frame that stands in `TXF`; its answer ends the READ. -/
theorem noFrameIsAnsweredWithNack : Obligations.NoFrameIsAnsweredWithNack := by
  refine ⟨fun s a rest hinv hquiet hlabel hreads hnone => ?_, fun s a rest hvalid hquiet hlabel hwrites => ?_⟩
  · have hreply := hinv.replySide (.inl hlabel)
    rw [step_rd3 hinv.valid hquiet hlabel, receiverRD3_noFrame (s := nextAct s) hreads hnone, ← hreply.frame]
    rfl
  · rw [step_rd3Nack hvalid hquiet hlabel, onWritten_finish_nextAct (by decide) hwrites]

/-- `RD3` with a frame of legal length and a checksum that differs (43_receiver.md R157). -/
theorem receiverRD3_badChecksum {s : State} {b : List Byte} {rest : List ReadAnswer} (hF : 5 ≤ s.cfg.F)
    (hreads : s.tpReads = .bytes b :: rest) (hb : b.length = s.cfg.F) (hmax : (b.getD 2 0#8).toNat ≤ s.cfg.maxp)
    (hmin : s.cfg.minLen.toNat ≤ (b.getD 2 0#8).toNat) (hcrc : ¬CrcMatches s.cfg b) :
    receiverRD3 s = sendFrame .rd5Nack
      (setWork { s.work with rxf := Memory.ofBytes b, rxp := packetOf s.cfg b } (setTpReads rest s)) := by
  rw [receiverRD3_frame hreads hb, receiverRD4_goodLength (s := setTpReads rest s) hF hb hmax hmin, setTpReads_cfg,
    if_neg hcrc, receiveFrame_of_le (s := setTpReads rest s) hF hb hmax]
  rfl

/-- `RD3` with a good frame of sufficient length (43_receiver.md R158). -/
theorem receiverRD3_goodFrame {s : State} {b : List Byte} {rest : List ReadAnswer} (hF : 5 ≤ s.cfg.F)
    (hreads : s.tpReads = .bytes b :: rest) (hgood : GoodFrame s.cfg b)
    (hmin : s.cfg.minLen.toNat ≤ (b.getD 2 0#8).toNat) :
    receiverRD3 s = replyAck
      (setWork { s.work with rxf := Memory.ofBytes b, rxp := packetOf s.cfg b } (setTpReads rest s)) := by
  obtain ⟨hb, hmax, hcrc⟩ := hgood
  rw [receiverRD3_frame hreads hb, receiverRD4_goodLength (s := setTpReads rest s) hF hb hmax hmin, setTpReads_cfg,
    if_pos hcrc, receiveFrame_of_le (s := setTpReads rest s) hF hb hmax]
  rfl

/-- Settles O48: the frame handed over is the NACK frame that stands in `TXF`. -/
theorem badChecksumIsAnsweredWithNack : Obligations.BadChecksumIsAnsweredWithNack := by
  refine ⟨fun s b rest hinv hquiet hlabel hreads hb hmax hmin hcrc => ?_,
    fun s a rest hvalid hquiet hlabel hwrites => ?_⟩
  · have hF : 5 ≤ s.cfg.F := hinv.valid.1
    have hreply := hinv.replySide (.inl hlabel)
    refine ⟨{ s.work with rxf := Memory.ofBytes b, rxp := packetOf s.cfg b }, ?_, rfl, rfl, frameBytes_ofBytes hb,
      dec_ofBytes hF hb hmax, rfl, rfl, rfl, rfl, rfl⟩
    rw [step_rd3 hinv.valid hquiet hlabel, receiverRD3_badChecksum (s := nextAct s) hF hreads hb hmax hmin hcrc,
      ← hreply.frame]
    rfl
  · rw [step_rd5Nack hvalid hquiet hlabel, onWritten_finish_nextAct (by decide) hwrites]

/-- The checksum in `TXP` of a reply frame built over another one (43_receiver.md R158). -/
theorem ReplySide.rebuild_crc {c : Config} {devid old : Byte} {w : Work} (h : ReplySide c devid old w) (hF : 5 ≤ c.F)
    (new : Byte) : (buildFrame c { w with txp := { w.txp with command := new } }).txp.crc =
      crc16 c.crcPoly (wireSpan c devid new []) :=
  buildFrame_crc (w := { w with txp := { w.txp with command := new } }) (payload := []) hF h.txf.1
    (by simp only [h.length]; exact Nat.zero_le _) (Nat.zero_le _) (h.rebuild hF new).frame

/-- Settles O49: the ACK frame is built over the NACK frame that the invariant finds in `TXF` (`ReplySide.rebuild`). -/
theorem goodFrameIsAnsweredWithAck : Obligations.GoodFrameIsAnsweredWithAck := by
  intro s b rest hinv hquiet hlabel hreads hgood hmin
  have hF : 5 ≤ s.cfg.F := hinv.valid.1
  have hreply := (hinv.replySide (.inl hlabel)).congr
    (w' := { s.work with rxf := Memory.ofBytes b, rxp := packetOf s.cfg b }) rfl rfl
  have hack := hreply.rebuild hF s.cfg.ackCode
  refine ⟨buildFrame s.cfg { s.work with
      rxf := Memory.ofBytes b, rxp := packetOf s.cfg b, txp := { s.work.txp with command := s.cfg.ackCode } }, ?_,
    dec_ofBytes hF hgood.1 hgood.2.1, frameBytes_ofBytes hgood.1, hack.frame, ?_, rfl, rfl, rfl, rfl, rfl⟩
  · rw [step_rd3 hinv.valid hquiet hlabel, receiverRD3_goodFrame (s := nextAct s) hF hreads hgood hmin, ← hack.frame]
    rfl
  · rw [← hreply.rebuild_crc hF s.cfg.ackCode]
    rfl

/-- Settles O50: `RD6` writes `RES` only with `ok`. -/
theorem deliveryFollowsTheAck : Obligations.DeliveryFollowsTheAck := by
  intro s rest hvalid hquiet hlabel
  refine ⟨fun hok => ?_, fun hio => ?_⟩
  · rw [step_rd6 hvalid hquiet hlabel, receiverRD6, onWritten_ok (s := nextAct s) _ hok]
    rfl
  · rw [step_rd6 hvalid hquiet hlabel, receiverRD6, onWritten_nextAct_ioError _ hio]

end Sys2Proof.Machine
end

section
/-! PROOFS. Runs of a WRITE, point by point, and the statements of 42_sender.md R136 about whole runs. -/

namespace Sys2Proof.Machine

/-! ### A WRITE at one of its points -/

/-- `u` stands at the point `l` of a WRITE that transmits `frame`: the answers still to come and the calls made are as
given. -/
structure WriteAt (c : Config) (frame : List Byte) (l : Label) (ws : List WriteAnswer) (rs : List ReadAnswer)
    (ts : List Tick) (calls : List Call) (u : State) : Prop where
  cfg : u.cfg = c
  wait : AllWait u.host
  busy : u.busy = true
  done : u.done = false
  res : u.res = ResultRegs.zero
  label : u.label = l
  writes : u.tpWrites = ws
  reads : u.tpReads = rs
  ticks : u.ticks = ts
  frame : frameBytes c u.work.txf = frame
  calls : u.calls = calls

/-- The loop's counters as numbers. -/
structure LoopRegs (start : Tick) (cont budget : Nat) (ext : Bool) (w : Work) : Prop where
  start : w.start = start
  cont : w.cont.toNat = cont
  budget : w.budget.toNat = budget
  ext : w.ext = ext

variable {c : Config} {frame b : List Byte} {ws : List WriteAnswer} {rs : List ReadAnswer} {ts : List Tick}
  {calls : List Call} {start now : Tick} {cont budget : Nat} {ext : Bool} {u s : State}

/-- A supplied operand has the length the bundle says (30_encoding.md R72). -/
theorem write_wf_of_supplies {data : Operand} {len : Half} {bytes : List Byte} (command : Byte)
    (h : Supplies data len bytes) : (Instr.write command len data).wf c = true := by
  obtain ⟨hlength, rfl | ⟨rfl, rfl⟩⟩ := h
  · simpa [Instr.wf, Operand.sized] using hlength
  · rfl

/-- The accepting step of a legal WRITE (42_sender.md R120 to R123). -/
theorem writeAt_w3_of_start {r : Request} {acts : List HostAct} {command : Byte} {len : Half} {data : Operand}
    {bytes : List Byte} (hvalid : s.cfg.Valid) (hbusy : s.busy = false) (hhost : s.host = .start r :: acts)
    (hacts : AllWait acts) (hdecode : decode r = some (.write command len data)) (hdata : Supplies data len bytes)
    (hlen : len.toNat ≤ s.cfg.maxp) :
    ∃ u, step s = .next u ∧ WriteAt s.cfg (wireFrame s.cfg s.devid command bytes) .w3 s.tpWrites s.tpReads s.ticks
      (s.calls ++ [.tpWrite (wireFrame s.cfg s.devid command bytes)]) u := by
  let s' : State := { s with host := acts, cmdReject := false }
  have hframe := frameBytes_writeBuild (s := s') command hvalid hlen hdata
  refine ⟨_, (step_start_some hvalid hhost hdecode (.inr (write_wf_of_supplies command hdata))).trans
    (exec_write_of_supplies (s := s') command hbusy hlen hdata),
    rfl, hacts, rfl, rfl, rfl, rfl, rfl, rfl, rfl, hframe, ?_⟩
  rw [← hframe]
  rfl

/-- The first `TpWrite` is taken (42_sender.md R123, R124). -/
theorem WriteAt.sent (hv : c.Valid) (h : WriteAt c frame .w3 (.ok :: ws) rs ts calls u) :
    ∃ v, step u = .next v ∧ WriteAt c frame .w4 ws rs ts (calls ++ [.clkNow]) v := by
  obtain ⟨rfl, hwait, hbusy, hdone, hres, hlabel, hwrites, hreads, hticks, hframe, rfl⟩ := h
  have hstep := step_w3 hv (quiet_of_allWait hwait) hlabel
  rw [senderW3, onWritten_ok (s := nextAct u) _ hwrites] at hstep
  exact ⟨_, hstep, rfl, allWait_tail hwait, hbusy, hdone, hres, rfl, rfl, hreads, hticks, hframe, rfl⟩

/-- The wait loop is set up (42_sender.md R124). -/
theorem WriteAt.setUp (hv : c.Valid) (h : WriteAt c frame .w4 ws rs (now :: ts) calls u) :
    ∃ v, step u = .next v ∧ WriteAt c frame .w5 ws rs ts (calls ++ [.clkNow]) v ∧
      LoopRegs now 0 c.maxAckWait false v.work := by
  obtain ⟨rfl, hwait, hbusy, hdone, hres, hlabel, hwrites, hreads, hticks, hframe, rfl⟩ := h
  have hstep := step_w4 hv (quiet_of_allWait hwait) hlabel
  rw [senderW4, onTick_cons (s := nextAct u) _ hticks] at hstep
  exact ⟨_, hstep, ⟨rfl, allWait_tail hwait, hbusy, hdone, hres, rfl, hwrites, hreads, rfl, hframe, rfl⟩,
    rfl, rfl, toNat_maxAckWait hv, rfl⟩

/-- The guard passes and the gate is open (42_sender.md R125, R126). -/
theorem WriteAt.gateOpen (hv : c.Valid) (h : WriteAt c frame .w5 ws rs (now :: ts) calls u)
    (hr : LoopRegs start cont budget ext u.work) (hcont : cont ≤ c.maxAttempts) (hel : (now - start).toNat ≤ budget)
    (hopen : cont * c.retryInterval ≤ (now - start).toNat) :
    ∃ v, step u = .next v ∧ WriteAt c frame .w6 ws rs ts (calls ++ [.tpRead c.F c.pollTimeout]) v ∧
      LoopRegs start cont budget ext v.work := by
  obtain ⟨rfl, hwait, hbusy, hdone, hres, hlabel, hwrites, hreads, hticks, hframe, rfl⟩ := h
  have helapsed : elapsed now (nextAct u) = now - start := congrArg (now - ·) hr.start
  have hstep := step_w5 hv (quiet_of_allWait hwait) hlabel
  rw [senderW5_of_open (s := nextAct u) hticks] at hstep
  · exact ⟨_, hstep, ⟨rfl, allWait_tail hwait, hbusy, hdone, hres, rfl, hwrites, hreads, rfl, hframe, rfl⟩, hr⟩
  · rw [helapsed, nextAct_cfg, nextAct_work, hr.cont, hr.budget, not_or]
    exact ⟨Nat.not_lt.2 hcont, Nat.not_lt.2 hel⟩
  · rw [helapsed, nextAct_cfg, nextAct_work, hr.cont]
    exact hopen

/-- A good ACK frame ends the WRITE (42_sender.md R129). -/
theorem WriteAt.acked (hv : c.Valid) (h : WriteAt c frame .w6 ws (.bytes b :: rs) ts calls u) (hgood : GoodFrame c b)
    (hack : b.getD 1 0#8 = c.ackCode) :
    ∃ v, step u = .next v ∧ Completed v ∧ v.status = .ok ∧ v.res = ResultRegs.zero ∧ v.calls = calls := by
  obtain ⟨rfl, hwait, hbusy, hdone, hres, hlabel, hwrites, hreads, hticks, hframe, rfl⟩ := h
  have hF : 5 ≤ (nextAct u).cfg.F := hv.1
  have hstep := step_w6 hv (quiet_of_allWait hwait) hlabel
  rw [senderW6_ackReply (s := nextAct u) hF hreads hgood hack] at hstep
  exact ⟨_, hstep, ⟨rfl, rfl, rfl, rfl⟩, rfl, hres, rfl⟩

/-- The first good NACK frame extends the budget and, within the attempt cap, transmits the frame again (42_sender.md
R130, R132). -/
theorem WriteAt.nacked (hv : c.Valid) (h : WriteAt c frame .w6 ws (.bytes b :: rs) ts calls u)
    (hr : LoopRegs start cont c.maxAckWait false u.work) (hcont : cont < c.maxAttempts) (hgood : GoodFrame c b)
    (hnack : b.getD 1 0#8 = c.nackCode) :
    ∃ v, step u = .next v ∧ WriteAt c frame .w8 ws rs ts (calls ++ [.tpWrite frame]) v ∧
      LoopRegs start cont (c.maxAckWait + c.retryInterval) true v.work := by
  obtain ⟨rfl, hwait, hbusy, hdone, hres, hlabel, hwrites, hreads, hticks, rfl, rfl⟩ := h
  have hstep := step_w6 hv (quiet_of_allWait hwait) hlabel
  have hlt : (extended (nextAct u).cfg (receiveFrame b (nextAct u)).work).cont.toNat <
      (setTpReads rs (nextAct u)).cfg.maxAttempts := hr.cont.trans_lt hcont
  rw [senderW6_nackReply (s := nextAct u) hv hreads hgood hnack, resent, if_pos hlt] at hstep
  refine ⟨_, hstep, ⟨rfl, allWait_tail hwait, hbusy, hdone, hres, rfl, hwrites, rfl, hticks, rfl, rfl⟩, hr.start,
    hr.cont, toNat_budget_extended hv ?_, rfl⟩
  show u.work.budget.toNat = u.cfg.maxAckWait + (if u.work.ext then u.cfg.retryInterval else 0)
  rw [hr.budget, hr.ext]
  rfl

/-- A resent frame that the transport took is counted (42_sender.md R132). -/
theorem WriteAt.counted (hv : c.Valid) (h : WriteAt c frame .w8 (.ok :: ws) rs ts calls u)
    (hr : LoopRegs start cont budget ext u.work) (hcont : cont ≤ c.maxAttempts) :
    ∃ v, step u = .next v ∧ WriteAt c frame .w5 ws rs ts (calls ++ [.clkNow]) v ∧
      LoopRegs start (cont + 1) budget ext v.work := by
  obtain ⟨rfl, hwait, hbusy, hdone, hres, hlabel, hwrites, hreads, hticks, hframe, rfl⟩ := h
  have hstep := step_w8 hv (quiet_of_allWait hwait) hlabel
  rw [senderW8, onWritten_ok (s := nextAct u) _ hwrites] at hstep
  refine ⟨_, hstep, ⟨rfl, allWait_tail hwait, hbusy, hdone, hres, rfl, rfl, hreads, hticks, hframe, rfl⟩, hr.start,
    ?_, hr.budget, hr.ext⟩
  exact (toNat_cont_succ hv (hr.cont.trans_le hcont)).trans (congrArg (· + 1) hr.cont)

end Sys2Proof.Machine
end

section
/-! PROOFS. The statements of 42_sender.md R136 (a) and (b). -/

namespace Sys2Proof.Machine

/-- Settles O41: acceptance, `W3`, `W4`, the first guard with `CONT = 0`, and the ACK. -/
theorem writeSucceedsOnFirstAck : Obligations.WriteSucceedsOnFirstAck := by
  intro s r acts command len data bytes reply t0 t1 ws rs ts hvalid hbusy hhost hacts hdecode hdata hlen hwrites hreads
    hticks hel hgood hack
  obtain ⟨u1, e1, h1⟩ := writeAt_w3_of_start hvalid hbusy hhost hacts hdecode hdata hlen
  rw [hwrites, hreads, hticks] at h1
  obtain ⟨u2, e2, h2⟩ := h1.sent hvalid
  obtain ⟨u3, e3, h3, r3⟩ := h2.setUp hvalid
  obtain ⟨u4, e4, h4, -⟩ := h3.gateOpen hvalid r3 (Nat.zero_le _) hel (by rw [Nat.zero_mul]; exact Nat.zero_le _)
  obtain ⟨u5, e5, ⟨hb, hd, hf, hw⟩, hstatus, hres, hcalls⟩ := h4.acked hvalid hgood hack
  exact ⟨u5, ⟨u1, e1, u2, e2, u3, e3, u4, e4, u5, e5, rfl⟩, hstatus, hb, hd, hf, hw, hres, by simp [hcalls]⟩

/-- Settles O42: as for O41, with the NACK, the resend counted, and the guard and gate once more with `CONT = 1`. -/
theorem writeResendsOnceOnNackThenAck : Obligations.WriteResendsOnceOnNackThenAck := by
  intro s r acts command len data bytes nack ack t0 t1 t2 ws rs ts hvalid hattempts hbusy hhost hacts hdecode hdata hlen
    hwrites hreads hticks hel1 hopen hel2 hnackGood hnack hackGood hack
  obtain ⟨u1, e1, h1⟩ := writeAt_w3_of_start hvalid hbusy hhost hacts hdecode hdata hlen
  rw [hwrites, hreads, hticks] at h1
  obtain ⟨u2, e2, h2⟩ := h1.sent hvalid
  obtain ⟨u3, e3, h3, r3⟩ := h2.setUp hvalid
  obtain ⟨u4, e4, h4, r4⟩ := h3.gateOpen hvalid r3 (Nat.zero_le _) hel1 (by rw [Nat.zero_mul]; exact Nat.zero_le _)
  obtain ⟨u5, e5, h5, r5⟩ := h4.nacked hvalid r4 hattempts hnackGood hnack
  obtain ⟨u6, e6, h6, r6⟩ := h5.counted hvalid r5 (Nat.zero_le _)
  obtain ⟨u7, e7, h7, -⟩ := h6.gateOpen hvalid r6 hattempts hel2 (by rw [Nat.zero_add, Nat.one_mul]; exact hopen)
  obtain ⟨u8, e8, ⟨hb, hd, -, -⟩, hstatus, -, hcalls⟩ := h7.acked hvalid hackGood hack
  exact ⟨u8, _, ⟨u1, e1, u2, e2, u3, e3, u4, e4, u5, e5, u6, e6, u7, e7, u8, e8, rfl⟩, hstatus, hb, hd, rfl,
    by simp [hcalls]⟩

end Sys2Proof.Machine
end

section
/-! PROOFS. Runs of a READ: the two whole runs of 95_test_vectors.md T7 and T8, and the order of its calls. -/

namespace Sys2Proof.Machine

/-! ### From acceptance to the one `TpRead` -/

/-- The first two steps of a READ, from any idle state: from `RD3` on the invariant holds, whatever held before
(10_state.md R29, 43_receiver.md R151, R152). -/
theorem read_reaches_rd3 {s : State} {r : Request} {acts : List HostAct} (hvalid : s.cfg.Valid) (hbusy : s.busy = false)
    (hhost : s.host = .start r :: acts) (hacts : AllWait acts) (hdecode : decode r = some .read) :
    ∃ u v, step s = .next u ∧ step u = .next v ∧ Invariant v ∧ AllWait v.host ∧ v.label = .rd3 ∧ v.cfg = s.cfg ∧
      v.devid = s.devid ∧ v.tpReads = s.tpReads ∧ v.tpWrites = s.tpWrites ∧
      v.calls = s.calls ++ [.tpFlush, .tpRead s.cfg.F s.cfg.rxTimeout] := by
  have hF : 5 ≤ s.cfg.F := hvalid.1
  let u : State := readBody (accept { s with host := acts, cmdReject := false })
  have hstart : step s = .next u :=
    (step_start_some hvalid hhost hdecode (.inr rfl)).trans (exec_of_idle .read hbusy)
  have hnext : step u = .next (receiverRD2 (nextAct u)) := step_rd2 hvalid (quiet_of_allWait (s := u) hacts) rfl
  refine ⟨u, _, hstart, hnext, ?_, allWait_tail hacts, rfl, rfl, rfl, rfl, rfl, List.append_assoc _ _ _⟩
  exact invariant_of_nack ⟨hvalid, rfl, rfl, rfl, rfl⟩ (.inl rfl)
    (replySide_buildFrame hF s.devid s.cfg.nackCode rfl rfl) (receiveSide_of_zero rfl rfl) ⟨rfl, rfl, rfl, rfl, rfl⟩

/-- The payload bytes of a received Packet (41_framer.md R107). -/
theorem readBytes_packetOf_length {c : Config} {b : List Byte} (hF : 5 ≤ c.F) (hb : b.length = c.F)
    (hmax : (b.getD 2 0#8).toNat ≤ c.maxp) :
    Memory.readBytes (packetOf c b).payload 0 (b.getD 2 0#8).toNat = (b.drop 3).take (b.getD 2 0#8).toNat := by
  have hlength := length_framePayload hF hb hmax
  have hread := Memory.readBytes_ofBytes ((b.drop 3).take (b.getD 2 0#8).toNat)
  rwa [hlength] at hread

/-- Settles O51: `RD3` answers the good frame with the ACK frame (O49), and `RD6` delivers what it decoded (O50). -/
theorem readDeliversGoodFrame : Obligations.ReadDeliversGoodFrame := by
  intro s r acts b ws rs hvalid hbusy hhost hacts hdecode hreads hwrites hgood hmin
  have hF : 5 ≤ s.cfg.F := hvalid.1
  have ⟨hb, hmax, _⟩ := hgood
  obtain ⟨u, v, e1, e2, hinv, hwait, hlabel, hcfg, hdevid, hvreads, hvwrites, hcalls⟩ :=
    read_reaches_rd3 hvalid hbusy hhost hacts hdecode
  rw [← hcfg] at hgood hmin
  obtain ⟨w, e3, hdec, -⟩ := goodFrameIsAnsweredWithAck v b rs hinv (quiet_of_allWait hwait) hlabel
    (hvreads.trans hreads) hgood hmin
  let x : State := { v with
    host := v.host.tail, cmdReject := false, tpReads := rs, work := w, label := .rd6
    calls := v.calls ++ [.tpWrite (wireFrame v.cfg v.devid v.cfg.ackCode [])] }
  have hrxp : w.rxp = packetOf s.cfg b := by
    rw [hcfg, dec_ofBytes hF hb hmax] at hdec
    exact (Option.some.inj hdec).symm
  obtain ⟨hdeliver, -⟩ := deliveryFollowsTheAck x ws hinv.valid (quiet_of_allWait (s := x) (allWait_tail hwait)) rfl
  have hres := (hinv.occupied (by simp [hlabel])).res
  refine ⟨_, ⟨u, e1, v, e2, x, e3, _, hdeliver (hvwrites.trans hwrites), rfl⟩, rfl, rfl, rfl, congrArg Packet.id hrxp,
    congrArg Packet.command hrxp, congrArg Packet.length hrxp, ?_, ?_, congrArg ResultRegs.crc16 hres,
    congrArg ResultRegs.frame hres, rfl, ?_⟩
  · exact (congrArg (fun p : Packet => Memory.readBytes p.payload 0 _) hrxp).trans
      (readBytes_packetOf_length hF hb hmax)
  · exact (congrArg (fun p : Packet => p.crc.toNat) hrxp).trans (halfOf_toNat _ _)
  · simp [x, ended, hcalls, hcfg, hdevid]

/-- Settles O52: `RD3` answers the frame with the NACK frame, and the taken `TpWrite` ends in `CrcError` (O48). -/
theorem readRejectsBadChecksum : Obligations.ReadRejectsBadChecksum := by
  intro s r acts b ws rs hvalid hbusy hhost hacts hdecode hreads hwrites hb hmax hmin hcrc
  obtain ⟨u, v, e1, e2, hinv, hwait, hlabel, hcfg, hdevid, hvreads, hvwrites, hcalls⟩ :=
    read_reaches_rd3 hvalid hbusy hhost hacts hdecode
  rw [← hcfg] at hb hmax hmin hcrc
  obtain ⟨hreply, hend⟩ := badChecksumIsAnsweredWithNack
  obtain ⟨w, e3, -⟩ := hreply v b rs hinv (quiet_of_allWait hwait) hlabel (hvreads.trans hreads) hb hmax hmin hcrc
  let x : State := { v with
    host := v.host.tail, cmdReject := false, tpReads := rs, work := w, label := .rd5Nack
    calls := v.calls ++ [.tpWrite (wireFrame v.cfg v.devid v.cfg.nackCode [])] }
  have e4 := hend x .ok ws hinv.valid (quiet_of_allWait (s := x) (allWait_tail hwait)) rfl (hvwrites.trans hwrites)
  refine ⟨_, ⟨u, e1, v, e2, x, e3, _, e4, rfl⟩, rfl, rfl, rfl, rfl, rfl, ?_⟩
  simp [x, ended, hcalls, hcfg, hdevid]

/-! ### The order of the calls -/

/-- What every step keeps holds at the end of a run. -/
theorem after_keeps {P : State → Prop} (hstep : ∀ u v, P u → step u = .next v → P v) {n : Nat} {s t : State} (hs : P s)
    (h : After n s t) : P t := by
  induction n generalizing s with
  | zero => cases h; exact hs
  | succ n ih =>
    obtain ⟨u, hu, h⟩ := h
    exact ih (hstep s u hs hu) h

/-- The points of READ at which a reply is being written. -/
abbrev Label.Replying (l : Label) : Prop := l = .rd3Nack ∨ l = .rd5Nack ∨ l = .rd6

/-- Where a READ stands, by its continuation label, `BUSY` and `STATUS`, with the calls it has made (43_receiver.md
R164). -/
inductive ReadPoint (c : Config) (l : Label) (busy : Bool) (k : Kind) : List Call → Prop where
  | flushed : l = .rd2 → busy = true → ReadPoint c l busy k [.tpFlush]
  | reading : l = .rd3 → busy = true → ReadPoint c l busy k [.tpFlush, .tpRead c.F c.rxTimeout]
  | replying (f : List Byte) : l.Replying → busy = true →
      ReadPoint c l busy k [.tpFlush, .tpRead c.F c.rxTimeout, .tpWrite f]
  | endedSilent : l = .none → ReadPoint c l busy k [.tpFlush, .tpRead c.F c.rxTimeout]
  | endedReplied (f : List Byte) : l = .none → k ≠ .lengthError →
      ReadPoint c l busy k [.tpFlush, .tpRead c.F c.rxTimeout, .tpWrite f]

theorem NextCall.of_rd2 {s : State} {w : Work} {c : Call} {l : Label} {f : Fsm} (h : NextCall s w c l f)
    (hl : s.label = .rd2) : c = .tpRead s.cfg.F s.cfg.rxTimeout ∧ l = .rd3 := by
  cases h <;> simp_all

theorem NextCall.of_rd3 {s : State} {w : Work} {c : Call} {l : Label} {f : Fsm} (h : NextCall s w c l f)
    (hl : s.label = .rd3) : (∃ frame, c = .tpWrite frame) ∧ l.Replying := by
  cases h <;> simp_all [Label.Replying]

theorem NextCall.not_replying {s : State} {w : Work} {c : Call} {l : Label} {f : Fsm} (h : NextCall s w c l f) :
    ¬s.label.Replying ∧ s.label ≠ .none := by
  cases h <;> simp_all [Label.Replying]

/-- One step of a READ makes the next of its calls, or ends it (43_receiver.md R164). -/
theorem ReadPoint.advances {s t : State} {new : List Call} (h : ReadPoint s.cfg s.label s.busy s.status new)
    (ha : Advances s t) :
    ∃ more, t.calls = s.calls ++ more ∧ ReadPoint s.cfg t.label t.busy t.status (new ++ more) := by
  cases ha with
  | waits => exact ⟨[], (List.append_nil _).symm, (List.append_nil new).symm ▸ h⟩
  | ends k r w ws rs ts hrunning hflushed hlength hrd3 =>
    refine ⟨[], (List.append_nil _).symm, (List.append_nil new).symm ▸ ?_⟩
    cases h with
    | flushed hl => exact absurd hl hflushed
    | reading => exact .endedSilent rfl
    | replying f hl =>
      refine .endedReplied f rfl fun hk => ?_
      rw [hlength hk] at hl
      simp [Label.Replying] at hl
    | endedSilent hl => exact absurd hl hrunning
    | endedReplied f hl => exact absurd hl hrunning
  | calls w ws rs ts c l f hcall =>
    refine ⟨[c], rfl, ?_⟩
    cases h with
    | flushed hl hbusy =>
      obtain ⟨rfl, rfl⟩ := hcall.of_rd2 hl
      exact .reading rfl hbusy
    | reading hl hbusy =>
      obtain ⟨⟨frame, rfl⟩, hreplying⟩ := hcall.of_rd3 hl
      exact .replying frame hreplying hbusy
    | replying f hl => exact absurd hl hcall.not_replying.1
    | endedSilent hl => exact absurd hl hcall.not_replying.2
    | endedReplied f hl => exact absurd hl hcall.not_replying.2

/-- A READ that `s` accepted stands in `u`, and its host only waits. -/
structure ReadRun (s u : State) : Prop where
  cfg : u.cfg = s.cfg
  wait : AllWait u.host
  point : ∃ new, u.calls = s.calls ++ new ∧ ReadPoint s.cfg u.label u.busy u.status new

theorem ReadRun.step {s u v : State} (h : ReadRun s u) (hv : step u = .next v) : ReadRun s v := by
  obtain ⟨hcfg, hwait, new, hcalls, hpoint⟩ := h
  have ha := advances_of_step hwait hv
  obtain ⟨more, hmore, hnext⟩ := ReadPoint.advances (s := nextAct u) (hcfg ▸ hpoint) ha
  refine ⟨ha.cfg.trans hcfg, ha.host ▸ allWait_tail hwait, new ++ more, ?_, hcfg ▸ hnext⟩
  rw [hmore, nextAct_calls, hcalls, List.append_assoc]

/-- An accepted READ has flushed. -/
theorem readRun_of_start {s u : State} {r : Request} {acts : List HostAct} (hbusy : s.busy = false)
    (hhost : s.host = .start r :: acts) (hacts : AllWait acts) (hdecode : decode r = some .read)
    (hu : step s = .next u) : ReadRun s u := by
  have hstarts := starts_of_step hbusy hhost hdecode hu
  refine ⟨hstarts.cfg, ?_, ?_⟩
  · rw [hstarts.host, nextAct_host, hhost]
    exact hacts
  · cases hstarts with
    | ends _ _ _ _ hne => exact absurd rfl hne
    | flushes => exact ⟨[.tpFlush], rfl, .flushed rfl rfl⟩

/-- Settles O53: after its first step a READ stands at one of the points of `ReadPoint`, whose calls are as many as
their place in the order. -/
theorem readCallsInOrder : Obligations.ReadCallsInOrder := by
  intro s t r acts n _ hbusy hhost hacts hdecode h
  cases n with
  | zero =>
    cases h
    exact ⟨[], [], (List.append_nil _).symm, ⟨_, rfl⟩, by omega, by omega⟩
  | succ n =>
    obtain ⟨u, hu, h⟩ := h
    have hrun := after_keeps (P := ReadRun s) (fun _ _ => ReadRun.step)
      (readRun_of_start hbusy hhost hacts hdecode hu) h
    obtain ⟨new, hcalls, hpoint⟩ := hrun.point
    cases hpoint with
    | flushed _ ht => exact ⟨_, [], hcalls, by simp, by simp [ht], by simp [ht]⟩
    | reading => exact ⟨_, [], hcalls, by simp, by simp, by simp⟩
    | replying f _ ht => exact ⟨_, f, hcalls, by simp, by simp, by simp [ht]⟩
    | endedSilent => exact ⟨_, [], hcalls, by simp, by simp, by simp⟩
    | endedReplied f _ hk => exact ⟨_, f, hcalls, by simp, by simp, fun _ _ hk' => absurd hk' hk⟩

end Sys2Proof.Machine
end

section
/-! PROOFS. The bounds of a WRITE (42_sender.md R135, R137): how often it transmits, when it ends under the clock
assumption, and the run that never ends without it. -/

namespace Sys2Proof.Machine

/-! ### How often a WRITE transmits -/

/-- The `TpWrite` calls a WRITE can have made at the point `l` with the given `CONT`: one for the data frame, and one
for each resend that is counted or waits to be (42_sender.md R132, R135). -/
def WritesAllowed (c : Config) (l : Label) (cont n : Nat) : Prop :=
  match l with
  | .w3 | .w4 => n ≤ 1
  | .w5 => n ≤ 1 + cont ∧ n ≤ 1 + c.maxAttempts
  | .w6 => n ≤ 1 + cont ∧ cont ≤ c.maxAttempts
  | .w8 => n ≤ 2 + cont ∧ cont < c.maxAttempts
  | .none => n ≤ 1 + c.maxAttempts
  | .rd2 | .rd3 | .rd3Nack | .rd5Nack | .rd6 => False

theorem WritesAllowed.bound {c : Config} {l : Label} {cont n : Nat} (h : WritesAllowed c l cont n) :
    n ≤ 1 + c.maxAttempts := by
  cases l <;> simp only [WritesAllowed] at h <;> omega

/-- A call of a WRITE keeps its count of transmissions. -/
theorem WritesAllowed.calls {s : State} {w : Work} {c : Call} {l : Label} {f : Fsm} {n : Nat} (hv : s.cfg.Valid)
    (h : WritesAllowed s.cfg s.label s.work.cont.toNat n) (hcall : NextCall s w c l f) :
    WritesAllowed s.cfg l w.cont.toNat (n + writesIn [c]) := by
  cases hcall with
  | firstSent hl =>
    rw [hl] at h
    exact h
  | loopSetUp hl _ hcont =>
    rw [hl] at h
    have hn : n ≤ 1 := h
    rw [hcont]
    exact ⟨hn, hn.trans (Nat.le_add_right 1 _)⟩
  | gateShut hl hw =>
    rw [hl] at h
    rw [hw]
    exact h
  | gateOpen hl hw hcont =>
    rw [hl] at h
    rw [hw] at hcont ⊢
    exact ⟨h.1, hcont⟩
  | ignored hl _ hcont =>
    rw [hl] at h
    obtain ⟨hn, hle⟩ := h
    rw [hcont]
    exact ⟨hn, hn.trans (Nat.add_le_add_left hle 1)⟩
  | counted hl _ _ hcont =>
    rw [hl] at h
    obtain ⟨hn, hle⟩ := h
    rw [hcont, toNat_cont_succ hv hle]
    exact ⟨hn.trans (by omega), hn.trans (Nat.add_le_add_left hle 1)⟩
  | resent hl _ hlt hcont =>
    rw [hl] at h
    obtain ⟨hn, -⟩ := h
    rw [hcont]
    exact ⟨by rw [writesIn_tpWrite]; omega, hlt⟩
  | resendCounted hl hw =>
    rw [hl] at h
    obtain ⟨hn, hlt⟩ := h
    rw [hw, toNat_cont_succ hv hlt.le, writesIn_clkNow]
    exact ⟨by omega, by omega⟩
  | receives hl | noFrame hl | badChecksum hl | goodFrame hl =>
    rw [hl] at h
    exact h.elim

theorem WritesAllowed.advances {s t : State} {n : Nat} (hv : s.cfg.Valid)
    (h : WritesAllowed s.cfg s.label s.work.cont.toNat n) (ha : Advances s t) :
    ∃ more, writesIn t.calls = writesIn s.calls + more ∧
      WritesAllowed s.cfg t.label t.work.cont.toNat (n + more) := by
  cases ha with
  | waits => exact ⟨0, rfl, h⟩
  | ends => exact ⟨0, rfl, h.bound⟩
  | calls w ws rs ts c l f hcall => exact ⟨writesIn [c], writesIn_append _ _, h.calls hv hcall⟩

/-- A WRITE that `s` accepted stands in `u`, and its host only waits. -/
structure WriteRun (s u : State) : Prop where
  cfg : u.cfg = s.cfg
  wait : AllWait u.host
  writes : ∃ n, writesIn u.calls = writesIn s.calls + n ∧ WritesAllowed s.cfg u.label u.work.cont.toNat n

theorem WriteRun.step {s u v : State} (h : WriteRun s u) (hv : step u = .next v) : WriteRun s v := by
  obtain ⟨hcfg, hwait, n, hcalls, hallowed⟩ := h
  have hvalid := valid_of_step hv
  have ha := advances_of_step hwait hv
  obtain ⟨more, hmore, hnext⟩ := WritesAllowed.advances (s := nextAct u) hvalid (hcfg ▸ hallowed) ha
  refine ⟨ha.cfg.trans hcfg, ha.host ▸ allWait_tail hwait, n + more, ?_, hcfg ▸ hnext⟩
  rw [hmore, nextAct_calls, hcalls, Nat.add_assoc]

theorem writeRun_of_start {s u : State} {r : Request} {acts : List HostAct} {command : Byte} {len : Half}
    {data : Operand} (hbusy : s.busy = false) (hhost : s.host = .start r :: acts) (hacts : AllWait acts)
    (hdecode : decode r = some (.write command len data)) (hu : step s = .next u) : WriteRun s u := by
  have hstarts := starts_of_step hbusy hhost hdecode hu
  refine ⟨hstarts.cfg, ?_, ?_⟩
  · rw [hstarts.host, nextAct_host, hhost]
    exact hacts
  · cases hstarts with
    | ends => exact ⟨0, rfl, Nat.zero_le _⟩
    | transmits => exact ⟨1, writesIn_append _ _, Nat.le_refl 1⟩

/-- However the environment answers, a WRITE makes at most `1 + MAX_ATTEMPTS` `TpWrite` calls (42_sender.md R135). -/
theorem write_transmissions_le {s t : State} {r : Request} {acts : List HostAct} {command : Byte} {len : Half}
    {data : Operand} {n : Nat} (hbusy : s.busy = false) (hhost : s.host = .start r :: acts) (hacts : AllWait acts)
    (hdecode : decode r = some (.write command len data)) (h : After n s t) :
    writesIn t.calls ≤ writesIn s.calls + (1 + s.cfg.maxAttempts) := by
  cases n with
  | zero => cases h; exact Nat.le_add_right _ _
  | succ n =>
    obtain ⟨u, hu, h⟩ := h
    obtain ⟨-, -, n, hcalls, hallowed⟩ := after_keeps (P := WriteRun s) (fun _ _ => WriteRun.step)
      (writeRun_of_start hbusy hhost hacts hdecode hu) h
    rw [hcalls]
    exact Nat.add_le_add_left hallowed.bound _

/-! ### When a WRITE ends -/

variable {c : Config} {e : Environment} {m j k p q : Nat} {u : State}

/-- From the guard that takes clock answer `j` on, the WRITE ends within three steps a turn (42_sender.md R137). -/
theorem LoopAt.ends_within (hv : c.Valid) (hk : ClockPassesBudget c e k) (hkm : k < m) {d : Nat} (hd : j + d = k)
    (h : LoopAt c e m .w5 j p q u) (hp : p + 1 ≤ j) (hq : q ≤ j) :
    ∃ n v, n ≤ 3 * d + 1 ∧ After n u v ∧ EndsUnanswered c e v := by
  induction d generalizing j p q u with
  | zero =>
    obtain rfl : j = k := hd
    obtain ⟨v, hstep, hend⟩ := h.end_of_clockPassesBudget hv hkm hp hk
    exact ⟨1, v, Nat.le_refl _, ⟨v, hstep, rfl⟩, hend⟩
  | succ d ih =>
    obtain ⟨n, v, hn, hafter, hend | ⟨p', hp', q', hq', hnext⟩⟩ := h.turn hv (by omega) hp hq
    · exact ⟨n, v, by omega, hafter, hend⟩
    · obtain ⟨n', v', hn', hafter', hend⟩ := ih (by omega) hnext (by omega) hq'
      exact ⟨n + n', v', by omega, after_append hafter hafter', hend⟩

/-- Where the loop begins with `CONT = 0`, it begins for an environment that answers every call. -/
theorem loopAt_of_writeAt {frame : List Byte} {calls : List Call}
    (h : WriteAt c frame .w5 (answersFrom e.writes q m) (answersFrom e.reads 0 m) (answersFrom e.clock 1 m) calls u)
    (hr : LoopRegs (e.clock 0) 0 c.maxAckWait false u.work) : LoopAt c e m .w5 1 0 q u :=
  ⟨h.cfg, h.wait, h.busy, h.label, h.ticks, h.reads, h.writes, hr.start, by rw [hr.budget, hr.ext]; rfl,
    fun hext => by rw [hr.ext] at hext; cases hext⟩

/-- `IoError` of the first `TpWrite` ends the WRITE (42_sender.md R123). -/
theorem WriteAt.failed {frame : List Byte} {ws : List WriteAnswer} {rs : List ReadAnswer} {ts : List Tick}
    {calls : List Call} (hv : c.Valid) (h : WriteAt c frame .w3 (.ioError :: ws) rs ts calls u) :
    ∃ v, step u = .next v ∧ v.busy = false ∧ v.done = true := by
  obtain ⟨rfl, hwait, hbusy, hdone, hres, hlabel, hwrites, hreads, hticks, hframe, rfl⟩ := h
  have hstep := step_w3 hv (quiet_of_allWait hwait) hlabel
  rw [senderW3, onWritten_ioError (s := nextAct u) _ hwrites] at hstep
  exact ⟨_, hstep, rfl, rfl⟩

/-- Once its first `TpWrite` is made, a WRITE ends within `3k` steps under the clock assumption (42_sender.md R137). -/
theorem WriteAt.ends_within {frame : List Byte} {calls : List Call} (hv : c.Valid) (hk : ClockPassesBudget c e k)
    (hkm : k < m)
    (h : WriteAt c frame .w3 (answersFrom e.writes 0 m) (answersFrom e.reads 0 m) (answersFrom e.clock 0 m) calls u) :
    ∃ n v, n ≤ 3 * k ∧ After n u v ∧ EndsUnanswered c e v := by
  have hpos : 1 ≤ k := hk.1
  rw [answersFrom_of_lt e.writes (by omega : 0 < m), answersFrom_of_lt e.clock (by omega : 0 < m)] at h
  cases hfirst : e.writes 0 with
  | ioError =>
    rw [hfirst] at h
    obtain ⟨v, hstep, hbusy, hdone⟩ := h.failed hv
    exact ⟨1, v, by omega, ⟨v, hstep, rfl⟩, hbusy, hdone, fun hok => by rw [hok 0] at hfirst; cases hfirst⟩
  | ok =>
    rw [hfirst] at h
    obtain ⟨u1, e1, h1⟩ := h.sent hv
    obtain ⟨u2, e2, h2, r2⟩ := h1.setUp hv
    obtain ⟨n, v, hn, hafter, hend⟩ := (loopAt_of_writeAt h2 r2).ends_within hv hk hkm (d := k - 1) (by omega)
      (Nat.le_refl _) (Nat.le_refl _)
    exact ⟨n + 2, v, by omega, ⟨u1, e1, u2, e2, hafter⟩, hend⟩

/-- An operand of the right length is missing, or it supplies its bytes (30_encoding.md R72). -/
theorem missing_or_supplies {data : Operand} {len : Half} (h : Operand.sized len.toNat data = true) :
    operandMissing len data = true ∨ ∃ bytes, Supplies data len bytes := by
  cases data with
  | some bytes => exact .inr ⟨bytes, by simpa [Operand.sized] using h, .inl rfl⟩
  | none =>
    by_cases hlen : len = 0#16
    · exact .inr ⟨[], by rw [hlen]; rfl, .inr ⟨rfl, rfl⟩⟩
    · exact .inl (by simp [operandMissing, hlen])

/-- A WRITE with a well-formed bundle ends within `3k + 1` steps under the clock assumption (42_sender.md R133, R136,
R137). -/
theorem write_ends_within {s : State} {r : Request} {acts : List HostAct} {command : Byte} {len : Half} {data : Operand}
    (hvalid : s.cfg.Valid) (hbusy : s.busy = false) (hhost : s.host = .start r :: acts) (hacts : AllWait acts)
    (hdecode : decode r = some (.write command len data)) (hwf : (Instr.write command len data).wf s.cfg = true)
    (hk : ClockPassesBudget s.cfg e k) (hkm : k < m) :
    ∃ n t, 1 ≤ n ∧ n ≤ 3 * k + 1 ∧ After n (answeredBy e m s) t ∧ t.busy = false ∧ t.done = true ∧
      ((∃ bytes, Supplies data len bytes) → len.toNat ≤ s.cfg.maxp → (∀ j, e.writes j = .ok) →
        (∀ j, ¬IsReply s.cfg s.cfg.ackCode (e.reads j)) → t.status = .ackTimeout) := by
  let s' : State := { answeredBy e m s with host := acts, cmdReject := false }
  have hexec : step (answeredBy e m s) = exec (.write command len data) s' :=
    step_start_some (s := answeredBy e m s) hvalid hhost hdecode (.inr hwf)
  by_cases hlen : len.toNat ≤ s.cfg.maxp
  · rcases missing_or_supplies hwf with hmissing | ⟨bytes, hdata⟩
    · have hstep := hexec.trans (exec_write_of_missing (s := s') command hbusy hlen hmissing)
      refine ⟨1, _, Nat.le_refl _, by omega, ⟨_, hstep, rfl⟩, rfl, rfl, fun ⟨bytes, hdata⟩ => ?_⟩
      rw [(operand_of_supplies hdata).1] at hmissing
      cases hmissing
    · obtain ⟨u, hstep, hu⟩ := writeAt_w3_of_start (s := answeredBy e m s) hvalid hbusy hhost hacts hdecode hdata hlen
      obtain ⟨n, v, hn, hafter, hend, hdone, hstatus⟩ := hu.ends_within hvalid hk hkm
      exact ⟨n + 1, v, by omega, by omega, ⟨u, hstep, hafter⟩, hend, hdone, fun _ _ => hstatus⟩
  · have hstep := hexec.trans (exec_write_of_tooLong (s := s') command data hbusy (Nat.lt_of_not_le hlen))
    exact ⟨1, _, Nat.le_refl _, by omega, ⟨_, hstep, rfl⟩, rfl, rfl, fun _ hle => absurd hle hlen⟩

/-! ### The run that never ends -/

/-- A reply that is neither an ACK nor a NACK nor noise: no frame, or a good frame with another command (42_sender.md
R131). -/
abbrev Unhelpful (c : Config) (a : ReadAnswer) : Prop :=
  ∀ b, a = .bytes b → b.length = c.F → GoodFrame c b ∧ b.getD 1 0#8 ≠ c.ackCode ∧ b.getD 1 0#8 ≠ c.nackCode

/-- `W6` with an unhelpful reply goes back to the guard, the counters as they were (42_sender.md R126, R131). -/
theorem WriteAt.ignored {frame : List Byte} {a : ReadAnswer} {ws : List WriteAnswer} {rs : List ReadAnswer}
    {ts : List Tick} {calls : List Call} {start : Tick} {cont budget : Nat} {ext : Bool} (hv : c.Valid)
    (h : WriteAt c frame .w6 ws (a :: rs) ts calls u) (hr : LoopRegs start cont budget ext u.work)
    (ha : Unhelpful c a) :
    ∃ v, step u = .next v ∧ WriteAt c frame .w5 ws rs ts (calls ++ [.clkNow]) v ∧
      LoopRegs start cont budget ext v.work := by
  obtain ⟨rfl, hwait, hbusy, hdone, hres, hlabel, hwrites, hreads, hticks, hframe, rfl⟩ := h
  have hF : 5 ≤ (nextAct u).cfg.F := hv.1
  have hstep := step_w6 hv (quiet_of_allWait hwait) hlabel
  by_cases hnone : ∀ b, a = .bytes b → b.length ≠ u.cfg.F
  · rw [senderW6_noFrame (s := nextAct u) hreads hnone] at hstep
    exact ⟨_, hstep, ⟨rfl, allWait_tail hwait, hbusy, hdone, hres, rfl, hwrites, rfl, hticks, hframe, rfl⟩, hr⟩
  · push Not at hnone
    obtain ⟨b, rfl, hb⟩ := hnone
    obtain ⟨hgood, hack, hnack⟩ := ha b rfl hb
    rw [senderW6_otherReply (s := nextAct u) hF hreads hgood hack hnack] at hstep
    exact ⟨_, hstep, ⟨rfl, allWait_tail hwait, hbusy, hdone, hres, rfl, hwrites, rfl, hticks, hframe, rfl⟩,
      hr.start, hr.cont, hr.budget, hr.ext⟩

/-- A WRITE that nothing stops, `n` steps after a state with `n₀` calls: it stands before its loop, or in it with
`CONT = 0` and the budget as loaded, and has made a call in each step. -/
def Unstopped (c : Config) (e : Environment) (frame : List Byte) (m n₀ n : Nat) (u : State) : Prop :=
  ∃ l j p q calls,
    WriteAt c frame l (answersFrom e.writes q m) (answersFrom e.reads p m) (answersFrom e.clock j m) calls u ∧
    calls.length = n₀ + n ∧ j ≤ n ∧ p ≤ n ∧ q ≤ n ∧
    (((l = .w3 ∨ l = .w4) ∧ j = 0) ∨ ((l = .w5 ∨ l = .w6) ∧ LoopRegs (e.clock 0) 0 c.maxAckWait false u.work))

/-- An unstopped WRITE goes on, as long as answers are left (92_eei_decisions.md D35). -/
theorem Unstopped.step {frame : List Byte} {n₀ n : Nat} (hv : c.Valid) (hwrites : ∀ j, e.writes j = .ok)
    (hclock : ∀ j, (e.clock j - e.clock 0).toNat ≤ c.maxAckWait) (hreads : ∀ j, Unhelpful c (e.reads j)) (hn : n < m)
    (h : Unstopped c e frame m n₀ n u) : ∃ v, step u = .next v ∧ Unstopped c e frame m n₀ (n + 1) v := by
  obtain ⟨l, j, p, q, calls, hat, hcalls, hj, hp, hq, hpoint⟩ := h
  have hcount : ∀ call : Call, (calls ++ [call]).length = n₀ + (n + 1) := fun call => by
    rw [List.length_append, hcalls]; rfl
  rcases hpoint with ⟨rfl | rfl, rfl⟩ | ⟨rfl | rfl, hregs⟩
  · rw [answersFrom_of_lt e.writes (by omega : q < m), hwrites] at hat
    obtain ⟨v, hstep, hnext⟩ := hat.sent hv
    exact ⟨v, hstep, .w4, 0, p, q + 1, _, hnext, hcount _, by omega, by omega, by omega, .inl ⟨.inr rfl, rfl⟩⟩
  · rw [answersFrom_of_lt e.clock (by omega : 0 < m)] at hat
    obtain ⟨v, hstep, hnext, hregs⟩ := hat.setUp hv
    exact ⟨v, hstep, .w5, 1, p, q, _, hnext, hcount _, by omega, by omega, by omega, .inr ⟨.inl rfl, hregs⟩⟩
  · rw [answersFrom_of_lt e.clock (by omega : j < m)] at hat
    obtain ⟨v, hstep, hnext, hregs⟩ := hat.gateOpen hv hregs (Nat.zero_le _) (hclock j)
      (by rw [Nat.zero_mul]; exact Nat.zero_le _)
    exact ⟨v, hstep, .w6, j + 1, p, q, _, hnext, hcount _, by omega, by omega, by omega, .inr ⟨.inr rfl, hregs⟩⟩
  · rw [answersFrom_of_lt e.reads (by omega : p < m)] at hat
    obtain ⟨v, hstep, hnext, hregs⟩ := hat.ignored hv hregs (hreads p)
    exact ⟨v, hstep, .w5, j, p + 1, q, _, hnext, hcount _, by omega, by omega, by omega, .inr ⟨.inl rfl, hregs⟩⟩

/-- An unstopped WRITE can take any number of steps the answers are given for. -/
theorem Unstopped.run {frame : List Byte} {n₀ n : Nat} (hv : c.Valid) (hwrites : ∀ j, e.writes j = .ok)
    (hclock : ∀ j, (e.clock j - e.clock 0).toNat ≤ c.maxAckWait) (hreads : ∀ j, Unhelpful c (e.reads j))
    (h : Unstopped c e frame m n₀ n u) (d : Nat) (hd : n + d ≤ m) :
    ∃ v, After d u v ∧ Unstopped c e frame m n₀ (n + d) v := by
  induction d generalizing n u with
  | zero => exact ⟨u, rfl, h⟩
  | succ d ih =>
    obtain ⟨v, hstep, hnext⟩ := h.step hv hwrites hclock hreads (by omega)
    obtain ⟨w, hafter, hlast⟩ := ih hnext (by omega)
    exact ⟨w, ⟨v, hstep, hafter⟩, by rwa [show n + (d + 1) = n + 1 + d by omega]⟩

end Sys2Proof.Machine
end

section
/-! PROOFS. The statement of 42_sender.md R135 to R137. -/

namespace Sys2Proof.Machine

/-- Settles O43: `WritesAllowed` bounds the transmissions at every point; turn by turn the loop comes to the guard
that the clock fails (`LoopAt.ends_within`); and with `CONT = 0`, an open gate and unhelpful replies it goes on for
ever (`Unstopped`). -/
theorem writeTransmissionsAreBounded : Obligations.WriteTransmissionsAreBounded := by
  refine ⟨fun s t r acts command len data n _ hbusy hhost hacts hdecode h =>
      write_transmissions_le hbusy hhost hacts hdecode h,
    fun s r acts command len data e k m hvalid hbusy hhost hacts hdecode hwf hk hkm =>
      write_ends_within hvalid hbusy hhost hacts hdecode hwf hk hkm, ?_⟩
  intro s r acts command len data bytes e hvalid hbusy hhost hacts hdecode hdata hlen hwrites hclock hreads n
  obtain ⟨u, hstep, hu⟩ :=
    writeAt_w3_of_start (s := answeredBy e (n + 1) s) hvalid hbusy hhost hacts hdecode hdata hlen
  have hfirst : Unstopped s.cfg e (wireFrame s.cfg s.devid command bytes) (n + 1) s.calls.length 1 u :=
    ⟨.w3, 0, 0, 0, _, hu, List.length_append, by omega, by omega, by omega, .inl ⟨.inl rfl, rfl⟩⟩
  obtain ⟨t, hafter, l, j, p, q, calls, hat, hcalls, -⟩ := hfirst.run hvalid hwrites hclock hreads n (by omega)
  exact ⟨t, ⟨u, hstep, hafter⟩, hat.busy, hat.done, by rw [hat.calls, hcalls]; omega⟩

end Sys2Proof.Machine
end

section
/-! PROOFS. What an operation does does not depend on any earlier one (10_state.md R29): an accepted command does the
same from every idle state of one block, and a running operation does the same whatever stands in `STATUS`, in the
calls made before it and in the acts of the host. -/

namespace Sys2Proof.Machine

/-! ### Acceptance -/

/-- The three ways an accepted command can go on, the same from every state with the parameters `c` and the `DEVID`
`d`. -/
inductive StartShape (i : Instr) (c : Config) (d : Byte) : Prop where
  | ends (k : Kind) (r : ResultRegs) :
      (∀ s : State, s.cfg = c → s.devid = d → startBody i (accept s) = ended k r s) → StartShape i c d
  | transmits (w : Work) :
      (∀ s : State, s.cfg = c → s.devid = d → startBody i (accept s) = transmitting w s) → StartShape i c d
  | flushes : (∀ s : State, startBody i (accept s) = readBody (accept s)) → StartShape i c d

/-- An accepted command goes on as its operands, the parameters and `DEVID` say. -/
theorem startShape (i : Instr) (c : Config) (d : Byte) : StartShape i c d := by
  cases i with
  | crc16 len data =>
    cases hmissing : operandMissing len data with
    | true =>
      refine .ends .invalidArgument ResultRegs.zero fun s _ _ => ?_
      rw [startBody, crc16Body, if_pos hmissing]; rfl
    | false =>
      refine .ends .ok { ResultRegs.zero with crc16 := crc16 c.crcPoly (operandBytes len data) } ?_
      rintro s rfl -
      rw [startBody, crc16Body, hmissing]; rfl
  | encode id command len crc data =>
    cases hlong : tooLong c len with
    | true =>
      refine .ends .lengthError ResultRegs.zero ?_
      rintro s rfl -
      rw [startBody, encodeBody, accept_cfg, if_pos hlong]; rfl
    | false =>
      cases hmissing : operandMissing len data with
      | true =>
        refine .ends .invalidArgument ResultRegs.zero ?_
        rintro s rfl -
        rw [startBody, encodeBody, accept_cfg, hlong, hmissing]; rfl
      | false =>
        refine .ends .ok { ResultRegs.zero with frame := enc c [] (requestPacket id command len crc data) } ?_
        rintro s rfl -
        rw [startBody, encodeBody, accept_cfg, hlong, hmissing]; rfl
  | decode frame =>
    cases frame with
    | none => exact .ends .invalidArgument ResultRegs.zero fun s _ _ => rfl
    | some b =>
      cases hdec : dec c (Memory.ofBytes (b.take c.F)) with
      | none =>
        refine .ends .lengthError ResultRegs.zero ?_
        rintro s rfl -
        simp only [startBody, decodeBody, receiveFrame, accept_cfg, setWork_cfg, setWork_work, hdec]; rfl
      | some p =>
        refine .ends .ok { ResultRegs.zero with packet := p } ?_
        rintro s rfl -
        simp only [startBody, decodeBody, receiveFrame, accept_cfg, setWork_cfg, setWork_work, hdec]; rfl
  | write command len data =>
    cases hlong : tooLong c len with
    | true =>
      refine .ends .lengthError ResultRegs.zero ?_
      rintro s rfl -
      rw [startBody, writeBody, accept_cfg, if_pos hlong]; rfl
    | false =>
      cases hmissing : operandMissing len data with
      | true =>
        refine .ends .invalidArgument ResultRegs.zero ?_
        rintro s rfl -
        rw [startBody, writeBody, accept_cfg, hlong, hmissing]; rfl
      | false =>
        refine .transmits { buildFrame c { Work.zero with txp := requestPacket d command len 0#16 data } with
          rxp := Packet.zero, rxf := [] } ?_
        rintro s rfl rfl
        rw [startBody, writeBody, accept_cfg, hlong, hmissing]; rfl
  | read => exact .flushes fun _ => rfl

/-- Two idle blocks with the same parameters and `DEVID` accept a command in the same way (10_state.md R29). -/
theorem exec_forgets (i : Instr) {s s' : State} (hcfg : s.cfg = s'.cfg) (hdevid : s.devid = s'.devid)
    (hidle : s.busy = false) (hidle' : s'.busy = false) :
    ∃ t t' new, exec i s = .next t ∧ exec i s' = .next t' ∧ t.cfg = t'.cfg ∧ t.devid = t'.devid ∧
      t.work = t'.work ∧ t.res = t'.res ∧ t.busy = t'.busy ∧ t.done = t'.done ∧ t.label = t'.label ∧
      (s.fsm = s'.fsm → t.fsm = t'.fsm) ∧ (t.busy = false → t.status = t'.status) ∧
      (SameAnswers s s' → SameAnswers t t') ∧ t.calls = s.calls ++ new ∧ t'.calls = s'.calls ++ new := by
  rw [exec_of_idle i hidle, exec_of_idle i hidle']
  rcases startShape i s.cfg s.devid with ⟨k, r, h⟩ | ⟨w, h⟩ | h
  · rw [h s rfl rfl, h s' hcfg.symm hdevid.symm]
    exact ⟨_, _, [], rfl, rfl, hcfg, hdevid, rfl, rfl, rfl, rfl, rfl, fun _ => rfl, fun _ => rfl, id,
      (List.append_nil _).symm, (List.append_nil _).symm⟩
  · rw [h s rfl rfl, h s' hcfg.symm hdevid.symm]
    refine ⟨_, _, [.tpWrite (frameBytes s.cfg w.txf)], rfl, rfl, hcfg, hdevid, rfl, rfl, rfl, rfl, rfl, fun _ => rfl,
      nofun, id, rfl, ?_⟩
    rw [hcfg]
    rfl
  · rw [h s, h s']
    exact ⟨_, _, [.tpFlush], rfl, rfl, hcfg, hdevid, rfl, rfl, rfl, rfl, rfl, id, nofun, id, rfl, rfl⟩

/-! ### A running operation -/

/-- `u` with the past of `s`: the calls made before, the acts of the host, and `STATUS` for as long as the operation
runs. -/
def withPast (s u : State) : State :=
  { u with
    status := if u.busy then s.status else u.status
    host := s.host
    calls := s.calls ++ u.calls
    cmdReject := s.cmdReject }

/-- `u` without a past. -/
def withoutPast (u : State) : State := { u with status := .ok, host := [], calls := [], cmdReject := false }

theorem withPast_withoutPast {s : State} (h : s.busy = true) : withPast s (withoutPast s) = s := by
  cases s
  simp_all [withPast, withoutPast]

/-- The same operation with the same answers to come differs in its past only. -/
theorem withoutPast_eq {s s' : State} (h : SameOperation s s') (ha : SameAnswers s s') :
    withoutPast s = withoutPast s' := by
  obtain ⟨hcfg, hdevid, hwork, hres, hfsm, hbusy, hdone, hlabel⟩ := h
  obtain ⟨hwrites, hreads, hticks⟩ := ha
  simp [withoutPast, hcfg, hdevid, hwork, hres, hfsm, hbusy, hdone, hlabel, hwrites, hreads, hticks]

/-- What `k` does does not depend on the past. -/
abbrev Forgets (k : State → State) : Prop := ∀ s u, k (withPast s u) = withPast s (k u)

theorem forgets_finish (k : Kind) : Forgets (finish k) := fun _ _ => rfl

theorem forgets_issue (c : Call) (l : Label) : Forgets (issue c l) := fun s u =>
  congrArg (fun calls => ({ withPast s (issue c l u) with calls := calls } : State))
    (List.append_assoc s.calls u.calls [c])

theorem forgets_sendFrame (l : Label) : Forgets (sendFrame l) := fun s u =>
  forgets_issue (.tpWrite (frameBytes u.cfg u.work.txf)) l s u

theorem forgets_awaitReply : Forgets awaitReply := forgets_issue .clkNow .w5

theorem forgets_resent (w : Work) : Forgets (resent w) := by
  intro s u
  have hresend : ∀ t : State, resent w t = resend (setWork w t) := fun t => (resend_eq (setWork w t)).symm
  rw [hresend, hresend]
  by_cases h : w.cont.toNat < u.cfg.maxAttempts
  · rw [resend, resend, if_pos (show (setWork w u).work.cont.toNat < (setWork w u).cfg.maxAttempts from h),
      if_pos (show (setWork w (withPast s u)).work.cont.toNat < (setWork w (withPast s u)).cfg.maxAttempts from h)]
    exact forgets_sendFrame .w8 s (setFsm .txSent (setWork w u))
  · rw [resend, resend, if_neg (show ¬(setWork w u).work.cont.toNat < (setWork w u).cfg.maxAttempts from h),
      if_neg (show ¬(setWork w (withPast s u)).work.cont.toNat < (setWork w (withPast s u)).cfg.maxAttempts from h)]
    exact forgets_awaitReply s (setWork { w with cont := w.cont + 1#8 } u)

theorem forgets_onWritten {k : State → State} (hk : Forgets k) : Forgets (onWritten k) := by
  intro s u
  rcases onWritten_cases k u with ⟨h, e⟩ | ⟨rest, h, e⟩ | ⟨rest, h, e⟩
  · rw [e, onWritten_waiting (s := withPast s u) k h]
  · rw [e, onWritten_ok (s := withPast s u) k h]
    exact hk s (setTpWrites rest u)
  · rw [e, onWritten_ioError (s := withPast s u) k h]
    exact forgets_finish .ioError s (setTpWrites rest u)

theorem forgets_senderW4 : Forgets senderW4 := by
  intro s u
  rcases h : u.ticks with _ | ⟨now, rest⟩
  · rw [senderW4, senderW4, onTick_waiting _ h, onTick_waiting (s := withPast s u) _ h]
  · rw [senderW4, senderW4, onTick_cons _ h, onTick_cons (s := withPast s u) _ h]
    exact forgets_awaitReply s (setWork
      { u.work with
        start := now, cont := 0#8, budget := BitVec.ofNat tickWidth u.cfg.maxAckWait, ext := false, acked := false }
      (setTicks rest u))

theorem forgets_senderW5 : Forgets senderW5 := by
  intro s u
  rcases h : u.ticks with _ | ⟨now, rest⟩
  · rw [senderW5, senderW5, onTick_waiting _ h, onTick_waiting (s := withPast s u) _ h]
  by_cases hfails : u.cfg.maxAttempts < u.work.cont.toNat ∨ u.work.budget.toNat < (elapsed now u).toNat
  · rw [senderW5_of_fails h hfails, senderW5_of_fails (s := withPast s u) h hfails]
    rfl
  by_cases hopen : u.work.cont.toNat * u.cfg.retryInterval ≤ (elapsed now u).toNat
  · rw [senderW5_of_open h hfails hopen, senderW5_of_open (s := withPast s u) h hfails hopen]
    exact forgets_issue _ _ s (setTicks rest u)
  · have hshut := Nat.lt_of_not_le hopen
    rw [senderW5_of_shut h hfails hshut, senderW5_of_shut (s := withPast s u) h hfails hshut]
    exact forgets_awaitReply s (setTicks rest u)

theorem senderW6_withPast {u : State} (hv : u.cfg.Valid) (s : State) :
    senderW6 (withPast s u) = withPast s (senderW6 u) := by
  have hF : 5 ≤ u.cfg.F := hv.1
  rcases h : u.tpReads with _ | ⟨a, rest⟩
  · rw [senderW6, senderW6, onReadAnswer_waiting _ h, onReadAnswer_waiting (s := withPast s u) _ h]
  by_cases hnone : ∀ b, a = .bytes b → b.length ≠ u.cfg.F
  · rw [senderW6_noFrame h hnone, senderW6_noFrame (s := withPast s u) h hnone]
    exact forgets_awaitReply s (setTpReads rest u)
  push Not at hnone
  obtain ⟨b, rfl, hb⟩ := hnone
  by_cases hgood : GoodFrame u.cfg b
  · by_cases hack : b.getD 1 0#8 = u.cfg.ackCode
    · rw [senderW6_ackReply hF h hgood hack, senderW6_ackReply (s := withPast s u) hF h hgood hack]
      rfl
    by_cases hnack : b.getD 1 0#8 = u.cfg.nackCode
    · rw [senderW6_nackReply hv h hgood hnack, senderW6_nackReply (s := withPast s u) hv h hgood hnack]
      exact forgets_resent _ s (setTpReads rest u)
    · rw [senderW6_otherReply hF h hgood hack hnack, senderW6_otherReply (s := withPast s u) hF h hgood hack hnack]
      exact forgets_awaitReply s (receiveFrame b (setTpReads rest u))
  · rw [senderW6_noise hF h hb hgood, senderW6_noise (s := withPast s u) hF h hb hgood]
    exact forgets_resent _ s (setTpReads rest u)

theorem forgets_receiverRD2 : Forgets receiverRD2 := fun s u =>
  forgets_issue (.tpRead u.cfg.F u.cfg.rxTimeout) .rd3 s (setFsm .rxAwait
    (setWork (buildFrame u.cfg { u.work with txp := replyPacket u.devid u.cfg.nackCode }) u))

theorem forgets_replyAck : Forgets replyAck := fun s u =>
  forgets_sendFrame .rd6 s
    (setWork (buildFrame u.cfg { u.work with txp := { u.work.txp with command := u.cfg.ackCode } }) u)

theorem receiverRD3_withPast {u : State} (hv : u.cfg.Valid) (s : State) :
    receiverRD3 (withPast s u) = withPast s (receiverRD3 u) := by
  have hF : 5 ≤ u.cfg.F := hv.1
  rcases h : u.tpReads with _ | ⟨a, rest⟩
  · rw [receiverRD3, receiverRD3, onReadAnswer_waiting _ h, onReadAnswer_waiting (s := withPast s u) _ h]
  by_cases hnone : ∀ b, a = .bytes b → b.length ≠ u.cfg.F
  · rw [receiverRD3_noFrame h hnone, receiverRD3_noFrame (s := withPast s u) h hnone]
    exact forgets_sendFrame _ s (setTpReads rest u)
  push Not at hnone
  obtain ⟨b, rfl, hb⟩ := hnone
  by_cases hbad : u.cfg.maxp < (b.getD 2 0#8).toNat ∨ (b.getD 2 0#8).toNat < u.cfg.minLen.toNat
  · rw [receiverRD3_badLength hF h hb hbad, receiverRD3_badLength (s := withPast s u) hF h hb hbad]
    rfl
  have hlength := not_or.1 hbad
  have hmax := Nat.le_of_not_lt hlength.1
  have hmin := Nat.le_of_not_lt hlength.2
  by_cases hcrc : CrcMatches u.cfg b
  · rw [receiverRD3_goodFrame hF h ⟨hb, hmax, hcrc⟩ hmin,
      receiverRD3_goodFrame (s := withPast s u) hF h ⟨hb, hmax, hcrc⟩ hmin]
    exact forgets_replyAck s
      (setWork { u.work with rxf := Memory.ofBytes b, rxp := packetOf u.cfg b } (setTpReads rest u))
  · rw [receiverRD3_badChecksum hF h hb hmax hmin hcrc,
      receiverRD3_badChecksum (s := withPast s u) hF h hb hmax hmin hcrc]
    exact forgets_sendFrame .rd5Nack s
      (setWork { u.work with rxf := Memory.ofBytes b, rxp := packetOf u.cfg b } (setTpReads rest u))

/-- One step of a running operation does not depend on its past (42_sender.md R139). -/
theorem advance_withPast {u : State} (hv : u.cfg.Valid) (s : State) :
    advance (withPast s u) = withPast s (advance u) := by
  have hl : (withPast s u).label = u.label := rfl
  unfold advance
  rw [hl]
  cases u.label with
  | none => rfl
  | w3 => exact forgets_onWritten (fun s u => forgets_issue .clkNow .w4 s (setFsm .txAwait u)) s u
  | w4 => exact forgets_senderW4 s u
  | w5 => exact forgets_senderW5 s u
  | w6 => exact senderW6_withPast hv s
  | w8 =>
    exact forgets_onWritten (fun s u =>
      forgets_awaitReply s (setWork { u.work with cont := u.work.cont + 1#8 } (setFsm .txAwait u))) s u
  | rd2 => exact forgets_receiverRD2 s u
  | rd3 => exact receiverRD3_withPast hv s
  | rd3Nack => exact forgets_onWritten (forgets_finish .noData) s u
  | rd5Nack => exact forgets_onWritten (forgets_finish .crcError) s u
  | rd6 => exact forgets_onWritten (fun s u => forgets_finish .ok s (setRes { u.res with packet := u.work.rxp } u)) s u

/-- Two busy blocks that run the same operation with the same answers to come take the same step. -/
theorem step_forgets {s s' : State} (hv : s.cfg.Valid) (hquiet : Quiet s) (hquiet' : Quiet s')
    (hsame : SameOperation s s') (hanswers : SameAnswers s s') (hbusy : s.busy = true) :
    ∃ t t' new, step s = .next t ∧ step s' = .next t' ∧ SameOperation t t' ∧ SameAnswers t t' ∧
      (t.busy = false → t.status = t'.status) ∧ t.calls = s.calls ++ new ∧ t'.calls = s'.calls ++ new := by
  have hcommon : withoutPast (nextAct s) = withoutPast (nextAct s') := withoutPast_eq (s := nextAct s) hsame hanswers
  obtain ⟨hcfg, -, -, -, -, hsameBusy, -, -⟩ := hsame
  have hvalid' : s'.cfg.Valid := hcfg ▸ hv
  have hbusy' : (nextAct s').busy = true := hsameBusy ▸ hbusy
  have e : step s = .next (withPast (nextAct s) (advance (withoutPast (nextAct s)))) := by
    rw [← advance_withPast (u := withoutPast (nextAct s)) hv, withPast_withoutPast (s := nextAct s) hbusy,
      step_quiet hv hquiet]
  have e' : step s' = .next (withPast (nextAct s') (advance (withoutPast (nextAct s)))) := by
    rw [hcommon, ← advance_withPast (u := withoutPast (nextAct s')) hvalid', withPast_withoutPast hbusy',
      step_quiet hvalid' hquiet']
  refine ⟨_, _, _, e, e', ⟨rfl, rfl, rfl, rfl, rfl, rfl, rfl, rfl⟩, ⟨rfl, rfl, rfl⟩, fun hidle => ?_, rfl, rfl⟩
  have hended : ¬(advance (withoutPast (nextAct s))).busy = true := Bool.eq_false_iff.1 hidle
  exact (if_neg hended).trans (if_neg hended).symm

/-- Settles O29: acceptance by `exec_forgets`, the idle `FSM` by the invariant, and each later step by `step_forgets`.
-/
theorem operationsForgetThePast : Obligations.OperationsForgetThePast :=
  ⟨fun i _ _ hcfg hdevid hidle hidle' => exec_forgets i hcfg hdevid hidle hidle',
    fun _ hinv hidle => hinv.fsm_of_idle hidle,
    fun _ _ hv hquiet hquiet' hsame hanswers hbusy => step_forgets hv hquiet hquiet' hsame hanswers hbusy⟩

end Sys2Proof.Machine
end
